-- ==== Sys2Proof/Word.lean ====
section
/-! DEFINITION. Words, the names of registers, and the operand forms of the encoding (spec/10_state.md R10, R22, spec/30_encoding.md R106, R107). -/

namespace Sys2Proof

abbrev Byte := BitVec 8
/-- A segment selector, R14. -/
abbrev Sel := BitVec 16
/-- An offset, a linear address or the contents of a general register, R5. -/
abbrev Word := BitVec 32

/-- The eight general registers, R22; `toBits` gives their numbers. -/
inductive Reg where
  | eax | ecx | edx | ebx | esp | ebp | esi | edi
deriving DecidableEq, Repr

/-- The six segment registers, R10, in the order of their numbers in ModRM.reg (R107). -/
inductive SReg where
  | es | cs | ss | ds | fs | gs
deriving DecidableEq, Repr

/-- A memory operand as ModRM, SIB and displacement give it, R106. In the SIB forms `scale` is the
shift and an index of ESP means that there is no index. -/
inductive Mem where
  /-- mod 00, rm a register other than ESP and EBP: `x[rm]` -/
  | base (r : Reg)
  /-- mod 00, rm 101: `disp32` -/
  | abs (d : Word)
  /-- mod 01, rm not 100: `x[rm] + sext(disp8)` -/
  | base8 (r : Reg) (d : Byte)
  /-- mod 10, rm not 100: `x[rm] + disp32` -/
  | base32 (r : Reg) (d : Word)
  /-- mod 00, rm 100, SIB base not 101 -/
  | sib (scale : BitVec 2) (index : Reg) (b : Reg)
  /-- mod 00, rm 100, SIB base 101: no base register, a `disp32` follows -/
  | sibAbs (scale : BitVec 2) (index : Reg) (d : Word)
  /-- mod 01, rm 100 -/
  | sib8 (scale : BitVec 2) (index : Reg) (b : Reg) (d : Byte)
  /-- mod 10, rm 100 -/
  | sib32 (scale : BitVec 2) (index : Reg) (b : Reg) (d : Word)
deriving DecidableEq, Repr

/-- A register-or-memory operand (mod 11 is the register), R106. -/
inductive RM where
  | reg (r : Reg)
  | mem (m : Mem)
deriving DecidableEq, Repr

/-- The offset of an in-line far pointer: 4 bytes, or 2 with the operand size 16 (R101, `OP_PTR`). -/
inductive PtrOff where
  | off32 (v : Word)
  | off16 (v : BitVec 16)
deriving DecidableEq, Repr

/-- What an access is for, R75. -/
inductive Access where
  | read | write | execute
deriving DecidableEq, Repr

end Sys2Proof
end

