-- ==== Sys2Proof/Config.lean ====
section
/-! DEFINITION. What an implementation fixes and what the spec leaves open: the free values (`draw`, spec/00_scope.md R7) and the
paging stage (`PageWalk`, R5, D12). Both are opaque: no proof can see a value of theirs. -/

namespace Sys2Proof

/-- Which access of an instruction reads a byte: two draws of one instruction at different places are
different draws (log 12). -/
inductive DrawTag where
  | fetch | operand | selector | tableBase | stack | descriptor
deriving DecidableEq, Repr

/-- The places of the spec that draw. -/
inductive DrawSite where
  /-- byte `i` of an access, read from absent memory (R28) -/
  | absentByte (tag : DrawTag) (i : Nat)
  /-- the upper half of a 32-bit register that receives a selector (R121, R162, R163) -/
  | upperHalf
  /-- the hidden part after a null selector is loaded (R15, R165) -/
  | hiddenPart
  /-- whether an accessed-bit write to ROM or absent memory (R72), or a store onto a descriptor in ROM (R206), hangs -/
  | romHang
deriving DecidableEq, Repr

/-- `draw(N)` of R7, a free value for each instruction (`clock`) and place. DESIGN CHOICE (log 9): safe. -/
opaque Config.draw (n clock : Nat) (site : DrawSite) : BitVec n

/-- `PageWalk(la, kind, CPL)` of R5 and D12, a function of its arguments and of memory: a physical
address, or `none` for a page fault. (log 13): safe. -/
opaque Config.pageWalk (mem : List Host.Cell) (la : Word) (k : Access) (cpl : BitVec 2) : Option Nat

/-- The longest instruction, R101. -/
def Config.maxInstrBytes : Nat := 15

end Sys2Proof
end

