-- ==== Sys2Proof/Syntax.lean ====
section
/-! DEFINITION. The instructions: one constructor per row of spec/opcode_table.json (spec/30_encoding.md R108). -/

namespace Sys2Proof

/-- One constructor per row of the opcode table, in the table's order. -/
inductive Instr where
  /-- 8E /r, R120 -/
  | movToSreg (sr : SReg) (src : RM)
  /-- 8C /r, R121 -/
  | movFromSreg (dst : RM) (sr : SReg)
  /-- 07, R122 -/
  | popES
  /-- 17, R122 -/
  | popSS
  /-- 1F, R122 -/
  | popDS
  /-- 0F A1, R122 -/
  | popFS
  /-- 0F A9, R122 -/
  | popGS
  /-- C5 /r, R124 -/
  | lds (r : Reg) (m : Mem)
  /-- C4 /r, R125 -/
  | les (r : Reg) (m : Mem)
  /-- 0F B2 /r, R126 -/
  | lss (r : Reg) (m : Mem)
  /-- 0F B4 /r, R127 -/
  | lfs (r : Reg) (m : Mem)
  /-- 0F B5 /r, R128 -/
  | lgs (r : Reg) (m : Mem)
  /-- 9A, R141 -/
  | callPtr (off : PtrOff) (sel : Sel)
  /-- FF /3, R141 -/
  | callMem (m : Mem)
  /-- EA, R142 -/
  | jmpPtr (off : PtrOff) (sel : Sel)
  /-- FF /5, R142 -/
  | jmpMem (m : Mem)
  /-- CB, R143 -/
  | retFar
  /-- CA iw, R143 -/
  | retFarImm (imm : BitVec 16)
  /-- 0F 34, R144 -/
  | sysenter
  /-- 0F 35, R145 -/
  | sysexit
  /-- CF, R146 -/
  | iret
  /-- CD ib, R147 -/
  | intN (n : Byte)
  /-- CE, R148 -/
  | into
  /-- CC, R149 -/
  | int3
  /-- 0F 01 /0, R160 -/
  | sgdt (m : Mem)
  /-- 0F 01 /1, R161 -/
  | sidt (m : Mem)
  /-- 0F 00 /0, R162 -/
  | sldt (dst : RM)
  /-- 0F 00 /1, R163 -/
  | str (dst : RM)
  /-- 0F 01 /2, R164 -/
  | lgdt (m : Mem)
  /-- 0F 00 /2, R165 -/
  | lldt (src : RM)
  /-- 66, R102 -/
  | opSizeByte
  /-- 67, R103 -/
  | addrSizeByte
  /-- 2E for CS, R104; the five other overrides by the same constructor (log 16) -/
  | segOverrideByte (sr : SReg)
deriving DecidableEq, Repr

end Sys2Proof
end

