-- ==== Sys2Proof/WellFormed.lean ====
section
/-! DEFINITION. Which terms of `Instr` an encoding can say (spec/30_encoding.md R106, R107, R109). -/

namespace Sys2Proof

/-- The operand forms that ModRM and SIB have an encoding for, R106. -/
def Mem.wf : Mem → Bool
  | .base r => r != .esp && r != .ebp
  | .abs _ => true
  | .base8 r _ => r != .esp
  | .base32 r _ => r != .esp
  | .sib _ _ b => b != .ebp
  | .sibAbs _ _ _ => true
  | .sib8 _ _ _ _ => true
  | .sib32 _ _ _ _ => true

def RM.wf : RM → Bool
  | .reg _ => true
  | .mem m => m.wf

/-- An in-line offset has the operand size's width, R101. -/
def PtrOff.wf (op32 : Bool) : PtrOff → Bool
  | .off32 _ => op32
  | .off16 _ => !op32

/-- `i` can be encoded where the operand size is 32 (`op32`) or 16: CS is no destination of MOV
(R109 (a)), memory operands have a form (R106), in-line offsets have the operand size's width. -/
def Instr.wf (op32 : Bool) : Instr → Bool
  | .movToSreg sr src => sr != .cs && src.wf
  | .movFromSreg dst _ => dst.wf
  | .popES => true
  | .popSS => true
  | .popDS => true
  | .popFS => true
  | .popGS => true
  | .lds _ m => m.wf
  | .les _ m => m.wf
  | .lss _ m => m.wf
  | .lfs _ m => m.wf
  | .lgs _ m => m.wf
  | .callPtr off _ => off.wf op32
  | .callMem m => m.wf
  | .jmpPtr off _ => off.wf op32
  | .jmpMem m => m.wf
  | .retFar => true
  | .retFarImm _ => true
  | .sysenter => true
  | .sysexit => true
  | .iret => true
  | .intN _ => true
  | .into => true
  | .int3 => true
  | .sgdt m => m.wf
  | .sidt m => m.wf
  | .sldt dst => dst.wf
  | .str dst => dst.wf
  | .lgdt m => m.wf
  | .lldt src => src.wf
  | .opSizeByte => true
  | .addrSizeByte => true
  | .segOverrideByte _ => true

end Sys2Proof
end

