-- ==== Sys2Proof/Decode.lean ====
section
/-! DEFINITION. The decoder, total on any bytes and refusing by name, and the encoder, both from the
encoding of spec/30_encoding.md R101 to R109. A prefix byte is decoded by itself (log 14); the sizes it
selects come back as the arguments `op32` and `addr32` of the next call. -/

namespace Sys2Proof

/-- Why bytes are no instruction of the model. -/
inductive DecodeError where
  /-- the bytes end inside an instruction, of which at least `missing` more bytes are known to follow: a field that the bytes
  read already call for counts whole; the caller says why there are no more -/
  | truncated (missing : Nat)
  /-- no row of the opcode table matches, R109 -/
  | noRow
  /-- a form that R109 (a) and (c) call invalid -/
  | invalidForm
  /-- a memory operand with AddrSize 16, R103 -/
  | addressSize16
  /-- LIDT or LTR, R166 -/
  | lidtLtrNotInSource
deriving DecidableEq, Repr

abbrev Decoded (α : Type) := Except DecodeError (α × List Byte)

/-- Where bytes end inside a field, `n` bytes of a field after it are missing too. -/
def DecodeError.before (n : Nat) : DecodeError → DecodeError
  | .truncated k => .truncated (k + n)
  | e => e

/-- The register a 3-bit number names, R22. -/
def Reg.ofBits (b : BitVec 3) : Reg :=
  match b.toNat with
  | 0 => .eax | 1 => .ecx | 2 => .edx | 3 => .ebx | 4 => .esp | 5 => .ebp | 6 => .esi | _ => .edi

def Reg.toBits : Reg → BitVec 3
  | .eax => 0 | .ecx => 1 | .edx => 2 | .ebx => 3 | .esp => 4 | .ebp => 5 | .esi => 6 | .edi => 7

/-- The segment register a ModRM.reg number names, R107; 6 and 7 name none. -/
def SReg.ofBits (b : BitVec 3) : Option SReg :=
  match b.toNat with
  | 0 => some .es | 1 => some .cs | 2 => some .ss | 3 => some .ds | 4 => some .fs | 5 => some .gs | _ => none

def SReg.toBits : SReg → BitVec 3
  | .es => 0 | .cs => 1 | .ss => 2 | .ds => 3 | .fs => 4 | .gs => 5

/-- Little-endian fields of the byte string, R101. -/
def take8 : List Byte → Decoded Byte
  | a :: bs => .ok (a, bs)
  | [] => .error (.truncated 1)

def take16 : List Byte → Decoded (BitVec 16)
  | a :: b :: bs => .ok (b ++ a, bs)
  | bs => .error (.truncated (2 - bs.length))

def take32 : List Byte → Decoded Word
  | a :: b :: c :: d :: bs => .ok (d ++ c ++ b ++ a, bs)
  | bs => .error (.truncated (4 - bs.length))

def put16 (v : BitVec 16) : List Byte := [v.extractLsb' 0 8, v.extractLsb' 8 8]

def put32 (v : Word) : List Byte :=
  [v.extractLsb' 0 8, v.extractLsb' 8 8, v.extractLsb' 16 8, v.extractLsb' 24 8]

/-- The byte `mod[7:6] reg[5:3] rm[2:0]` of R106; the SIB byte has the same shape. -/
def packByte (m : BitVec 2) (reg rm : BitVec 3) : Byte := m ++ reg ++ rm

def modOf (b : Byte) : BitVec 2 := b.extractLsb' 6 2
def regOf (b : Byte) : BitVec 3 := b.extractLsb' 3 3
def rmOf (b : Byte) : BitVec 3 := b.extractLsb' 0 3

/-- The bytes of displacement that mod 00, 01 or 10 calls for whatever the SIB byte is, R106. -/
def dispSize (m : BitVec 2) : Nat := if m = 0 then 0 else if m = 1 then 1 else 4

/-- The SIB byte and displacement that follow a ModRM byte with rm 100 and mod 00, 01 or 10, R106. -/
def decodeSib (m : BitVec 2) (bs : List Byte) : Decoded Mem :=
  match take8 bs with
  | .error e => .error (e.before (dispSize m))
  | .ok (s, bs) =>
    let b := Reg.ofBits (rmOf s)
    let x := Reg.ofBits (regOf s)
    if m = 0 then
      if b = .ebp then (take32 bs).map fun (d, bs) => (.sibAbs (modOf s) x d, bs)
      else .ok (.sib (modOf s) x b, bs)
    else if m = 1 then (take8 bs).map fun (d, bs) => (.sib8 (modOf s) x b d, bs)
    else (take32 bs).map fun (d, bs) => (.sib32 (modOf s) x b d, bs)

/-- The operand a ModRM byte `b` introduces, R106. -/
def decodeRM (addr32 : Bool) (b : Byte) (bs : List Byte) : Decoded RM :=
  let r := Reg.ofBits (rmOf b)
  if modOf b = 3 then .ok (.reg r, bs)
  else if !addr32 then .error .addressSize16
  else if r = .esp then (decodeSib (modOf b) bs).map fun (m, bs) => (.mem m, bs)
  else if modOf b = 0 then
    if r = .ebp then (take32 bs).map fun (d, bs) => (.mem (.abs d), bs)
    else .ok (.mem (.base r), bs)
  else if modOf b = 1 then (take8 bs).map fun (d, bs) => (.mem (.base8 r d), bs)
  else (take32 bs).map fun (d, bs) => (.mem (.base32 r d), bs)

/-- A memory operand: the register form is invalid, R109 (c). -/
def decodeMem (addr32 : Bool) (b : Byte) (bs : List Byte) : Decoded Mem :=
  if modOf b = 3 then .error .invalidForm
  else match decodeRM addr32 b bs with
    | .ok (.mem m, bs) => .ok (m, bs)
    | .ok (.reg _, _) => .error .invalidForm
    | .error e => .error e

/-- A ModRM byte whose operand is a register or memory, handed to `k` with its `reg` field. `k` refuses an invalid `reg` after the operand
is complete, so where its displacement cannot be fetched that fault comes first; R109 leaves the order open. DESIGN CHOICE (log 30): unsafe. -/
def withRM (addr32 : Bool) (bs : List Byte) (k : BitVec 3 → RM → Except DecodeError Instr) : Decoded Instr :=
  match take8 bs with
  | .error e => .error e
  | .ok (b, bs) =>
    match decodeRM addr32 b bs with
    | .error e => .error e
    | .ok (rm, bs) => (k (regOf b) rm).map fun i => (i, bs)

/-- A ModRM byte whose operand is memory only. -/
def withMem (addr32 : Bool) (bs : List Byte) (k : BitVec 3 → Mem → Instr) : Decoded Instr :=
  match take8 bs with
  | .error e => .error e
  | .ok (b, bs) => (decodeMem addr32 b bs).map fun (m, bs) => (k (regOf b) m, bs)

/-- MOV Sreg, r/m16: `reg` = 1, 6 and 7 are invalid, R109 (a). -/
def movToSregOf (reg : BitVec 3) (rm : RM) : Except DecodeError Instr :=
  match SReg.ofBits reg with
  | none => .error .invalidForm
  | some sr => if sr = .cs then .error .invalidForm else .ok (.movToSreg sr rm)

/-- MOV r/m16, Sreg: `reg` = 6 and 7 are invalid, R109 (a). -/
def movFromSregOf (reg : BitVec 3) (rm : RM) : Except DecodeError Instr :=
  match SReg.ofBits reg with
  | none => .error .invalidForm
  | some sr => .ok (.movFromSreg rm sr)

/-- FF /3 and FF /5; the other `reg` values are other instructions, R109 (d). -/
def decodeFF (addr32 : Bool) (bs : List Byte) : Decoded Instr :=
  match take8 bs with
  | .error e => .error e
  | .ok (b, bs) =>
    if regOf b = 3 then (decodeMem addr32 b bs).map fun (m, bs) => (.callMem m, bs)
    else if regOf b = 5 then (decodeMem addr32 b bs).map fun (m, bs) => (.jmpMem m, bs)
    else .error .noRow

/-- 0F 00 /0, /1, /2; /3 is LTR, R166. -/
def decode0F00 (addr32 : Bool) (bs : List Byte) : Decoded Instr :=
  match take8 bs with
  | .error e => .error e
  | .ok (b, bs) =>
    if regOf b = 0 then (decodeRM addr32 b bs).map fun (rm, bs) => (.sldt rm, bs)
    else if regOf b = 1 then (decodeRM addr32 b bs).map fun (rm, bs) => (.str rm, bs)
    else if regOf b = 2 then (decodeRM addr32 b bs).map fun (rm, bs) => (.lldt rm, bs)
    else if regOf b = 3 then .error .lidtLtrNotInSource
    else .error .noRow

/-- 0F 01 /0, /1, /2; /3 is LIDT, R166. -/
def decode0F01 (addr32 : Bool) (bs : List Byte) : Decoded Instr :=
  match take8 bs with
  | .error e => .error e
  | .ok (b, bs) =>
    if regOf b = 0 then (decodeMem addr32 b bs).map fun (m, bs) => (.sgdt m, bs)
    else if regOf b = 1 then (decodeMem addr32 b bs).map fun (m, bs) => (.sidt m, bs)
    else if regOf b = 2 then (decodeMem addr32 b bs).map fun (m, bs) => (.lgdt m, bs)
    else if regOf b = 3 then .error .lidtLtrNotInSource
    else .error .noRow

/-- The second opcode byte after the escape 0FH, R108. -/
def decode0F (addr32 : Bool) (bs : List Byte) : Decoded Instr :=
  match take8 bs with
  | .error e => .error e
  | .ok (b, bs) =>
    match b.toNat with
    | 0x00 => decode0F00 addr32 bs
    | 0x01 => decode0F01 addr32 bs
    | 0x34 => .ok (.sysenter, bs)
    | 0x35 => .ok (.sysexit, bs)
    | 0xA1 => .ok (.popFS, bs)
    | 0xA9 => .ok (.popGS, bs)
    | 0xB2 => withMem addr32 bs fun r m => .lss (Reg.ofBits r) m
    | 0xB4 => withMem addr32 bs fun r m => .lfs (Reg.ofBits r) m
    | 0xB5 => withMem addr32 bs fun r m => .lgs (Reg.ofBits r) m
    | _ => .error .noRow

/-- The offset of an in-line far pointer, R101. -/
def takeOff (op32 : Bool) (bs : List Byte) : Decoded PtrOff :=
  if op32 then (take32 bs).map fun (v, bs) => (.off32 v, bs)
  else (take16 bs).map fun (v, bs) => (.off16 v, bs)

/-- An in-line far pointer: the offset, then the selector, R107. -/
def takePtr (op32 : Bool) (bs : List Byte) (k : PtrOff → Sel → Instr) : Decoded Instr :=
  match takeOff op32 bs with
  | .error e => .error (e.before 2)
  | .ok (off, bs) => (take16 bs).map fun (sel, bs) => (k off sel, bs)

/-- The opcode map of R108, with the five override bytes of R104 (log 16). -/
def decode (op32 addr32 : Bool) (bs : List Byte) : Decoded Instr :=
  match take8 bs with
  | .error e => .error e
  | .ok (b, bs) =>
    match b.toNat with
    | 0x07 => .ok (.popES, bs)
    | 0x0F => decode0F addr32 bs
    | 0x17 => .ok (.popSS, bs)
    | 0x1F => .ok (.popDS, bs)
    | 0x26 => .ok (.segOverrideByte .es, bs)
    | 0x2E => .ok (.segOverrideByte .cs, bs)
    | 0x36 => .ok (.segOverrideByte .ss, bs)
    | 0x3E => .ok (.segOverrideByte .ds, bs)
    | 0x64 => .ok (.segOverrideByte .fs, bs)
    | 0x65 => .ok (.segOverrideByte .gs, bs)
    | 0x66 => .ok (.opSizeByte, bs)
    | 0x67 => .ok (.addrSizeByte, bs)
    | 0x8C => withRM addr32 bs movFromSregOf
    | 0x8E => withRM addr32 bs movToSregOf
    | 0x9A => takePtr op32 bs .callPtr
    | 0xC4 => withMem addr32 bs fun r m => .les (Reg.ofBits r) m
    | 0xC5 => withMem addr32 bs fun r m => .lds (Reg.ofBits r) m
    | 0xCA => (take16 bs).map fun (v, bs) => (.retFarImm v, bs)
    | 0xCB => .ok (.retFar, bs)
    | 0xCC => .ok (.int3, bs)
    | 0xCD => (take8 bs).map fun (v, bs) => (.intN v, bs)
    | 0xCE => .ok (.into, bs)
    | 0xCF => .ok (.iret, bs)
    | 0xEA => takePtr op32 bs .jmpPtr
    | 0xFF => decodeFF addr32 bs
    | _ => .error .noRow

/-- Whether the instruction is a prefix byte, which another byte follows (format PREFIX of R101). -/
def Instr.isPrefixByte : Instr → Bool
  | .opSizeByte => true
  | .addrSizeByte => true
  | .segOverrideByte _ => true
  | _ => false

/-! The encoder. -/

/-- The ModRM byte, SIB byte and displacement of a memory operand, with `reg` in ModRM.reg, R106. -/
def Mem.encode (reg : BitVec 3) : Mem → List Byte
  | .base r => [packByte 0 reg r.toBits]
  | .abs d => packByte 0 reg 5 :: put32 d
  | .base8 r d => [packByte 1 reg r.toBits, d]
  | .base32 r d => packByte 2 reg r.toBits :: put32 d
  | .sib s x b => [packByte 0 reg 4, packByte s x.toBits b.toBits]
  | .sibAbs s x d => packByte 0 reg 4 :: packByte s x.toBits 5 :: put32 d
  | .sib8 s x b d => [packByte 1 reg 4, packByte s x.toBits b.toBits, d]
  | .sib32 s x b d => packByte 2 reg 4 :: packByte s x.toBits b.toBits :: put32 d

def RM.encode (reg : BitVec 3) : RM → List Byte
  | .reg r => [packByte 3 reg r.toBits]
  | .mem m => m.encode reg

def PtrOff.encode : PtrOff → List Byte
  | .off32 v => put32 v
  | .off16 v => put16 v

/-- The override byte of a segment register, R104 and G9. -/
def SReg.overrideByte : SReg → Byte
  | .es => 0x26 | .cs => 0x2E | .ss => 0x36 | .ds => 0x3E | .fs => 0x64 | .gs => 0x65

/-- The bytes of an instruction, R108. -/
def encode : Instr → List Byte
  | .movToSreg sr src => 0x8E :: src.encode sr.toBits
  | .movFromSreg dst sr => 0x8C :: dst.encode sr.toBits
  | .popES => [0x07]
  | .popSS => [0x17]
  | .popDS => [0x1F]
  | .popFS => [0x0F, 0xA1]
  | .popGS => [0x0F, 0xA9]
  | .lds r m => 0xC5 :: m.encode r.toBits
  | .les r m => 0xC4 :: m.encode r.toBits
  | .lss r m => 0x0F :: 0xB2 :: m.encode r.toBits
  | .lfs r m => 0x0F :: 0xB4 :: m.encode r.toBits
  | .lgs r m => 0x0F :: 0xB5 :: m.encode r.toBits
  | .callPtr off sel => 0x9A :: (off.encode ++ put16 sel)
  | .callMem m => 0xFF :: m.encode 3
  | .jmpPtr off sel => 0xEA :: (off.encode ++ put16 sel)
  | .jmpMem m => 0xFF :: m.encode 5
  | .retFar => [0xCB]
  | .retFarImm v => 0xCA :: put16 v
  | .sysenter => [0x0F, 0x34]
  | .sysexit => [0x0F, 0x35]
  | .iret => [0xCF]
  | .intN n => [0xCD, n]
  | .into => [0xCE]
  | .int3 => [0xCC]
  | .sgdt m => 0x0F :: 0x01 :: m.encode 0
  | .sidt m => 0x0F :: 0x01 :: m.encode 1
  | .sldt dst => 0x0F :: 0x00 :: dst.encode 0
  | .str dst => 0x0F :: 0x00 :: dst.encode 1
  | .lgdt m => 0x0F :: 0x01 :: m.encode 2
  | .lldt src => 0x0F :: 0x00 :: src.encode 2
  | .opSizeByte => [0x66]
  | .addrSizeByte => [0x67]
  | .segOverrideByte sr => [sr.overrideByte]

/-- How many bytes ModRM, SIB and displacement take, R106. -/
def Mem.size : Mem → Nat
  | .base _ => 1
  | .abs _ => 5
  | .base8 _ _ => 2
  | .base32 _ _ => 5
  | .sib _ _ _ => 2
  | .sibAbs _ _ _ => 6
  | .sib8 _ _ _ _ => 3
  | .sib32 _ _ _ _ => 6

def RM.size : RM → Nat
  | .reg _ => 1
  | .mem m => m.size

def PtrOff.size : PtrOff → Nat
  | .off32 _ => 4
  | .off16 _ => 2

/-- The first `n` bytes of the number `w`, bits 7:0 first. -/
def bytesOfNat : Nat → Nat → List Byte
  | 0, _ => []
  | n + 1, w => BitVec.ofNat 8 w :: bytesOfNat n (w / 256)

/-- The instruction the decoder reads where the sizes are 32 and the bytes are those of `w`, zeros
above bit `nbits`. -/
def decodeTableWord (nbits w : Nat) : Option Instr :=
  match decode true true (bytesOfNat Config.maxInstrBytes (w % 2 ^ nbits)) with
  | .ok (i, _) => some i
  | .error _ => none

end Sys2Proof
end

