-- ==== Sys2Proof/Machine/State.lean ====
section
/-! DEFINITION. The state of spec/10_state.md, the ways a step can stop (spec/70_reset_and_hazards.md R213), and the state a run starts from. -/

namespace Sys2Proof.Machine

/-- The access information of a descriptor, R12 and R50. -/
structure Attr where
  type : BitVec 4
  s : Bool
  dpl : BitVec 2
  p : Bool
  avl : Bool
  l : Bool
  db : Bool
  g : Bool
deriving DecidableEq, Repr

/-- A segment register or LDTR: the visible selector and the hidden copy of a descriptor, R12, R18. -/
structure SegReg where
  sel : Sel
  base : Word
  limit : BitVec 20
  attr : Attr
deriving DecidableEq, Repr

/-- GDTR or IDTR, R17, R19. -/
structure TableReg where
  base : Word
  limit : BitVec 16
deriving DecidableEq, Repr

/-- The general registers, R22. -/
structure Gprs where
  eax : Word
  ecx : Word
  edx : Word
  ebx : Word
  esp : Word
  ebp : Word
  esi : Word
  edi : Word
deriving DecidableEq, Repr

/-- The six segment registers, R10. -/
structure SegFile where
  cs : SegReg
  ss : SegReg
  ds : SegReg
  es : SegReg
  fs : SegReg
  gs : SegReg
deriving DecidableEq, Repr

/-- What `PhysMap` says of a physical address, R28. -/
inductive MemKind where
  | ram | rom | absent
deriving DecidableEq, Repr

/-- The addresses `base` to `base + size - 1` of the physical map. -/
structure Region where
  base : Nat
  size : Nat
  kind : MemKind
deriving DecidableEq, Repr

/-- The exception for a load of SS from a descriptor with P = 0, R5, D17. -/
inductive SsNotPresent where
  | np | ss
deriving DecidableEq, Repr

/-- The open parameters of R5, given with the launch state and changed by no step (R31; log 5). -/
structure Params where
  pagingEnabled : Bool
  physBits : Nat
  physMap : List Region
  ssNotPresent : SsNotPresent
  endAddr : Word
deriving DecidableEq, Repr

/-- The prefix bytes read so far of the instruction being executed, R101 to R104. The model's own
field, empty between steps (log 14). -/
structure PfxLatch where
  opSize : Bool
  addrSize : Bool
  seg : Option SReg
  count : Nat
deriving DecidableEq, Repr

def PfxLatch.empty : PfxLatch := ⟨false, false, none, 0⟩

/-- Memory as (physical address, byte) pairs, R28; `Memory.wf` is its canonical form. -/
abbrev Memory := List Host.Cell

/-- The machine. `clock` is the model's own counter, by which free values are drawn (log 9). -/
structure State where
  regs : Gprs
  pc : Word
  segs : SegFile
  gdtr : TableReg
  ldtr : SegReg
  idtr : TableReg
  trSel : Sel
  cpl : BitVec 2
  mem : Memory
  params : Params
  pfx : PfxLatch
  clock : Nat
deriving DecidableEq, Repr

/-- The exceptions the model raises, R170. -/
inductive Exc where
  | gp | ss | np | pf
deriving DecidableEq, Repr

/-- The `info` of `raise #XX(info)`, R170: 0, the selector being loaded, or the linear address of a
page fault (R174). -/
inductive ExcInfo where
  | zero
  | selector (sel : Sel)
  | linear (la : Word)
deriving DecidableEq, Repr

/-- How a step can end the run. -/
inductive Fault where
  /-- An exception with its information and the pc of the instruction, R179. Raised by `raise` alone. Safe: the
  spec makes it the end of the run (D4). -/
  | exception (e : Exc) (info : ExcInfo) (pc : Word)
  /-- The processor makes no further step after an accessed-bit write to ROM or absent memory, R72, or a store by software onto a
  descriptor in ROM, R206. Raised by `accessedBitWrite` and `storeBySoftware` where the free choice is to hang. Safe (log 8, log 31). -/
  | hang
deriving DecidableEq, Repr

/-- Why a step has no meaning. -/
inductive Refusal where
  /-- An arm of `exec` without a meaning; no arm answers it. Safe. -/
  | notModelled (mnemonic : String)
  /-- The bytes at the pc are no instruction of the table, R109, R103, R166. Raised by the fetch. Safe. -/
  | undecodable (why : DecodeError)
  /-- Decoding in a code segment with D = 0, R105. Raised by the fetch. Safe. -/
  | codeSegment16
  /-- More than 15 bytes without a complete instruction, R101. Raised by the fetch. Safe (log 19). -/
  | overlong
  /-- A far transfer to a descriptor with S = 0, R71, R140. Raised by `checkCS`. Safe. -/
  | gateOrSystemDescriptor
  /-- An execute access through a register other than CS, R75. Raised by `segAccess`. Safe. -/
  | fetchNotThroughCS
  /-- RET far, R143. Safe. -/
  | retFarNotInSource
  /-- SYSENTER, R144. Safe. -/
  | sysenterNotInSource
  /-- SYSEXIT, R145. Safe. -/
  | sysexitNotInSource
  /-- IRET, R146. Safe. -/
  | iretNotInSource
  /-- INT n, R147. Safe. -/
  | intNNotInSource
  /-- INTO, R148. Safe. -/
  | intoNotInSource
  /-- INT3, R149. Safe. -/
  | int3NotInSource
deriving DecidableEq, Repr

/-- Why an operation gives no value: the step stops. -/
inductive Stop where
  | fault (f : Fault)
  | refused (r : Refusal)
deriving DecidableEq, Repr

/-- The result of an operation on a fixed state. Operations compute everything they check and read
before anything is written, so a stop leaves nothing behind (D28). -/
abbrev Res (α : Type) := Except Stop α

/-- A present data segment, read/write and accessed, DPL 0. -/
def Attr.resetData (db : Bool) : Attr := ⟨3, true, 0, true, false, false, db, false⟩

/-- The state a run starts from: a launch state (R202, R203) with the two reset facts of R200, `DS.base` = 0 and
`CS.base + pc` = FFFF_FFF0H, and otherwise the family's values of R30. (log 1, log 2, log 4): unsafe. -/
def State.reset : State where
  regs := ⟨0, 0, 0, 0, 0, 0, 0, 0⟩
  pc := 0x0000FFF0
  segs :=
    { cs := ⟨0xF000, 0xFFFF0000, 0x0FFFF, ⟨11, true, 0, true, false, false, true, false⟩⟩
      ss := ⟨0x0010, 0, 0x0FFFF, Attr.resetData true⟩
      ds := ⟨0x0010, 0, 0x0FFFF, Attr.resetData true⟩
      es := ⟨0, 0, 0x0FFFF, Attr.resetData false⟩
      fs := ⟨0, 0, 0x0FFFF, Attr.resetData false⟩
      gs := ⟨0, 0, 0x0FFFF, Attr.resetData false⟩ }
  gdtr := ⟨0, 0xFFFF⟩
  ldtr := ⟨0, 0, 0x0FFFF, ⟨2, false, 0, true, false, false, false, false⟩⟩
  idtr := ⟨0, 0xFFFF⟩
  trSel := 0
  cpl := 0
  mem := []
  params := ⟨false, 32, [⟨0, 0x100000000, .ram⟩], .np, 0⟩
  pfx := PfxLatch.empty
  clock := 0

end Sys2Proof.Machine
end

