-- ==== Sys2Proof/Machine/Descriptor.lean ====
section
/-! DEFINITION. The fields of a selector and of a segment descriptor, and what the type codes mean
(spec/10_state.md R14, R15, spec/20_memory.md R50 to R69, R73, R74). -/

namespace Sys2Proof.Machine

/-- `sel[15:3]`, R14. -/
def selIndex (sel : Sel) : BitVec 13 := sel.extractLsb' 3 13
/-- `sel[2]`, true for the LDT, R14. -/
def selTI (sel : Sel) : Bool := sel.getLsbD 2
/-- `sel[1:0]`, R14. -/
def selRPL (sel : Sel) : BitVec 2 := sel.extractLsb' 0 2
/-- `sel[15:2] = 0`, R15. -/
def isNull (sel : Sel) : Bool := sel.extractLsb' 2 14 == 0

/-- `limit20(d)`, R50. -/
def descLimit (d : BitVec 64) : BitVec 20 := d.extractLsb' 48 4 ++ d.extractLsb' 0 16
/-- `base32(d)`, R50. -/
def descBase (d : BitVec 64) : Word := d.extractLsb' 56 8 ++ d.extractLsb' 16 24
/-- The access information, R50. -/
def descAttr (d : BitVec 64) : Attr where
  type := d.extractLsb' 40 4
  s := d.getLsbD 44
  dpl := d.extractLsb' 45 2
  p := d.getLsbD 47
  avl := d.getLsbD 52
  l := d.getLsbD 53
  db := d.getLsbD 54
  g := d.getLsbD 55

/-- `d[47:40] | 01H`, the access byte with the accessed bit set, R64. -/
def accessedByte (d : BitVec 64) : Byte := d.extractLsb' 40 8 ||| 1

/-- A register loaded with selector `sel` from descriptor `d`, R70 step 9. -/
def segFrom (sel : Sel) (d : BitVec 64) : SegReg := ⟨sel, descBase d, descLimit d, descAttr d⟩

/-- The type's bits in code and data descriptors, R62. -/
def Attr.isCode (a : Attr) : Bool := a.type.getLsbD 3
/-- Data: E. -/
def Attr.expandDown (a : Attr) : Bool := a.type.getLsbD 2
/-- Code: C. -/
def Attr.conforming (a : Attr) : Bool := a.type.getLsbD 2
/-- Data: W. -/
def Attr.writable (a : Attr) : Bool := a.type.getLsbD 1
/-- Code: R. -/
def Attr.readable (a : Attr) : Bool := a.type.getLsbD 1
/-- A, R64. -/
def Attr.accessed (a : Attr) : Bool := a.type.getLsbD 0

/-- `type[0] <- 1`, R70 step 8. -/
def SegReg.setAccessed (r : SegReg) : SegReg := { r with attr := { r.attr with type := r.attr.type ||| 1 } }

/-- `EffLimit`, R61. -/
def effLimit (limit : BitVec 20) (g : Bool) : Word :=
  if g then (limit.zeroExtend 32 <<< 12) ||| 0xFFF else limit.zeroExtend 32

/-- The `n` bytes from offset `off` are at valid offsets of the segment, R73, R74, R75 step 3. The last
offset is not truncated (D9). -/
def offsetsValid (r : SegReg) (off : Word) (n : Nat) : Bool :=
  let last := off.toNat + n - 1
  let el := (effLimit r.limit r.attr.g).toNat
  if r.attr.isCode || !r.attr.expandDown then decide (last ≤ el)
  else decide (el < off.toNat) && decide (last ≤ if r.attr.db then 0xFFFFFFFF else 0xFFFF)

/-- The type allows an access of kind `k`, R75 step 2. -/
def typeAllows (k : Access) (a : Attr) : Bool :=
  match k with
  | .write => !a.isCode && a.writable
  | .read => !a.isCode || a.readable
  | .execute => true

/-- The type checks of `LoadSegReg`, R70 step 5. -/
def loadTypeOk (sr : SReg) (a : Attr) : Bool :=
  a.s && if sr = .ss then !a.isCode && a.writable else !a.isCode || a.readable

/-- The privilege checks of `LoadSegReg`, R70 step 6. -/
def loadPrivOk (cpl : BitVec 2) (sr : SReg) (sel : Sel) (a : Attr) : Bool :=
  if sr = .ss then selRPL sel == cpl && a.dpl == cpl
  else a.isCode && a.conforming || decide (max cpl.toNat (selRPL sel).toNat ≤ a.dpl.toNat)

/-- The privilege checks of `LoadCS`, R71 step 5. -/
def csPrivOk (cpl : BitVec 2) (sel : Sel) (a : Attr) : Bool :=
  if a.conforming then decide (a.dpl.toNat ≤ cpl.toNat)
  else a.dpl == cpl && decide ((selRPL sel).toNat ≤ cpl.toNat)

/-- An LDT descriptor: S = 0 and type 2, R48, R69. -/
def Attr.isLdt (a : Attr) : Bool := !a.s && a.type == 2

end Sys2Proof.Machine
end

