-- ==== Sys2Proof/Machine/Memory.lean ====
section
/-! DEFINITION. Memory in its canonical form, the physical map, and byte order (spec/10_state.md R28, spec/20_memory.md R40). -/

namespace Sys2Proof.Machine

/-- What an address holds that is not listed. DESIGN CHOICE (log 3): unsafe. -/
def unlistedByte : Byte := 0

/-- The canonical form: addresses strictly rising, and no entry equal to what an unlisted address reads as. -/
abbrev Memory.wf (m : Memory) : Prop :=
  (m.map Prod.fst).Pairwise (· < ·) ∧ ∀ c ∈ m, c.2 ≠ unlistedByte

/-- One byte of memory. -/
def Memory.read : Memory → Nat → Byte
  | [], _ => unlistedByte
  | (k, v) :: m, a => if k = a then v else Memory.read m a

/-- The list without the entries of address `a`. -/
def Memory.erase (m : Memory) (a : Nat) : Memory := m.filter fun c => c.1 != a

/-- The list with `(a, b)` before the first larger address. -/
def Memory.insert : Memory → Nat → Byte → Memory
  | [], a, b => [(a, b)]
  | (k, v) :: m, a, b => if a < k then (a, b) :: (k, v) :: m else (k, v) :: Memory.insert m a b

/-- Writes one byte, keeping the canonical form. -/
def Memory.write (m : Memory) (a : Nat) (b : Byte) : Memory :=
  if b = unlistedByte then m.erase a else (m.erase a).insert a b

/-- What the physical map says of an address: the first region that holds it, or absent, R28. -/
def physClassIn : List Region → Nat → MemKind
  | [], _ => .absent
  | r :: rs, a => if r.base ≤ a ∧ a < r.base + r.size then r.kind else physClassIn rs a

def Params.physClass (p : Params) (a : Nat) : MemKind := physClassIn p.physMap a

/-- The byte writes `ws` in order; a write to ROM or absent memory is dropped, R28, R82. -/
def storeMem (p : Params) : Memory → List (Nat × Byte) → Memory
  | m, [] => m
  | m, (a, b) :: ws => storeMem p (if p.physClass a = .ram then m.write a b else m) ws

/-- The number whose bits 7:0 are the first byte, R40. -/
def leNat : List Byte → Nat
  | [] => 0
  | b :: bs => b.toNat + 256 * leNat bs

def le16 (bs : List Byte) : BitVec 16 := BitVec.ofNat 16 (leNat bs)
def le32 (bs : List Byte) : Word := BitVec.ofNat 32 (leNat bs)
def le64 (bs : List Byte) : BitVec 64 := BitVec.ofNat 64 (leNat bs)

end Sys2Proof.Machine
end

