-- ==== Sys2Proof/Machine/Ops.lean ====
section
/-! DEFINITION. The procedures every instruction calls: raising an exception, the updates of the state, address translation,
`SegAccess`, `DescAddr`, `LoadSegReg`, `LoadCS` (spec/20_memory.md R49, R70, R71, R75, R82; spec/60_exceptions.md R179). -/

namespace Sys2Proof.Machine

/-! ## Taking an exception -/

/-- `raise #XX(info)`: the one way an exception is taken. The spec gives it no handler, no saved state and no
return: the run ends in a fault that names the exception, its information and the pc of the instruction, and the
state is that before the instruction (R179, D4, D28). The return, IRET, is refused (R146, R180). -/
def raise {α : Type} (s : State) (e : Exc) (info : ExcInfo) : Res α :=
  .error (.fault (.exception e info s.pc))

/-- One check of a rule: `if c: raise #XX(info)`. -/
def raiseIf (s : State) (c : Bool) (e : Exc) (info : ExcInfo) : Res Unit :=
  if c then raise s e info else .ok ()

/-- One check of a rule: `if c: refuse(why)`. -/
def refuseIf (c : Bool) (why : Refusal) : Res Unit :=
  if c then .error (.refused why) else .ok ()

/-- The outcome of a step from the result of an instruction. -/
def outcome : Res State → Host.Outcome State Fault Refusal
  | .ok s => .next s
  | .error (.fault f) => .fault f
  | .error (.refused r) => .refused r

/-! ## Registers -/

def Gprs.get (g : Gprs) : Reg → Word
  | .eax => g.eax | .ecx => g.ecx | .edx => g.edx | .ebx => g.ebx
  | .esp => g.esp | .ebp => g.ebp | .esi => g.esi | .edi => g.edi

def Gprs.set (g : Gprs) (r : Reg) (v : Word) : Gprs :=
  match r with
  | .eax => { g with eax := v } | .ecx => { g with ecx := v } | .edx => { g with edx := v } | .ebx => { g with ebx := v }
  | .esp => { g with esp := v } | .ebp => { g with ebp := v } | .esi => { g with esi := v } | .edi => { g with edi := v }

def SegFile.get (f : SegFile) : SReg → SegReg
  | .cs => f.cs | .ss => f.ss | .ds => f.ds | .es => f.es | .fs => f.fs | .gs => f.gs

def SegFile.set (f : SegFile) (sr : SReg) (v : SegReg) : SegFile :=
  match sr with
  | .cs => { f with cs := v } | .ss => { f with ss := v } | .ds => { f with ds := v }
  | .es => { f with es := v } | .fs => { f with fs := v } | .gs => { f with gs := v }

def State.seg (s : State) (sr : SReg) : SegReg := s.segs.get sr
def State.reg (s : State) (r : Reg) : Word := s.regs.get r
def State.reg16 (s : State) (r : Reg) : BitVec 16 := (s.reg r).extractLsb' 0 16

def State.setReg (s : State) (r : Reg) (v : Word) : State := { s with regs := s.regs.set r v }
/-- Writes the low 16 bits and keeps the upper half. -/
def State.setReg16 (s : State) (r : Reg) (v : BitVec 16) : State :=
  s.setReg r ((s.reg r).extractLsb' 16 16 ++ v)
def State.setSeg (s : State) (sr : SReg) (v : SegReg) : State := { s with segs := s.segs.set sr v }
def State.setGdtr (s : State) (v : TableReg) : State := { s with gdtr := v }
def State.setLdtr (s : State) (v : SegReg) : State := { s with ldtr := v }
def State.store (s : State) (ws : List (Nat × Byte)) : State := { s with mem := storeMem s.params s.mem ws }

/-- The end of an instruction: the pc is `target`, the prefix bytes are used up, the free values of the next
instruction are other ones. -/
def State.finishAt (s : State) (target : Word) : State :=
  { s with pc := target, pfx := PfxLatch.empty, clock := s.clock + 1 }

/-- The offset after the instruction: `pc + len`, the prefix bytes counted in `len`, R24. The wrap-around of the pc is not in the spec but for
the return offset of CALL (R141); here it is modulo 2^32. DESIGN CHOICE (log 28): unsafe. -/
def State.nextPc (s : State) (len : Nat) : Word := s.pc + BitVec.ofNat 32 (s.pfx.count + len)

/-- `pc <- pc + len`, where `len` counts the bytes after the prefix bytes. -/
def State.advance (s : State) (len : Nat) : State := s.finishAt (s.nextPc len)

/-- `StackPtr()`, R23. -/
def State.stackPtr (s : State) : Word :=
  if s.segs.ss.attr.db then s.regs.esp else (s.reg16 .esp).zeroExtend 32

/-- `sp + d` within the stack pointer's width, which the B flag of SS gives, R23, R122, R141. -/
def State.stackAdd (s : State) (sp d : Word) : Word :=
  if s.segs.ss.attr.db then sp + d else (sp + d) &&& 0xFFFF

/-- Writes the stack pointer: ESP if `big`, else SP, R122, R141. -/
def State.setStackPtr (s : State) (big : Bool) (sp : Word) : State :=
  if big then s.setReg .esp sp else s.setReg16 .esp (sp.extractLsb' 0 16)

/-- `OpSize = 32`, R102. -/
def State.op32 (s : State) : Bool := xor s.segs.cs.attr.db s.pfx.opSize

/-- `AddrSize = 32`, R103. -/
def State.addr32 (s : State) : Bool := xor s.segs.cs.attr.db s.pfx.addrSize

/-! ## Linear addresses -/

/-- `Phys(la, k)`, R82; the walk's address is taken within PHYS_BITS. -/
def translate (s : State) (la : Word) (k : Access) : Res Nat :=
  if s.params.pagingEnabled then
    match Config.pageWalk s.mem la k s.cpl with
    | some pa => .ok (pa % 2 ^ s.params.physBits)
    | none => raise s .pf (.linear la)
  else .ok la.toNat

/-- The physical addresses of the `n` bytes at `la`, each linear address modulo 2^32, R82. -/
def walk (s : State) (la : Word) (k : Access) : Nat → Res (List Nat)
  | 0 => .ok []
  | n + 1 => do
    let pa ← translate s la k
    let ps ← walk s (la + 1) k n
    .ok (pa :: ps)

/-- Byte `i` of an access, at physical address `pa`: memory, or a draw where there is none, R28. -/
def State.byteAt (s : State) (tag : DrawTag) (i pa : Nat) : Byte :=
  if s.params.physClass pa = .absent then Config.draw 8 s.clock (.absentByte tag i) else s.mem.read pa

def State.bytesAt (s : State) (tag : DrawTag) : Nat → List Nat → List Byte
  | _, [] => []
  | i, pa :: ps => s.byteAt tag i pa :: s.bytesAt tag (i + 1) ps

/-- `MemRead`, R82: the bytes, lowest address first. -/
def memRead (s : State) (tag : DrawTag) (la : Word) (n : Nat) : Res (List Byte) := do
  let ps ← walk s la .read n
  .ok (s.bytesAt tag 0 ps)

/-- `MemWrite`, R82: the physical byte writes it makes. `State.store` makes them, after every check of the
instruction (D28). -/
def memWrite (s : State) (la : Word) (bs : List Byte) : Res (List (Nat × Byte)) := do
  let ps ← walk s la .write bs.length
  .ok (ps.zip bs)

/-! ## Logical addresses -/

/-- The exception of a limit violation: #SS through SS, else #GP, R73. -/
def limitExc (sr : SReg) : Exc := if sr = .ss then .ss else .gp

/-- `SegAccess(SR, off, n, k)`, R75. -/
def segAccess (s : State) (sr : SReg) (off : Word) (n : Nat) (k : Access) : Res Word := do
  raiseIf s (isNull (s.seg sr).sel) .gp .zero
  refuseIf (k == .execute && sr != .cs) .fetchNotThroughCS
  raiseIf s (!typeAllows k (s.seg sr).attr) .gp .zero
  raiseIf s (!offsetsValid (s.seg sr) off n) (limitExc sr) .zero
  .ok ((s.seg sr).base + off)

/-- `SegRead(SR, off, n)`, R7. -/
def segRead (s : State) (tag : DrawTag) (sr : SReg) (off : Word) (n : Nat) : Res (List Byte) := do
  let la ← segAccess s sr off n .read
  memRead s tag la n

/-- `SegWrite(SR, off, n, v)`, R7, with `v` as its bytes. -/
def segWrite (s : State) (sr : SReg) (off : Word) (bs : List Byte) : Res (List (Nat × Byte)) := do
  let la ← segAccess s sr off bs.length .write
  memWrite s la bs

/-! ## Descriptors -/

/-- `Index * 8`, R49. -/
def selOffset (sel : Sel) : Word := (selIndex sel).zeroExtend 32 * 8

/-- `DescAddr(sel)`, R49. -/
def descAddr (s : State) (sel : Sel) : Res Word :=
  if selTI sel then do
    raiseIf s (isNull s.ldtr.sel) .gp (.selector sel)
    raiseIf s (decide ((effLimit s.ldtr.limit s.ldtr.attr.g).toNat < (selOffset sel).toNat + 7)) .gp (.selector sel)
    .ok (s.ldtr.base + selOffset sel)
  else do
    raiseIf s (decide (s.gdtr.limit.toNat < (selOffset sel).toNat + 7)) .gp (.selector sel)
    .ok (s.gdtr.base + selOffset sel)

/-- The descriptor at linear address `a`: one 8-byte read, R43 (a). -/
def readDesc (s : State) (a : Word) : Res (BitVec 64) := do
  let bs ← memRead s .descriptor a 8
  .ok (le64 bs)

/-- The descriptor tables, each as its linear base and its size in bytes: the GDT (R46), the LDT in LDTR (R18, R48), and the LDTs whose
descriptors the GDT holds (R48). -/
def State.descTables (s : State) : List (Word × Nat) :=
  (s.gdtr.base, s.gdtr.limit.toNat + 1) ::
    ((if isNull s.ldtr.sel then [] else [(s.ldtr.base, (effLimit s.ldtr.limit s.ldtr.attr.g).toNat + 1)]) ++
      (List.range ((s.gdtr.limit.toNat + 1) / 8)).filterMap fun k =>
        match readDesc s (s.gdtr.base + BitVec.ofNat 32 (8 * k)) with
        | .ok d => if (descAttr d).isLdt then some (descBase d, (effLimit (descLimit d) (descAttr d).g).toNat + 1) else none
        | .error _ => none)

/-- Physical address `pa` lies in ROM and holds a byte of a whole descriptor of one of the tables, R206 (log 31). -/
def State.romDescriptor (s : State) (pa : Nat) : Bool :=
  s.params.physClass pa == .rom && s.descTables.any fun t =>
    (List.range (t.2 / 8 * 8)).any fun i =>
      match translate s (t.1 + BitVec.ofNat 32 i) .read with
      | .ok q => q == pa
      | .error _ => false

/-- The byte writes `ws` that an instruction makes for software, after all its checks. Where one falls on a descriptor in ROM the processor
hangs or completes without that byte, by a free choice, R206 and U1 (log 31). -/
def storeBySoftware (s : State) (ws : List (Nat × Byte)) : Res State :=
  if ws.any (fun w => s.romDescriptor w.1) && Config.draw 1 s.clock .romHang == 1 then .error (.fault .hang)
  else .ok (s.store ws)

/-- The write of the accessed bit for the descriptor `d` at `a`: none where A is set, else byte 5 with bit 0 set,
R64. On an address that is not RAM the processor hangs or completes without the write, by a free choice, R72. -/
def accessedBitWrite (s : State) (a : Word) (d : BitVec 64) : Res (List (Nat × Byte)) :=
  if (descAttr d).accessed then .ok []
  else do
    let pa ← translate s (a + 5) .write
    if s.params.physClass pa != .ram && Config.draw 1 s.clock .romHang == 1 then .error (.fault .hang)
    else .ok [(pa, accessedByte d)]

/-- What a load of a segment register writes: the register, and the accessed bit in memory. -/
structure SegLoad where
  seg : SegReg
  writes : List (Nat × Byte)
deriving DecidableEq, Repr

def State.applyLoad (s : State) (sr : SReg) (ld : SegLoad) : State := (s.store ld.writes).setSeg sr ld.seg

/-- A register after a null selector is loaded: the hidden part is unspecified, R15, R165. -/
def nullLoaded (s : State) (sel : Sel) : SegReg := segFrom sel (Config.draw 64 s.clock .hiddenPart)

/-- The exception for P = 0, R70 step 7. -/
def notPresentExc (s : State) (sr : SReg) : Exc :=
  if sr = .ss then (match s.params.ssNotPresent with | .np => .np | .ss => .ss) else .np

/-- `LoadSegReg(SR, sel)`, R70. -/
def loadSegReg (s : State) (sr : SReg) (sel : Sel) : Res SegLoad :=
  if isNull sel then do
    raiseIf s (sr == .ss) .gp .zero
    .ok ⟨nullLoaded s sel, []⟩
  else do
    let a ← descAddr s sel
    let d ← readDesc s a
    raiseIf s (!loadTypeOk sr (descAttr d)) .gp (.selector sel)
    raiseIf s (!loadPrivOk s.cpl sr sel (descAttr d)) .gp (.selector sel)
    raiseIf s (!(descAttr d).p) (notPresentExc s sr) (.selector sel)
    let ws ← accessedBitWrite s a d
    .ok ⟨(segFrom sel d).setAccessed, ws⟩

/-- A code-segment descriptor that has passed the checks of `LoadCS`, and where it lies. -/
structure CsTarget where
  addr : Word
  desc : BitVec 64
deriving DecidableEq, Repr

/-- Steps 1 to 6 of `LoadCS`, R71: all checks, no write. -/
def checkCS (s : State) (sel : Sel) : Res CsTarget := do
  raiseIf s (isNull sel) .gp .zero
  let a ← descAddr s sel
  let d ← readDesc s a
  refuseIf (!(descAttr d).s) .gateOrSystemDescriptor
  raiseIf s (!(descAttr d).isCode) .gp (.selector sel)
  raiseIf s (!csPrivOk s.cpl sel (descAttr d)) .gp (.selector sel)
  raiseIf s (!(descAttr d).p) .np (.selector sel)
  .ok ⟨a, d⟩

/-- `sel[15:2] ++ CPL`, R71 step 8. -/
def selWithRPL (sel : Sel) (cpl : BitVec 2) : Sel := sel.extractLsb' 2 14 ++ cpl

/-- Steps 7 and 8 of `LoadCS`, R71. -/
def loadCS (s : State) (sel : Sel) (t : CsTarget) : Res SegLoad := do
  let ws ← accessedBitWrite s t.addr t.desc
  .ok ⟨(segFrom (selWithRPL sel s.cpl) t.desc).setAccessed, ws⟩

/-- What a push writes: the stack pointer after it, and the bytes. -/
structure Push where
  sp : Word
  writes : List (Nat × Byte)
deriving DecidableEq, Repr

/-- `push32(v)` where the stack pointer is `sp`, R141. -/
def push32 (s : State) (sp v : Word) : Res Push := do
  let ws ← segWrite s .ss (s.stackAdd sp (-4)) (put32 v)
  .ok ⟨s.stackAdd sp (-4), ws⟩

end Sys2Proof.Machine
end

