-- ==== Sys2Proof/Machine/Operands.lean ====
section
/-! DEFINITION. Every operand form: effective addresses, 16-bit register-or-memory operands, far pointers,
pseudo-descriptors (spec/30_encoding.md R102 to R107). The spec gives no flag, so there is no Flags.lean (R25). -/

namespace Sys2Proof.Machine

/-- The SIB form `B + (I << scale)`, with `I` = 0 for index 100, R106. -/
def scaledIndex (s : State) (scale : BitVec 2) (index : Reg) : Word :=
  if index = .esp then 0 else s.reg index <<< scale.toNat

/-- The effective address of a memory operand, R106. -/
def effAddr (s : State) : Mem → Word
  | .base r => s.reg r
  | .abs d => d
  | .base8 r d => s.reg r + d.signExtend 32
  | .base32 r d => s.reg r + d
  | .sib sc x b => s.reg b + scaledIndex s sc x
  | .sibAbs sc x d => d + scaledIndex s sc x
  | .sib8 sc x b d => s.reg b + scaledIndex s sc x + d.signExtend 32
  | .sib32 sc x b d => s.reg b + scaledIndex s sc x + d

/-- SS for a base register ESP or EBP, else DS, R106. -/
def baseSeg (b : Reg) : SReg := if b = .esp ∨ b = .ebp then .ss else .ds

/-- `DefSeg`, R106. -/
def defSeg : Mem → SReg
  | .base _ => .ds
  | .abs _ => .ds
  | .base8 r _ => baseSeg r
  | .base32 r _ => baseSeg r
  | .sib _ _ b => baseSeg b
  | .sibAbs _ _ _ => .ds
  | .sib8 _ _ b _ => baseSeg b
  | .sib32 _ _ b _ => baseSeg b

/-- The segment register of a memory operand: an override replaces the default, R104, R106. -/
def operandSeg (s : State) (m : Mem) : SReg := s.pfx.seg.getD (defSeg m)

/-- A 16-bit source: the low half of a register, or two bytes of memory, R120, R165. -/
def readRM16 (s : State) : RM → Res (BitVec 16)
  | .reg r => .ok (s.reg16 r)
  | .mem m => do
    let bs ← segRead s .operand (operandSeg s m) (effAddr s m) 2
    .ok (le16 bs)

/-- A register that receives a selector: the low half only with OpSize 16, else with a free upper half, R121. -/
def State.setRegSel (s : State) (r : Reg) (v : Sel) : State :=
  if s.op32 then s.setReg r (Config.draw 16 s.clock .upperHalf ++ v) else s.setReg16 r v

/-- The destination of MOV r/m16, SLDT and STR: a register, or two bytes of memory, R121, R162. -/
def storeRM16 (s : State) (dst : RM) (v : Sel) : Res State :=
  match dst with
  | .reg r => .ok (s.setRegSel r v)
  | .mem m => do
    let ws ← segWrite s (operandSeg s m) (effAddr s m) (put16 v)
    storeBySoftware s ws

/-- A far pointer; `off` is zero-extended where it has 16 bits. -/
structure FarPtr where
  off : Word
  sel : Sel
deriving DecidableEq, Repr

/-- `OpSize / 8`. -/
def State.opBytes (s : State) : Nat := if s.op32 then 4 else 2

/-- The far pointer at a memory operand: the offset, then the selector, R107, R123. -/
def readFarPtr (s : State) (m : Mem) : Res FarPtr := do
  let off ← segRead s .operand (operandSeg s m) (effAddr s m) s.opBytes
  let sel ← segRead s .selector (operandSeg s m) (effAddr s m + BitVec.ofNat 32 s.opBytes) 2
  .ok ⟨le32 off, le16 sel⟩

/-- The offset of an in-line far pointer, zero-extended where it has 16 bits (log 17). -/
def ptrOffset : PtrOff → Word
  | .off32 v => v
  | .off16 v => v.zeroExtend 32

/-- Writes the offset half of a far pointer: the whole register with OpSize 32, else its low half, R123. -/
def State.setRegOff (s : State) (r : Reg) (off : Word) : State :=
  if s.op32 then s.setReg r off else s.setReg16 r (off.extractLsb' 0 16)

/-- The six bytes of a pseudo-descriptor: the limit word, then the base doubleword, R160. -/
def pseudoDesc (t : TableReg) : List Byte := put16 t.limit ++ put32 t.base

/-- Stores a pseudo-descriptor: the limit is checked for all six bytes before either store, R160. -/
def storeTableReg (s : State) (m : Mem) (t : TableReg) : Res State := do
  let ws ← segWrite s (operandSeg s m) (effAddr s m) (pseudoDesc t)
  storeBySoftware s ws

/-- Reads a pseudo-descriptor, R164: the limit word, then the base doubleword, the first fault in that order (R178). Its exceptions are those
of a 6-byte read, so all six offsets are checked before the second read; that tells only where EA + 2 wraps (log 18). -/
def readTableReg (s : State) (m : Mem) : Res TableReg := do
  let limit ← segRead s .operand (operandSeg s m) (effAddr s m) 2
  let _ ← segAccess s (operandSeg s m) (effAddr s m) 6 .read
  let base ← segRead s .tableBase (operandSeg s m) (effAddr s m + 2) 4
  .ok ⟨le32 base, le16 limit⟩

end Sys2Proof.Machine
end

