-- ==== Sys2Proof/Machine/FarTransfers.lean ====
section
/-! DEFINITION. Instructions that load CS implicitly (spec/41_far_transfer_implicit_load.md). -/

namespace Sys2Proof.Machine

/-- A far CALL to `p` by an instruction of `len` bytes after its prefix bytes, R141: the checks of `LoadCS`, the two
pushes, then the accessed bit, CS and the pc. A hang of a push comes after every check (D28). -/
def callFar (s : State) (p : FarPtr) (len : Nat) : Res State := do
  let t ← checkCS s p.sel
  let cs ← push32 s s.stackPtr ((s.seg .cs).sel.zeroExtend 32)
  let ret ← push32 s cs.sp (s.nextPc len)
  let ld ← loadCS s p.sel t
  let u ← storeBySoftware s (cs.writes ++ ret.writes)
  .ok (((u.applyLoad .cs ld).setStackPtr s.segs.ss.attr.db ret.sp).finishAt p.off)

/-- A far JMP to `p`, R142. -/
def jmpFar (s : State) (p : FarPtr) : Res State := do
  let t ← checkCS s p.sel
  let ld ← loadCS s p.sel t
  .ok ((s.applyLoad .cs ld).finishAt p.off)

/-- CALL ptr16:32, R141. -/
def execCallPtr (off : PtrOff) (sel : Sel) (s : State) : Host.Outcome State Fault Refusal :=
  outcome (callFar s ⟨ptrOffset off, sel⟩ (3 + off.size))

/-- CALL m16:32, R141. -/
def execCallMem (m : Mem) (s : State) : Host.Outcome State Fault Refusal :=
  outcome do
    let p ← readFarPtr s m
    callFar s p (1 + m.size)

/-- JMP ptr16:32, R142. -/
def execJmpPtr (off : PtrOff) (sel : Sel) (s : State) : Host.Outcome State Fault Refusal :=
  outcome (jmpFar s ⟨ptrOffset off, sel⟩)

/-- JMP m16:32, R142. -/
def execJmpMem (m : Mem) (s : State) : Host.Outcome State Fault Refusal :=
  outcome do
    let p ← readFarPtr s m
    jmpFar s p

/-- RET far: `refuse(ret_far_not_in_source)`, R143. -/
def execRetFar (_ : State) : Host.Outcome State Fault Refusal := .refused .retFarNotInSource
/-- RET far imm16: `refuse(ret_far_not_in_source)`, R143. -/
def execRetFarImm (_ : BitVec 16) (_ : State) : Host.Outcome State Fault Refusal := .refused .retFarNotInSource
/-- SYSENTER: `refuse(sysenter_not_in_source)`, R144. -/
def execSysenter (_ : State) : Host.Outcome State Fault Refusal := .refused .sysenterNotInSource
/-- SYSEXIT: `refuse(sysexit_not_in_source)`, R145. -/
def execSysexit (_ : State) : Host.Outcome State Fault Refusal := .refused .sysexitNotInSource
/-- IRET: `refuse(iret_not_in_source)`, R146. -/
def execIret (_ : State) : Host.Outcome State Fault Refusal := .refused .iretNotInSource
/-- INT n: `refuse(int_n_not_in_source)`, R147. -/
def execIntN (_ : Byte) (_ : State) : Host.Outcome State Fault Refusal := .refused .intNNotInSource
/-- INTO: `refuse(into_not_in_source)`, R148. -/
def execInto (_ : State) : Host.Outcome State Fault Refusal := .refused .intoNotInSource
/-- INT3: `refuse(int3_not_in_source)`, R149. -/
def execInt3 (_ : State) : Host.Outcome State Fault Refusal := .refused .int3NotInSource

end Sys2Proof.Machine
end

