-- ==== Sys2Proof/Machine/PrefixBytes.lean ====
section
/-! DEFINITION. The prefix bytes (spec/30_encoding.md R102 to R104): each is recorded for the instruction it stands before and counts as
one byte of it; the pc moves when that instruction completes (log 14). -/

namespace Sys2Proof.Machine

/-- 66H: the operand size other than the default, R102. A second 66H changes nothing more (log 15). -/
def execOpSizeByte (s : State) : Host.Outcome State Fault Refusal :=
  outcome (.ok { s with pfx := { s.pfx with opSize := true, count := s.pfx.count + 1 } })

/-- 67H: the address size other than the default, R103. -/
def execAddrSizeByte (s : State) : Host.Outcome State Fault Refusal :=
  outcome (.ok { s with pfx := { s.pfx with addrSize := true, count := s.pfx.count + 1 } })

/-- A segment override: the memory operand goes through `sr`, R104. The last one counts (log 15). -/
def execSegOverrideByte (sr : SReg) (s : State) : Host.Outcome State Fault Refusal :=
  outcome (.ok { s with pfx := { s.pfx with seg := some sr, count := s.pfx.count + 1 } })

end Sys2Proof.Machine
end

