-- ==== Sys2Proof/Machine/SegmentRegisters.lean ====
section
/-! DEFINITION. Direct loads and stores of segment registers (spec/40_segment_register_load_store.md). -/

namespace Sys2Proof.Machine

/-- MOV Sreg, r/m16, R120. -/
def execMovToSreg (sr : SReg) (src : RM) (s : State) : Host.Outcome State Fault Refusal :=
  outcome do
    let sel ← readRM16 s src
    let ld ← loadSegReg s sr sel
    .ok ((s.applyLoad sr ld).advance (1 + src.size))

/-- MOV r/m16, Sreg, R121. -/
def execMovFromSreg (dst : RM) (sr : SReg) (s : State) : Host.Outcome State Fault Refusal :=
  outcome do
    let t ← storeRM16 s dst (s.seg sr).sel
    .ok (t.advance (1 + dst.size))

/-- POP Sreg, R122: read through the old SS, load, then advance the stack pointer that the old B flag selects. -/
def popSreg (s : State) (sr : SReg) (len : Nat) : Res State := do
  let v ← segRead s .stack .ss s.stackPtr s.opBytes
  let ld ← loadSegReg s sr (le16 (v.take 2))
  .ok (((s.applyLoad sr ld).setStackPtr s.segs.ss.attr.db (s.stackAdd s.stackPtr (BitVec.ofNat 32 s.opBytes))).advance len)

/-- POP ES, R122. -/
def execPopES (s : State) : Host.Outcome State Fault Refusal := outcome (popSreg s .es 1)
/-- POP SS, R122. -/
def execPopSS (s : State) : Host.Outcome State Fault Refusal := outcome (popSreg s .ss 1)
/-- POP DS, R122. -/
def execPopDS (s : State) : Host.Outcome State Fault Refusal := outcome (popSreg s .ds 1)
/-- POP FS, R122. -/
def execPopFS (s : State) : Host.Outcome State Fault Refusal := outcome (popSreg s .fs 2)
/-- POP GS, R122. -/
def execPopGS (s : State) : Host.Outcome State Fault Refusal := outcome (popSreg s .gs 2)

/-- The common pseudocode of R123: read the far pointer, load the segment register, then write the general register. -/
def loadFarPtr (s : State) (sr : SReg) (r : Reg) (m : Mem) (len : Nat) : Res State := do
  let p ← readFarPtr s m
  let ld ← loadSegReg s sr p.sel
  .ok (((s.applyLoad sr ld).setRegOff r p.off).advance len)

/-- LDS, R124. -/
def execLds (r : Reg) (m : Mem) (s : State) : Host.Outcome State Fault Refusal := outcome (loadFarPtr s .ds r m (1 + m.size))
/-- LES, R125. -/
def execLes (r : Reg) (m : Mem) (s : State) : Host.Outcome State Fault Refusal := outcome (loadFarPtr s .es r m (1 + m.size))
/-- LSS, R126. -/
def execLss (r : Reg) (m : Mem) (s : State) : Host.Outcome State Fault Refusal := outcome (loadFarPtr s .ss r m (2 + m.size))
/-- LFS, R127. -/
def execLfs (r : Reg) (m : Mem) (s : State) : Host.Outcome State Fault Refusal := outcome (loadFarPtr s .fs r m (2 + m.size))
/-- LGS, R128. -/
def execLgs (r : Reg) (m : Mem) (s : State) : Host.Outcome State Fault Refusal := outcome (loadFarPtr s .gs r m (2 + m.size))

end Sys2Proof.Machine
end

