-- ==== Sys2Proof/Machine/TableRegisters.lean ====
section
/-! DEFINITION. Stores and loads of the table registers (spec/42_table_register_access.md). -/

namespace Sys2Proof.Machine

/-- SGDT, R160. -/
def execSgdt (m : Mem) (s : State) : Host.Outcome State Fault Refusal :=
  outcome do
    let t ← storeTableReg s m s.gdtr
    .ok (t.advance (2 + m.size))

/-- SIDT, R161. -/
def execSidt (m : Mem) (s : State) : Host.Outcome State Fault Refusal :=
  outcome do
    let t ← storeTableReg s m s.idtr
    .ok (t.advance (2 + m.size))

/-- SLDT, R162. -/
def execSldt (dst : RM) (s : State) : Host.Outcome State Fault Refusal :=
  outcome do
    let t ← storeRM16 s dst s.ldtr.sel
    .ok (t.advance (2 + dst.size))

/-- STR, R163. -/
def execStr (dst : RM) (s : State) : Host.Outcome State Fault Refusal :=
  outcome do
    let t ← storeRM16 s dst s.trSel
    .ok (t.advance (2 + dst.size))

/-- LGDT, R164. -/
def execLgdt (m : Mem) (s : State) : Host.Outcome State Fault Refusal :=
  outcome do
    raiseIf s (s.cpl != 0) .gp .zero
    let v ← readTableReg s m
    .ok ((s.setGdtr v).advance (2 + m.size))

/-- What LLDT puts into LDTR for selector `sel`, R165: a null selector with an unspecified hidden part, or a present LDT
descriptor of the GDT. There is no accessed bit to write. -/
def loadLdtr (s : State) (sel : Sel) : Res SegReg :=
  if isNull sel then .ok (nullLoaded s sel)
  else do
    raiseIf s (selTI sel) .gp (.selector sel)
    let a ← descAddr s sel
    let d ← readDesc s a
    raiseIf s (!(descAttr d).isLdt) .gp (.selector sel)
    raiseIf s (!(descAttr d).p) .np (.selector sel)
    .ok (segFrom sel d)

/-- LLDT, R165. -/
def execLldt (src : RM) (s : State) : Host.Outcome State Fault Refusal :=
  outcome do
    raiseIf s (s.cpl != 0) .gp .zero
    let sel ← readRM16 s src
    let v ← loadLdtr s sel
    .ok ((s.setLdtr v).advance (2 + src.size))

end Sys2Proof.Machine
end

