-- ==== Sys2Proof/Machine/Dispatch.lean ====
section
/-! DEFINITION. The meaning of each instruction: one arm per constructor. -/

namespace Sys2Proof.Machine

def exec (i : Instr) (s : State) : Host.Outcome State Fault Refusal :=
  match i with
  | .movToSreg sr src => Sys2Proof.Machine.execMovToSreg sr src s
  | .movFromSreg dst sr => Sys2Proof.Machine.execMovFromSreg dst sr s
  | .popES => Sys2Proof.Machine.execPopES s
  | .popSS => Sys2Proof.Machine.execPopSS s
  | .popDS => Sys2Proof.Machine.execPopDS s
  | .popFS => Sys2Proof.Machine.execPopFS s
  | .popGS => Sys2Proof.Machine.execPopGS s
  | .lds r m => Sys2Proof.Machine.execLds r m s
  | .les r m => Sys2Proof.Machine.execLes r m s
  | .lss r m => Sys2Proof.Machine.execLss r m s
  | .lfs r m => Sys2Proof.Machine.execLfs r m s
  | .lgs r m => Sys2Proof.Machine.execLgs r m s
  | .callPtr off sel => Sys2Proof.Machine.execCallPtr off sel s
  | .callMem m => Sys2Proof.Machine.execCallMem m s
  | .jmpPtr off sel => Sys2Proof.Machine.execJmpPtr off sel s
  | .jmpMem m => Sys2Proof.Machine.execJmpMem m s
  | .retFar => Sys2Proof.Machine.execRetFar s
  | .retFarImm imm => Sys2Proof.Machine.execRetFarImm imm s
  | .sysenter => Sys2Proof.Machine.execSysenter s
  | .sysexit => Sys2Proof.Machine.execSysexit s
  | .iret => Sys2Proof.Machine.execIret s
  | .intN n => Sys2Proof.Machine.execIntN n s
  | .into => Sys2Proof.Machine.execInto s
  | .int3 => Sys2Proof.Machine.execInt3 s
  | .sgdt m => Sys2Proof.Machine.execSgdt m s
  | .sidt m => Sys2Proof.Machine.execSidt m s
  | .sldt dst => Sys2Proof.Machine.execSldt dst s
  | .str dst => Sys2Proof.Machine.execStr dst s
  | .lgdt m => Sys2Proof.Machine.execLgdt m s
  | .lldt src => Sys2Proof.Machine.execLldt src s
  | .opSizeByte => Sys2Proof.Machine.execOpSizeByte s
  | .addrSizeByte => Sys2Proof.Machine.execAddrSizeByte s
  | .segOverrideByte sr => Sys2Proof.Machine.execSegOverrideByte sr s

end Sys2Proof.Machine
end

