-- ==== Sys2Proof/Machine/Fetch.lean ====
section
/-! DEFINITION. Fetching and decoding one whole instruction, its prefix bytes included (spec/20_memory.md R77, spec/30_encoding.md R101,
spec/70_reset_and_hazards.md R213). -/

namespace Sys2Proof.Machine

/-- Byte `i` of the instruction at the pc: the limit is checked over all bytes up to it, R77, D25. What lies beyond it
in the instruction `fetchStop` checks. -/
def fetchByte (s : State) (i : Nat) : Res Byte := do
  let la ← segAccess s .cs s.pc (i + 1) .execute
  let pa ← translate s (la + BitVec.ofNat 32 i) .read
  .ok (s.byteAt .fetch i pa)

/-- The bytes from byte `i` on that can be fetched, at most `n`, and why the next one is not. -/
def fetchBytes (s : State) : Nat → Nat → List Byte × Stop
  | _, 0 => ([], .refused .overlong)
  | i, n + 1 =>
    match fetchByte s i with
    | .error e => ([], e)
    | .ok b => (b :: (fetchBytes s (i + 1) n).1, (fetchBytes s (i + 1) n).2)

/-- The bytes an instruction at the pc may have, at most 15 (R101), and why there are no more. -/
def fetchWindow (s : State) : List Byte × Stop := fetchBytes s 0 Config.maxInstrBytes

/-- Why an instruction of at least `n` bytes cannot be fetched, where the bytes read so far end in `stop`: D25 checks the limit over the whole
instruction before any byte is read, so a limit violation of a byte known to belong to it precedes the page fault of an earlier byte
(R77, R178; log 19). No instruction has more than 15 bytes (R101). -/
def fetchStop (s : State) (n : Nat) (stop : Stop) : Stop :=
  match segAccess s .cs s.pc (min n Config.maxInstrBytes) .execute with
  | .error e => e
  | .ok _ => stop

/-- The state in which an instruction begins: no prefix byte has been read. -/
def State.begin (s : State) : State := { s with pfx := PfxLatch.empty }

/-- Decodes and runs one instruction from its bytes `bs`: prefix bytes are recorded and the bytes after them decoded
with the sizes they select, up to the instruction itself. `stop` says why there is no byte after `bs`: where one is needed,
the instruction has the prefix bytes, `bs` and at least the bytes that the decoder misses. -/
def runBytes (ex : Instr → State → Host.Outcome State Fault Refusal) (stop : Stop) :
    Nat → List Byte → State → Host.Outcome State Fault Refusal
  | 0, _, _ => outcome (.error stop)
  | n + 1, bs, s =>
    match decode s.op32 s.addr32 bs with
    | .error (.truncated missing) => outcome (.error (fetchStop s (s.pfx.count + bs.length + missing) stop))
    | .error why => .refused (.undecodable why)
    | .ok (i, rest) =>
      if i.isPrefixByte then
        match ex i s with
        | .next t => runBytes ex stop n rest t
        | o => o
      else ex i s

/-- One step: fetch at CS:pc, decode, run (R213). A code segment with D = 0 is refused once a byte has been fetched (R105). -/
def runInstr (ex : Instr → State → Host.Outcome State Fault Refusal) (s : State) : Host.Outcome State Fault Refusal :=
  match fetchWindow s with
  | ([], stop) => outcome (.error stop)
  | (b :: bs, stop) =>
    if s.segs.cs.attr.db then runBytes ex stop (Config.maxInstrBytes + 1) (b :: bs) s.begin
    else .refused .codeSegment16

/-- Puts `bs` into memory at the linear addresses from `la` on, where fetch translates them to. -/
def placeBytes (s : State) (la : Word) : List Byte → State
  | [] => s
  | b :: bs =>
    match translate s la .read with
    | .ok pa => placeBytes { s with mem := s.mem.write pa b } (la + 1) bs
    | .error _ => placeBytes s (la + 1) bs

end Sys2Proof.Machine
end

