-- ==== Sys2Proof/Machine/Step.lean ====
section
/-! DEFINITION. One step, and the state in which a given instruction is the next one. -/

namespace Sys2Proof.Machine

/-- One instruction, R213. -/
def step (s : State) : Host.Outcome State Fault Refusal := runInstr exec s

/-- `s` with the bytes of `w`, zeros above bit `nbits` up to the longest instruction, where `step` fetches. It stands for the
author of the launch state, who puts the program into memory (R214; log 6). -/
def State.withFetchWord (s : State) (nbits w : Nat) : State :=
  placeBytes s (s.segs.cs.base + s.pc) (bytesOfNat Config.maxInstrBytes (w % 2 ^ nbits))

end Sys2Proof.Machine
end

