-- ==== Sys2Proof/Safety.lean ====
section
/-! DEFINITION. Launch states, the invariant a run keeps, and the end of a run (spec/70_reset_and_hazards.md R203, R214). -/

namespace Sys2Proof.Machine

/-- SS, DS, ES, FS or GS as a load of a non-null selector leaves it, R203 (b): `LoadSegReg`'s checks hold of the hidden part. -/
abbrev SegLoaded (cpl : BitVec 2) (sr : SReg) (r : SegReg) : Prop :=
  isNull r.sel = false ∧ loadTypeOk sr r.attr = true ∧ loadPrivOk cpl sr r.sel r.attr = true ∧
    r.attr.p = true ∧ r.attr.accessed = true

/-- DS, ES, FS or GS: null or loaded, R203 (c). -/
abbrev DataSegOk (cpl : BitVec 2) (sr : SReg) (r : SegReg) : Prop :=
  isNull r.sel = true ∨ SegLoaded cpl sr r

/-- CS as `LoadCS` leaves it, R203 (b), with `CPL = CS.sel[1:0]`, R203 (d). -/
abbrev CodeSegOk (cpl : BitVec 2) (r : SegReg) : Prop :=
  isNull r.sel = false ∧ r.attr.s = true ∧ r.attr.isCode = true ∧ csPrivOk cpl r.sel r.attr = true ∧
    r.attr.p = true ∧ r.attr.accessed = true ∧ selRPL r.sel = cpl

/-- LDTR: no LDT, or what a present LDT descriptor of the GDT leaves in it: TI = 0, type LDT, P = 1, R203 (e), R165. R203 (e) also says that a
GDT entry with LDTR's base and limit exists, and R203 closes by admitting hidden parts that disagree with memory; the reading taken is that no
such entry is asked for, in memory or within GDTR.limit. DESIGN CHOICE (log 29): safe. -/
abbrev LdtrOk (r : SegReg) : Prop :=
  isNull r.sel = true ∨ selTI r.sel = false ∧ r.attr.isLdt = true ∧ r.attr.p = true

/-- Every listed byte has a physical address of PHYS_BITS bits, R28. -/
abbrev MemInRange (p : Params) (m : Memory) : Prop := ∀ c ∈ m, c.1 < 2 ^ p.physBits

/-- What holds of every state of a run, R203 (b) to (e), R5, R28. -/
abbrev State.Inv (s : State) : Prop :=
  s.mem.wf ∧ 32 ≤ s.params.physBits ∧ MemInRange s.params s.mem ∧
  CodeSegOk s.cpl s.segs.cs ∧ SegLoaded s.cpl .ss s.segs.ss ∧
  DataSegOk s.cpl .ds s.segs.ds ∧ DataSegOk s.cpl .es s.segs.es ∧ DataSegOk s.cpl .fs s.segs.fs ∧ DataSegOk s.cpl .gs s.segs.gs ∧
  LdtrOk s.ldtr ∧ s.pfx = PfxLatch.empty

/-- A state the spec admits as the start of a run, R203 (a) to (e): the invariant, and DS not null. -/
abbrev State.LaunchOk (s : State) : Prop := s.Inv ∧ isNull s.segs.ds.sel = false

/-- The processor is about to fetch at EndAddr, R214. -/
def atEnd (s : State) : Bool := s.segs.cs.base + s.pc == s.params.endAddr

/-- A run of at most `n` steps that is over, and final, where the next fetch is at EndAddr, R214. -/
def runToEnd : Nat → State → Host.Outcome State Fault Refusal
  | 0, s => .next s
  | n + 1, s =>
    if atEnd s then .next s
    else match step s with
      | .next t => runToEnd n t
      | o => o

/-! ## The terms the statements are made in -/

/-- The exception `e` with information `info`, taken by the instruction at the pc of `s`. -/
abbrev exceptionAt (s : State) (e : Exc) (info : ExcInfo) : Fault := .exception e info s.pc

/-- `t` keeps every register of `s` but those named, and every byte of memory but those at the addresses `stored`. The pc, the
prefix latch and the clock are not named here. -/
abbrev KeepsExcept (s t : State) (regs : List Reg) (segs : List SReg) (stored : List Nat) : Prop :=
  (∀ r, r ∉ regs → t.reg r = s.reg r) ∧ (∀ q, q ∉ segs → t.seg q = s.seg q) ∧
  t.gdtr = s.gdtr ∧ t.ldtr = s.ldtr ∧ t.idtr = s.idtr ∧ t.trSel = s.trSel ∧ t.cpl = s.cpl ∧ t.params = s.params ∧
  ∀ a, a ∉ stored → t.mem.read a = s.mem.read a

/-- The address of the accessed bit's byte that a load of selector `sel` writes: none for a null selector or where A is set. -/
def accessedBitStored (s : State) (sel : Sel) : List Nat :=
  if isNull sel then []
  else match descAddr s sel with
    | .error _ => []
    | .ok a =>
      match readDesc s a, translate s (a + 5) .write with
      | .ok d, .ok pa => if (descAttr d).accessed then [] else [pa]
      | _, _ => []

/-- The physical addresses of the `n` bytes of a write at `sr:off`, or the exception of `SegAccess` or of the page walk, R75, R82. -/
def storeAddrs (s : State) (sr : SReg) (off : Word) (n : Nat) : Res (List Nat) := do
  let la ← segAccess s sr off n .write
  walk s la .write n

/-- The physical addresses of the `n` bytes a write at `sr:off` stores to. -/
def bytesStored (s : State) (sr : SReg) (off : Word) (n : Nat) : List Nat :=
  match storeAddrs s sr off n with
  | .error _ => []
  | .ok ps => ps

/-- The descriptor a selector names, or the exception of `DescAddr` or of its read, R49, R70 steps 2 and 3. -/
def selDesc (s : State) (sel : Sel) : Res (BitVec 64) := do
  let a ← descAddr s sel
  readDesc s a

/-- Selector `sel` names descriptor `d` at linear address `a`, and every check of R70 steps 1 to 7 on loading it into `sr` passes:
SS takes a writable data segment with RPL = DPL = CPL; the other registers take data or readable code, and unless it is
conforming code, CPL <= DPL and RPL <= DPL; P = 1. -/
abbrev SegLoadable (s : State) (sr : SReg) (sel : Sel) (a : Word) (d : BitVec 64) : Prop :=
  isNull sel = false ∧ descAddr s sel = .ok a ∧ readDesc s a = .ok d ∧ (descAttr d).s = true ∧
  (sr = .ss → (descAttr d).type.getLsbD 3 = false ∧ (descAttr d).type.getLsbD 1 = true ∧
    selRPL sel = s.cpl ∧ (descAttr d).dpl = s.cpl) ∧
  (sr ≠ .ss → ((descAttr d).type.getLsbD 3 = true → (descAttr d).type.getLsbD 1 = true) ∧
    (((descAttr d).type.getLsbD 3 && (descAttr d).type.getLsbD 2) = false →
      s.cpl.toNat ≤ (descAttr d).dpl.toNat ∧ (selRPL sel).toNat ≤ (descAttr d).dpl.toNat)) ∧
  (descAttr d).p = true

/-- Selector `sel` names code-segment descriptor `d` at linear address `a`, and every check of R71 steps 1 to 6 passes. -/
abbrev CsLoadable (s : State) (sel : Sel) (a : Word) (d : BitVec 64) : Prop :=
  isNull sel = false ∧ descAddr s sel = .ok a ∧ readDesc s a = .ok d ∧ (descAttr d).s = true ∧
  (descAttr d).type.getLsbD 3 = true ∧
  ((descAttr d).type.getLsbD 2 = true → (descAttr d).dpl.toNat ≤ s.cpl.toNat) ∧
  ((descAttr d).type.getLsbD 2 = false → (descAttr d).dpl = s.cpl ∧ (selRPL sel).toNat ≤ s.cpl.toNat) ∧
  (descAttr d).p = true

/-- The accessed bit of `d` at `a` is set already, or its byte lies in RAM. -/
abbrev AccessedBitCanBeSet (s : State) (a : Word) (d : BitVec 64) : Prop :=
  (descAttr d).accessed = true ∨ ∃ pa, translate s (a + 5) .write = .ok pa ∧ s.params.physClass pa = .ram

/-- The accessed bit of `d` at `a` is clear and its byte lies in ROM or absent memory, R72. -/
abbrev AccessedBitOutsideRam (s : State) (a : Word) (d : BitVec 64) : Prop :=
  (descAttr d).accessed = false ∧ ∃ pa, translate s (a + 5) .write = .ok pa ∧ s.params.physClass pa ≠ .ram

/-- The outcome `o` of an instruction whose load has passed every check, of a descriptor at `a` with A clear: the page fault of the write of
byte 5 where it has one, else the instruction completes, or outside RAM may hang, R70 step 8, R71 step 7, R72; it may also hang where one of the
addresses `stored` that the instruction stores to is that of a descriptor in ROM, R206. -/
def AccessedBitOutcome (s : State) (a : Word) (stored : List Nat) (o : Host.Outcome State Fault Refusal) : Prop :=
  match translate s (a + 5) .write with
  | .error (.fault e) => o = .fault e
  | .error (.refused _) => False
  | .ok pa => (o = .fault .hang ∧ (s.params.physClass pa ≠ .ram ∨ ∃ q ∈ stored, s.romDescriptor q = true)) ∨ ∃ t, o = .next t

/-- Memory `m` becomes `m'` by the accessed bit of `d` at `a` alone: unchanged where A is set, else byte 5 with bit 0 set. -/
abbrev AccessedBitSet (s : State) (m m' : Memory) (a : Word) (d : BitVec 64) : Prop :=
  ((descAttr d).accessed = true → m' = m) ∧
  ((descAttr d).accessed = false → ∀ pa, translate s (a + 5) .write = .ok pa → m' = m.write pa (d.extractLsb' 40 8 ||| 1))

/-- The register a load leaves: the selector and the descriptor's fields, with A = 1. -/
abbrev loadedReg (sel : Sel) (d : BitVec 64) : SegReg :=
  ⟨sel, descBase d, descLimit d, { descAttr d with type := (descAttr d).type ||| 1 }⟩

/-- The pc after instruction `i`, its prefix bytes included. R24 leaves the wrap-around of the pc open: modulo 2^32 is the model's choice
(log 28; R141 states it for the return offset of CALL). -/
abbrev pcAfter (s : State) (i : Instr) : Word := s.pc + BitVec.ofNat 32 (s.pfx.count + (encode i).length)

/-- The POP instructions and the register each loads. -/
abbrev popForms : List (Instr × SReg) := [(.popES, .es), (.popSS, .ss), (.popDS, .ds), (.popFS, .fs), (.popGS, .gs)]

/-- LDS, LES, LSS, LFS, LGS and the segment register each loads. -/
abbrev farLoadForms (r : Reg) (m : Mem) : List (Instr × SReg) :=
  [(.lds r m, .ds), (.les r m, .es), (.lss r m, .ss), (.lfs r m, .fs), (.lgs r m, .gs)]

/-- The instructions that store a 16-bit selector, and the selector each stores. -/
abbrev selStoreForms (s : State) (dst : RM) : List (Instr × Sel) :=
  [(.movFromSreg dst .es, s.segs.es.sel), (.movFromSreg dst .cs, s.segs.cs.sel), (.movFromSreg dst .ss, s.segs.ss.sel),
   (.movFromSreg dst .ds, s.segs.ds.sel), (.movFromSreg dst .fs, s.segs.fs.sel), (.movFromSreg dst .gs, s.segs.gs.sel),
   (.sldt dst, s.ldtr.sel), (.str dst, s.trSel)]

/-- The instructions that store a pseudo-descriptor, and the register each stores. -/
abbrev tableStoreForms (s : State) (m : Mem) : List (Instr × TableReg) := [(.sgdt m, s.gdtr), (.sidt m, s.idtr)]

/-- Instruction `i` loads segment register `sr` with selector `sel`, which its source gives: MOV (R120), POP (R122) and the far-pointer
loads (R123). -/
def SegLoadTo (s : State) (i : Instr) (sr : SReg) (sel : Sel) : Prop :=
  (∃ src, i = .movToSreg sr src ∧ sr ≠ .cs ∧ readRM16 s src = .ok sel) ∨
  (∃ v, (i, sr) ∈ popForms ∧ segRead s .stack .ss s.stackPtr s.opBytes = .ok v ∧ sel = le16 (v.take 2)) ∨
  ∃ r m p, (i, sr) ∈ farLoadForms r m ∧ readFarPtr s m = .ok p ∧ sel = p.sel

/-- ESP after a POP: ESP + n with B = 1; with B = 0 SP + n modulo 2^16 in its low half, the upper half kept, R122. -/
abbrev espAfterPop (s : State) : Word :=
  if s.segs.ss.attr.db then s.reg .esp + BitVec.ofNat 32 s.opBytes
  else (s.reg .esp).extractLsb' 16 16 ++ ((s.reg .esp).extractLsb' 0 16 + BitVec.ofNat 16 s.opBytes)

/-- Register `r` after a far-pointer load of offset `off`: `off`, or with OpSize 16 its low half alone, R123. -/
abbrev regAfterFarLoad (s : State) (r : Reg) (off : Word) : Word :=
  if s.op32 then off else (s.reg r).extractLsb' 16 16 ++ off.extractLsb' 0 16

/-- A far JMP with target `p`. -/
def JmpTo (s : State) (i : Instr) (p : FarPtr) : Prop :=
  (∃ off sel, i = .jmpPtr off sel ∧ p = ⟨ptrOffset off, sel⟩) ∨ ∃ m, i = .jmpMem m ∧ readFarPtr s m = .ok p

/-- A far CALL with target `p`. -/
def CallTo (s : State) (i : Instr) (p : FarPtr) : Prop :=
  (∃ off sel, i = .callPtr off sel ∧ p = ⟨ptrOffset off, sel⟩) ∨ ∃ m, i = .callMem m ∧ readFarPtr s m = .ok p

/-- The stack pointer after one 4-byte push from `sp`, R141. -/
abbrev spAfterPush (s : State) (sp : Word) : Word :=
  if s.segs.ss.attr.db then sp - 4 else BitVec.ofNat 32 ((sp.toNat + 65532) % 65536)

/-- ESP after the pushes of a far CALL end at stack pointer `sp`: all of it with B = 1, else its low half, R141. -/
abbrev espAfterPush (s : State) (sp : Word) : Word :=
  if s.segs.ss.attr.db then sp else (s.reg .esp).extractLsb' 16 16 ++ sp.extractLsb' 0 16

/-- Memory after the pushes of a far CALL `i`: the old CS selector at the addresses `ps1`, the offset after `i` at `ps2`, R141. -/
abbrev memAfterPushes (s : State) (i : Instr) (ps1 ps2 : List Nat) : Memory :=
  storeMem s.params (storeMem s.params s.mem (ps1.zip (bytesOfNat 4 s.segs.cs.sel.toNat))) (ps2.zip (bytesOfNat 4 (pcAfter s i).toNat))

/-- The segment register an override byte names, R104. -/
def overrideOf : Instr → Option SReg
  | .segOverrideByte sr => some sr
  | _ => none

/-- What the prefix bytes `xs` record: 66H present, 67H present, the last override, and how many bytes they are, R101 to R104 (log 15). -/
def latchOf (xs : List Instr) : PfxLatch where
  opSize := decide (.opSizeByte ∈ xs)
  addrSize := decide (.addrSizeByte ∈ xs)
  seg := (xs.filterMap overrideOf).getLast?
  count := xs.length

end Sys2Proof.Machine
end

