-- ==== Sys2Proof/Certificates/Slice0/Obligations.lean ====
section
/-! DEFINITION. The statements for the provers. Each docstring names the rule of spec/ it formalises. -/

open Sys2Proof Sys2Proof.Machine

/-! ## Encoding -/

/-- R101 to R108: decoding the encoding of a well-formed instruction gives it back, whatever follows it, at either operand size. -/
def Obligations.DecodeEncodeRoundTrip : Prop :=
  ∀ (op32 : Bool) (i : Instr) (rest : List Byte), i.wf op32 = true →
    decode op32 true (encode i ++ rest) = .ok (i, rest)

/-- R101 to R109: whatever the decoder accepts, at either operand and address size, is the encoding of a well-formed instruction
followed by the bytes it leaves. -/
def Obligations.DecodedBytesAreTheEncoding : Prop :=
  ∀ (op32 addr32 : Bool) (bs : List Byte) (i : Instr) (rest : List Byte),
    decode op32 addr32 bs = .ok (i, rest) → bs = encode i ++ rest ∧ i.wf op32 = true

/-- R108 and the vectors V30, V60, V61, V62, V64, V70, V153: words written out from the encoding decode to their instructions. -/
def Obligations.OpcodeWordsDecode : Prop :=
  decode true true [0x8E, 0xD8] = .ok (.movToSreg .ds (.reg .eax), []) ∧
  decode false true [0x8C, 0xDB] = .ok (.movFromSreg (.reg .ebx) .ds, []) ∧
  decode true true [0x0F, 0xA1] = .ok (.popFS, []) ∧
  decode true true [0x0F, 0xB2, 0x20] = .ok (.lss .esp (.base .eax), []) ∧
  decode true true [0xEA, 0x00, 0x00, 0x10, 0x00, 0x08, 0x00] = .ok (.jmpPtr (.off32 0x00100000) 0x0008, []) ∧
  decode true true [0xFF, 0x2C, 0x24] = .ok (.jmpMem (.sib 0 .esp .esp), []) ∧
  decode true true [0x0F, 0x01, 0x05, 0x02, 0x20, 0x00, 0x00] = .ok (.sgdt (.abs 0x00002002), []) ∧
  decode true true [0x0F, 0x00, 0xD0] = .ok (.lldt (.reg .eax), []) ∧
  decode true true [0x2E, 0xC5, 0x33] = .ok (.segOverrideByte .cs, [0xC5, 0x33])

/-- R103: with AddrSize 16 no memory operand is decoded; every instruction that has one is refused. -/
def Obligations.SixteenBitAddressesAreRefused : Prop :=
  ∀ (op32 : Bool) (m : Mem) (r : Reg) (sr : SReg) (rest : List Byte),
    ∀ i ∈ [Instr.movToSreg sr (.mem m), .movFromSreg (.mem m) sr, .lds r m, .les r m, .lss r m, .lfs r m, .lgs r m,
        .callMem m, .jmpMem m, .sgdt m, .sidt m, .sldt (.mem m), .str (.mem m), .lgdt m, .lldt (.mem m)],
      decode op32 false (encode i ++ rest) = .error .addressSize16

/-! ## One step -/

/-- R213: where the bytes that can be fetched at the pc begin with an instruction that is no prefix byte, in a 32-bit code
segment, the step is `exec` of it on the state with no prefix latched. -/
def Obligations.StepRunsTheDecodedInstruction : Prop :=
  ∀ (s : State) (bs rest : List Byte) (stop : Stop) (i : Instr),
    fetchWindow s = (bs, stop) → s.segs.cs.attr.db = true → decode true true bs = .ok (i, rest) →
    i.wf true = true → i.isPrefixByte = false → step s = exec i s.begin

/-- R101, R102, R103, R104: any number of prefix bytes and the instruction after them are one step: the instruction is decoded with the sizes the
prefixes select and runs with them latched. That they are one step is log 14; that a repeated 66H or 67H changes nothing more and the last of
several overrides counts is the model's choice (log 15), as are the five overrides other than CS (log 16). R109, R103, R166, R213: where the
decoder rejects the bytes after the prefix bytes, the step is refused by the decoder's name for it (logs 20, 30). -/
def Obligations.StepRunsAPrefixedInstruction : Prop :=
  ∀ (s : State) (xs : List Instr) (bs : List Byte) (stop : Stop),
    fetchWindow s = (xs.flatMap encode ++ bs, stop) → s.segs.cs.attr.db = true → (∀ x ∈ xs, x.isPrefixByte = true) →
    (∀ (i : Instr) (rest : List Byte), decode (!decide (.opSizeByte ∈ xs)) (!decide (.addrSizeByte ∈ xs)) bs = .ok (i, rest) →
      i.isPrefixByte = false → step s = exec i { s with pfx := latchOf xs }) ∧
    (∀ why : DecodeError, decode (!decide (.opSizeByte ∈ xs)) (!decide (.addrSizeByte ∈ xs)) bs = .error why →
      (∀ k, why ≠ .truncated k) → step s = .refused (.undecodable why))

/-- R77, R213: where each byte of the encoding of a well-formed instruction can be fetched at its place, the step runs that instruction. -/
def Obligations.StepRunsTheEncodedInstruction : Prop :=
  ∀ (s : State) (i : Instr), i.wf true = true → i.isPrefixByte = false → s.segs.cs.attr.db = true →
    (∀ (k : Nat) (b : Byte), (encode i)[k]? = some b → fetchByte s k = .ok b) → step s = exec i s.begin

/-- R77, R73: with CS a non-null code segment the step takes #GP(0) where the pc is beyond the limit, and where the bytes from the pc up to the
limit, prefix bytes `xs` and then `bs`, can be fetched and are no complete instruction, so that its next byte lies beyond the limit. R178 and the
decision D25 of R77: where the next byte has any fault, the step takes it, but #GP(0) if a later byte that the bytes read call for lies beyond
the limit (at most 15 bytes are checked; log 19). That the
decoder misses bytes, and has not yet refused, is log 30 where the form is one of R109. -/
def Obligations.FetchBeyondTheLimitTakesGP : Prop :=
  ∀ s : State, isNull s.segs.cs.sel = false → s.segs.cs.attr.type.getLsbD 3 = true →
    let el := (effLimit s.segs.cs.limit s.segs.cs.attr.g).toNat
    (el < s.pc.toNat → step s = .fault (exceptionAt s .gp .zero)) ∧
    (∀ (xs : List Instr) (bs : List Byte) (k : Nat), s.segs.cs.attr.db = true → (∀ x ∈ xs, x.isPrefixByte = true) →
      s.pc.toNat + (xs.flatMap encode ++ bs).length = el + 1 → (xs.flatMap encode ++ bs).length < 15 →
      (∀ (k : Nat) (b : Byte), (xs.flatMap encode ++ bs)[k]? = some b → fetchByte s k = .ok b) →
      decode (!decide (.opSizeByte ∈ xs)) (!decide (.addrSizeByte ∈ xs)) bs = .error (.truncated k) →
      step s = .fault (exceptionAt s .gp .zero)) ∧
    (∀ (xs : List Instr) (bs : List Byte) (k : Nat) (e : Fault), s.segs.cs.attr.db = true → (∀ x ∈ xs, x.isPrefixByte = true) →
      (xs.flatMap encode ++ bs).length < 15 →
      (∀ (j : Nat) (b : Byte), (xs.flatMap encode ++ bs)[j]? = some b → fetchByte s j = .ok b) →
      fetchByte s (xs.flatMap encode ++ bs).length = .error (.fault e) →
      decode (!decide (.opSizeByte ∈ xs)) (!decide (.addrSizeByte ∈ xs)) bs = .error (.truncated k) →
      step s = .fault (if el < s.pc.toNat + min ((xs.flatMap encode ++ bs).length + k) 15 - 1 then exceptionAt s .gp .zero else e))

/-- R105: in a code segment with D = 0 the step is refused, once a byte can be fetched. -/
def Obligations.SixteenBitCodeSegmentIsRefused : Prop :=
  ∀ (s : State) (b : Byte), s.segs.cs.attr.db = false → fetchByte s 0 = .ok b → step s = .refused .codeSegment16

/-- R179: an exception a step takes names the pc at which the instruction began, its prefix bytes included. -/
def Obligations.ExceptionNamesTheInstructionPc : Prop :=
  ∀ (s : State) (e : Exc) (info : ExcInfo) (pc : Word), step s = .fault (.exception e info pc) → pc = s.pc

/-! ## Selectors, descriptors, limits -/

/-- R14, R15: Index, TI and RPL lie in bits 15:3, 2 and 1:0, and exactly the selectors 0000H to 0003H are null. -/
def Obligations.SelectorFields : Prop :=
  ∀ sel : Sel, sel.toNat = 8 * (selIndex sel).toNat + 4 * (selTI sel).toNat + (selRPL sel).toNat ∧
    (isNull sel = true ↔ sel.toNat ≤ 3)

/-- R61: the scaled limit; with G = 1 the low twelve bits of an offset are not compared; the size is limit + 1 units of 1 or 4096 bytes. -/
def Obligations.EffectiveLimitScalesByGranularity : Prop :=
  ∀ limit : BitVec 20,
    effLimit limit false = limit.zeroExtend 32 ∧ effLimit limit true = (limit.zeroExtend 32 <<< 12) ||| 0x00000FFF ∧
    (effLimit limit false).toNat + 1 = limit.toNat + 1 ∧
    (effLimit limit true).toNat + 1 = (limit.toNat + 1) * 4096 ∧
    (∀ off : Word, off.toNat ≤ (effLimit limit true).toNat ↔ (off.extractLsb' 12 20).toNat ≤ limit.toNat) ∧
    effLimit 0 true = 0x00000FFF

/-- R50: a descriptor put together from its fields in the order of R50's table is read back field by field. -/
def Obligations.DescriptorFieldsReadBack : Prop :=
  ∀ (base : Word) (limit : BitVec 20) (a : Attr) (d : BitVec 64),
    d = base.extractLsb' 24 8 ++ BitVec.ofBool a.g ++ BitVec.ofBool a.db ++ BitVec.ofBool a.l ++ BitVec.ofBool a.avl ++
      limit.extractLsb' 16 4 ++ BitVec.ofBool a.p ++ a.dpl ++ BitVec.ofBool a.s ++ a.type ++ base.extractLsb' 0 24 ++
      limit.extractLsb' 0 16 →
    descBase d = base ∧ descLimit d = limit ∧ descAttr d = a

/-- R49: the descriptor's address is the table's base plus Index * 8 modulo 2^32; #GP(sel) where its eight bytes are not all within
the table's limit, or TI = 1 and there is no LDT. -/
def Obligations.DescriptorAddress : Prop :=
  ∀ (s : State) (sel : Sel), isNull sel = false →
    descAddr s sel =
      if sel.getLsbD 2 = false then
        if s.gdtr.limit.toNat < (sel.toNat / 8) * 8 + 7 then .error (.fault (exceptionAt s .gp (.selector sel)))
        else .ok (s.gdtr.base + BitVec.ofNat 32 ((sel.toNat / 8) * 8))
      else if isNull s.ldtr.sel = true then .error (.fault (exceptionAt s .gp (.selector sel)))
      else if (effLimit s.ldtr.limit s.ldtr.attr.g).toNat < (sel.toNat / 8) * 8 + 7 then
        .error (.fault (exceptionAt s .gp (.selector sel)))
      else .ok (s.ldtr.base + BitVec.ofNat 32 ((sel.toNat / 8) * 8))

/-! ## Accesses -/

/-- R73: through a register that holds an expand-up segment whose type allows it, an access succeeds exactly where its last offset is
within the scaled limit, and otherwise takes #SS(0) through SS and #GP(0) through any other register. -/
def Obligations.ExpandUpLimit : Prop :=
  ∀ (s : State) (sr : SReg) (off : Word) (n : Nat) (k : Access), 1 ≤ n → isNull (s.seg sr).sel = false →
    typeAllows k (s.seg sr).attr = true → (k = .execute → sr = .cs) →
    ((s.seg sr).attr.type.getLsbD 3 = true ∨ (s.seg sr).attr.type.getLsbD 2 = false) →
    segAccess s sr off n k =
      if off.toNat + n - 1 ≤ (effLimit (s.seg sr).limit (s.seg sr).attr.g).toNat then .ok ((s.seg sr).base + off)
      else .error (.fault (exceptionAt s (if sr = .ss then .ss else .gp) .zero))

/-- R74: through a register that holds an expand-down data segment, an access succeeds exactly where its first offset is above the scaled
limit and its last at most FFFFFFFFH (B = 1) or FFFFH (B = 0); otherwise #SS(0) through SS, #GP(0) through any other register. -/
def Obligations.ExpandDownLimit : Prop :=
  ∀ (s : State) (sr : SReg) (off : Word) (n : Nat) (k : Access), 1 ≤ n → isNull (s.seg sr).sel = false →
    typeAllows k (s.seg sr).attr = true → (k = .execute → sr = .cs) →
    (s.seg sr).attr.type.getLsbD 3 = false → (s.seg sr).attr.type.getLsbD 2 = true →
    segAccess s sr off n k =
      if (effLimit (s.seg sr).limit (s.seg sr).attr.g).toNat < off.toNat ∧
          off.toNat + n - 1 ≤ (if (s.seg sr).attr.db then 0xFFFFFFFF else 0xFFFF) then .ok ((s.seg sr).base + off)
      else .error (.fault (exceptionAt s (if sr = .ss then .ss else .gp) .zero))

/-- R76: any access through a register that holds a null selector takes #GP(0). -/
def Obligations.NullRegisterAccessTakesGP : Prop :=
  ∀ (s : State) (sr : SReg) (off : Word) (n : Nat) (k : Access), isNull (s.seg sr).sel = true →
    segAccess s sr off n k = .error (.fault (exceptionAt s .gp .zero))

/-- R75 step 2: #GP(0) for a write through a code or read-only data segment, and for a read through an execute-only code segment. -/
def Obligations.ForbiddenAccessTakesGP : Prop :=
  ∀ (s : State) (sr : SReg) (off : Word) (n : Nat) (k : Access),
    (k = .write ∧ ((s.seg sr).attr.type.getLsbD 3 = true ∨ (s.seg sr).attr.type.getLsbD 1 = false) ∨
      k = .read ∧ (s.seg sr).attr.type.getLsbD 3 = true ∧ (s.seg sr).attr.type.getLsbD 1 = false) →
    segAccess s sr off n k = .error (.fault (exceptionAt s .gp .zero))

/-- R80: with paging off the bytes of an access lie at the physical addresses equal to its linear addresses, each modulo 2^32. -/
def Obligations.PagingOffIsTheIdentity : Prop :=
  ∀ (s : State) (la : Word) (k : Access) (n : Nat), s.params.pagingEnabled = false →
    walk s la k n = .ok ((List.range n).map fun i => (la.toNat + i) % 4294967296)

/-- R82, R174: with paging on, the bytes of an access lie where the page walks of their linear addresses put them (within PHYS_BITS, log 13), or
the first byte whose walk gives no address takes the page fault with its linear address. -/
def Obligations.PagingOnTranslatesEachByteOrFaults : Prop :=
  ∀ (s : State) (la : Word) (k : Access) (n : Nat), s.params.pagingEnabled = true →
    let pw (i : Nat) := Config.pageWalk s.mem (la + BitVec.ofNat 32 i) k s.cpl
    (∃ ps, walk s la k n = .ok ps ∧ ps.length = n ∧
      ∀ i < n, ∃ pa, pw i = some pa ∧ ps[i]? = some (pa % 2 ^ s.params.physBits)) ∨
    ∃ j < n, (∀ i < j, (pw i).isSome = true) ∧ pw j = none ∧
      walk s la k n = .error (.fault (exceptionAt s .pf (.linear (la + BitVec.ofNat 32 j))))

/-- R40, R82: with paging off, bytes written to RAM are what a read at the same linear address then gives. -/
def Obligations.ReadAfterWriteInRam : Prop :=
  ∀ (s : State) (tag : DrawTag) (la : Word) (bs : List Byte) (ws : List (Nat × Byte)),
    s.params.pagingEnabled = false → bs.length ≤ 4294967296 →
    (∀ i < bs.length, s.params.physClass ((la.toNat + i) % 4294967296) = .ram) →
    memWrite s la bs = .ok ws → memRead (s.store ws) tag la bs.length = .ok bs

/-- R28, R82: writes to addresses that are not RAM leave memory unchanged. -/
def Obligations.WritesOutsideRamAreDropped : Prop :=
  ∀ (s : State) (ws : List (Nat × Byte)), (∀ w ∈ ws, s.params.physClass w.1 ≠ .ram) → (s.store ws).mem = s.mem

/-- R106: the effective address and default segment register of each operand form. -/
def Obligations.EffectiveAddresses : Prop :=
  ∀ (s : State) (r x b : Reg) (sc : BitVec 2) (d8 : Byte) (d32 : Word),
    let idx : Word := if x = .esp then 0 else s.reg x <<< sc.toNat
    let stackBase (q : Reg) : SReg := if q = .esp ∨ q = .ebp then .ss else .ds
    effAddr s (.base r) = s.reg r ∧ defSeg (.base r) = .ds ∧
    effAddr s (.abs d32) = d32 ∧ defSeg (.abs d32) = .ds ∧
    effAddr s (.base8 r d8) = s.reg r + d8.signExtend 32 ∧ defSeg (.base8 r d8) = stackBase r ∧
    effAddr s (.base32 r d32) = s.reg r + d32 ∧ defSeg (.base32 r d32) = stackBase r ∧
    effAddr s (.sib sc x b) = s.reg b + idx ∧ defSeg (.sib sc x b) = stackBase b ∧
    effAddr s (.sibAbs sc x d32) = d32 + idx ∧ defSeg (.sibAbs sc x d32) = .ds ∧
    effAddr s (.sib8 sc x b d8) = s.reg b + idx + d8.signExtend 32 ∧ defSeg (.sib8 sc x b d8) = stackBase b ∧
    effAddr s (.sib32 sc x b d32) = s.reg b + idx + d32 ∧ defSeg (.sib32 sc x b d32) = stackBase b

/-! ## LoadSegReg -/

/-- R72, R64: where A is clear and its byte is in ROM or absent memory, a MOV, POP or far-pointer load of a segment register either hangs or
completes with the register loaded, A = 1 in it, and memory unchanged. (pc modulo 2^32: log 28.) -/
def Obligations.RomAccessedBitCompletesOrHangs : Prop :=
  ∀ (s : State) (i : Instr) (sr : SReg) (sel : Sel) (a : Word) (d : BitVec 64), SegLoadTo s i sr sel →
    SegLoadable s sr sel a d → AccessedBitOutsideRam s a d →
    exec i s = .fault .hang ∨
    ∃ t, exec i s = .next t ∧ t.seg sr = loadedReg sel d ∧ t.mem = s.mem ∧
      ((i, sr) ∈ popForms → t.reg .esp = espAfterPop s) ∧
      (∀ r m p, (i, sr) ∈ farLoadForms r m → readFarPtr s m = .ok p → t.reg r = regAfterFarLoad s r p.off) ∧ t.pc = pcAfter s i

/-- R72, R71, R141, R142: where A is clear and its byte is in ROM or absent memory, a far JMP or CALL either hangs or completes with CS loaded, A = 1
in it, and memory unchanged but for the pushes of CALL. (The 16-bit forms are the model's choice, log 17.) -/
def Obligations.RomAccessedBitOfCsCompletesOrHangs : Prop :=
  ∀ (s : State) (i : Instr) (p : FarPtr) (a : Word) (d : BitVec 64), CsLoadable s p.sel a d → AccessedBitOutsideRam s a d →
    (JmpTo s i p →
      exec i s = .fault .hang ∨
      ∃ t, exec i s = .next t ∧ t.segs.cs = loadedReg (p.sel.extractLsb' 2 14 ++ s.cpl) d ∧ t.mem = s.mem ∧ t.pc = p.off ∧
        t.cpl = s.cpl) ∧
    (∀ (la1 la2 : Word) (ps1 ps2 : List Nat), CallTo s i p →
      segAccess s .ss (spAfterPush s s.stackPtr) 4 .write = .ok la1 → walk s la1 .write 4 = .ok ps1 →
      segAccess s .ss (spAfterPush s (spAfterPush s s.stackPtr)) 4 .write = .ok la2 → walk s la2 .write 4 = .ok ps2 →
      exec i s = .fault .hang ∨
      ∃ t, exec i s = .next t ∧ t.segs.cs = loadedReg (p.sel.extractLsb' 2 14 ++ s.cpl) d ∧ t.mem = memAfterPushes s i ps1 ps2 ∧
        t.reg .esp = espAfterPush s (spAfterPush s (spAfterPush s s.stackPtr)) ∧ t.pc = p.off ∧ t.cpl = s.cpl)

/-- R70 steps 2 to 8, R178, R120, R122, R123: a MOV, POP or far-pointer load of a non-null selector ends in the exception of the first check it
fails: the table limit (the exception of DescAddr); the page fault of the descriptor's read; S = 0, not a writable data segment for SS or execute-only code for another register, and
privilege give #GP(sel); then P = 0 gives #NP(sel), or for SS the exception of SS_NOT_PRESENT_FAULT; then, where A is clear, the page
fault of the accessed bit's write (step 8, R178). -/
def Obligations.LoadSegRegChecksInOrder : Prop :=
  ∀ (s : State) (i : Instr) (sr : SReg) (sel : Sel), SegLoadTo s i sr sel → isNull sel = false →
    (∀ e : Fault, selDesc s sel = .error (.fault e) → exec i s = .fault e) ∧
    (∀ (a : Word) (d : BitVec 64), SegLoadable s sr sel a d → (descAttr d).accessed = false → AccessedBitOutcome s a [] (exec i s)) ∧
    ∀ (a : Word) (d : BitVec 64), descAddr s sel = .ok a → readDesc s a = .ok d →
      let ty := (descAttr d).type
      let typeBad := (descAttr d).s = false ∨
        (if sr = .ss then ty.getLsbD 3 = true ∨ ty.getLsbD 1 = false else ty.getLsbD 3 = true ∧ ty.getLsbD 1 = false)
      let privBad := if sr = .ss then selRPL sel ≠ s.cpl ∨ (descAttr d).dpl ≠ s.cpl
        else ¬(ty.getLsbD 3 = true ∧ ty.getLsbD 2 = true) ∧
          ((descAttr d).dpl.toNat < s.cpl.toNat ∨ (descAttr d).dpl.toNat < (selRPL sel).toNat)
      (typeBad → exec i s = .fault (exceptionAt s .gp (.selector sel))) ∧
      (¬typeBad → privBad → exec i s = .fault (exceptionAt s .gp (.selector sel))) ∧
      (¬typeBad → ¬privBad → (descAttr d).p = false →
        exec i s = .fault (exceptionAt s (if sr = .ss ∧ s.params.ssNotPresent = .ss then .ss else .np) (.selector sel)))

/-- R70 step 1, R15: a null selector from the source takes #GP(0) for SS, in each form that loads SS. -/
def Obligations.NullSelectorIntoSsTakesGP : Prop :=
  ∀ s : State,
    (∀ (src : RM) (sel : Sel), readRM16 s src = .ok sel → isNull sel = true →
      exec (.movToSreg .ss src) s = .fault (exceptionAt s .gp .zero)) ∧
    (∀ v : List Byte, segRead s .stack .ss s.stackPtr s.opBytes = .ok v → isNull (le16 (v.take 2)) = true →
      exec .popSS s = .fault (exceptionAt s .gp .zero)) ∧
    (∀ (r : Reg) (m : Mem) (p : FarPtr), readFarPtr s m = .ok p → isNull p.sel = true →
      exec (.lss r m) s = .fault (exceptionAt s .gp .zero))

/-- R15, R70 step 1, R120, R122, R123, R124: a null selector is loaded into DS, ES, FS or GS without an exception and without a write to memory,
by every form; the visible part holds it as written, POP still advances the stack pointer and the far-pointer loads still write the general
register. Nothing is said of the hidden part (log 10). (pc modulo 2^32: log 28.) -/
def Obligations.NullSelectorLoadsQuietly : Prop :=
  ∀ s : State,
    (∀ (sr : SReg) (src : RM) (sel : Sel), sr ≠ .ss → sr ≠ .cs → readRM16 s src = .ok sel → isNull sel = true →
      ∃ t, exec (.movToSreg sr src) s = .next t ∧ (t.seg sr).sel = sel ∧ t.mem = s.mem ∧
        t.pc = pcAfter s (.movToSreg sr src)) ∧
    (∀ f ∈ popForms, ∀ v : List Byte, f.2 ≠ .ss → segRead s .stack .ss s.stackPtr s.opBytes = .ok v →
      isNull (le16 (v.take 2)) = true →
      ∃ t, exec f.1 s = .next t ∧ (t.seg f.2).sel = le16 (v.take 2) ∧ t.mem = s.mem ∧ t.reg .esp = espAfterPop s ∧
        t.pc = pcAfter s f.1) ∧
    (∀ (r : Reg) (m : Mem), ∀ f ∈ farLoadForms r m, ∀ p : FarPtr, f.2 ≠ .ss → readFarPtr s m = .ok p → isNull p.sel = true →
      ∃ t, exec f.1 s = .next t ∧ (t.seg f.2).sel = p.sel ∧ t.mem = s.mem ∧ t.reg r = regAfterFarLoad s r p.off ∧
        t.pc = pcAfter s f.1)

/-- R120, R70: MOV loads a segment register from a descriptor that passes the checks, sets the accessed bit, and advances the pc. (pc modulo 2^32: log 28.) -/
def Obligations.MovToSregLoadsTheSegment : Prop :=
  ∀ (s : State) (sr : SReg) (src : RM) (sel : Sel) (a : Word) (d : BitVec 64), sr ≠ .cs → readRM16 s src = .ok sel →
    SegLoadable s sr sel a d → AccessedBitCanBeSet s a d →
    ∃ t, exec (.movToSreg sr src) s = .next t ∧ t.seg sr = loadedReg sel d ∧ AccessedBitSet s s.mem t.mem a d ∧
      t.pc = pcAfter s (.movToSreg sr src)

/-- R122, R23: POP reads OpSize/8 bytes at SS:StackPtr(), loads the register from the low 16 bits, and advances ESP (B = 1) or SP alone
(B = 0, modulo 2^16), with B as it was before. (pc modulo 2^32: log 28.) -/
def Obligations.PopSregLoadsAndAdvancesTheStack : Prop :=
  ∀ (s : State) (sr : SReg) (i : Instr) (v : List Byte) (a : Word) (d : BitVec 64), (i, sr) ∈ popForms →
    segRead s .stack .ss s.stackPtr s.opBytes = .ok v → SegLoadable s sr (le16 (v.take 2)) a d → AccessedBitCanBeSet s a d →
    ∃ t, exec i s = .next t ∧ t.seg sr = loadedReg (le16 (v.take 2)) d ∧ AccessedBitSet s s.mem t.mem a d ∧
      t.reg .esp = espAfterPop s ∧ t.pc = pcAfter s i

/-- R123 to R128: LDS, LES, LSS, LFS and LGS load their segment register from the far pointer's selector and the general register from its
offset, the low half only with OpSize 16. (pc modulo 2^32: log 28.) -/
def Obligations.FarPointerLoads : Prop :=
  ∀ (s : State) (sr : SReg) (i : Instr) (r : Reg) (m : Mem) (p : FarPtr) (a : Word) (d : BitVec 64),
    (i, sr) ∈ farLoadForms r m → readFarPtr s m = .ok p → SegLoadable s sr p.sel a d → AccessedBitCanBeSet s a d →
    ∃ t, exec i s = .next t ∧ t.seg sr = loadedReg p.sel d ∧ AccessedBitSet s s.mem t.mem a d ∧
      t.reg r = regAfterFarLoad s r p.off ∧ t.pc = pcAfter s i

/-- R107, R123: the far pointer at a memory operand is the offset at EA, of OpSize/8 bytes, then the selector at EA + OpSize/8, both
through the operand's segment register. -/
def Obligations.FarPointerLayout : Prop :=
  ∀ (s : State) (m : Mem) (off sel : List Byte),
    let n := if s.op32 then 4 else 2
    segRead s .operand (operandSeg s m) (effAddr s m) n = .ok off →
    segRead s .selector (operandSeg s m) (effAddr s m + BitVec.ofNat 32 n) 2 = .ok sel →
    readFarPtr s m = .ok ⟨BitVec.ofNat 32 (leNat off), BitVec.ofNat 16 (leNat sel)⟩

/-- R66, R70: a MOV, POP or far-pointer load that completes with a non-null selector leaves a segment register that CPL and the selector's RPL may
use: RPL = DPL = CPL for SS; else DPL >= CPL and DPL >= RPL unless the segment is conforming code. -/
def Obligations.LoadedSegmentIsPrivileged : Prop :=
  ∀ (s t : State) (i : Instr) (sr : SReg) (r : Reg) (m : Mem) (src : RM),
    (i = .movToSreg sr src ∧ sr ≠ .cs ∨ (i, sr) ∈ popForms ∨ (i, sr) ∈ farLoadForms r m) → exec i s = .next t →
    isNull (t.seg sr).sel = false →
    if sr = .ss then selRPL (t.seg sr).sel = t.cpl ∧ (t.seg sr).attr.dpl = t.cpl
    else ((t.seg sr).attr.type.getLsbD 3 = true ∧ (t.seg sr).attr.type.getLsbD 2 = true) ∨
      t.cpl.toNat ≤ (t.seg sr).attr.dpl.toNat ∧ (selRPL (t.seg sr).sel).toNat ≤ (t.seg sr).attr.dpl.toNat

/-- R75, R120 to R123, R141, R142, R160 to R165: an exception of an operand's access ends the instruction that makes it: of the source of MOV, the
stack of POP, the far pointer of the far loads and transfers, at CPL 0 the sources of LLDT and LGDT (LGDT's word before its
doubleword, R178; the 6-byte check between them is log 18); of SegAccess or of the page walk (R82) for the destinations of the
stores and, once the target passes the checks of LoadCS, for either push of CALL. That CALL with a 16-bit in-line offset and
CALL m16:16 make two 4-byte pushes is the model's choice (log 17). -/
def Obligations.OperandFaultsEndTheInstruction : Prop :=
  ∀ (s : State) (e : Fault) (m : Mem) (r : Reg) (sr : SReg),
    (readRM16 s (.mem m) = .error (.fault e) →
      exec (.movToSreg sr (.mem m)) s = .fault e ∧ (s.cpl = 0 → exec (.lldt (.mem m)) s = .fault e)) ∧
    (segRead s .stack .ss s.stackPtr s.opBytes = .error (.fault e) → ∀ f ∈ popForms, exec f.1 s = .fault e) ∧
    (readFarPtr s m = .error (.fault e) →
      (∀ f ∈ farLoadForms r m, exec f.1 s = .fault e) ∧ exec (.callMem m) s = .fault e ∧ exec (.jmpMem m) s = .fault e) ∧
    (storeAddrs s (operandSeg s m) (effAddr s m) 2 = .error (.fault e) →
      ∀ f ∈ selStoreForms s (.mem m), exec f.1 s = .fault e) ∧
    (storeAddrs s (operandSeg s m) (effAddr s m) 6 = .error (.fault e) → ∀ f ∈ tableStoreForms s m, exec f.1 s = .fault e) ∧
    (s.cpl = 0 →
      (segRead s .operand (operandSeg s m) (effAddr s m) 2 = .error (.fault e) → exec (.lgdt m) s = .fault e) ∧
      (∀ v : List Byte, segRead s .operand (operandSeg s m) (effAddr s m) 2 = .ok v →
        (do let _ ← segAccess s (operandSeg s m) (effAddr s m) 6 .read
            segRead s .tableBase (operandSeg s m) (effAddr s m + 2) 4) = .error (.fault e) → exec (.lgdt m) s = .fault e)) ∧
    (∀ (i : Instr) (p : FarPtr) (a : Word) (d : BitVec 64), CallTo s i p → CsLoadable s p.sel a d →
      let sp1 := spAfterPush s s.stackPtr
      (storeAddrs s .ss sp1 4 = .error (.fault e) → exec i s = .fault e) ∧
      (∀ ps : List Nat, storeAddrs s .ss sp1 4 = .ok ps →
        storeAddrs s .ss (spAfterPush s sp1) 4 = .error (.fault e) → exec i s = .fault e))

/-! ## Stores -/

/-- R121, R162, R163: MOV r/m16, Sreg, SLDT and STR write the selector to the low half of a register, keeping its upper half with OpSize
16 and leaving it free with OpSize 32 (log 11). (pc modulo 2^32: log 28.) -/
def Obligations.SelectorStoredToRegister : Prop :=
  ∀ (s : State) (r : Reg) (i : Instr) (v : Sel), (i, v) ∈ selStoreForms s (.reg r) →
    ∃ t, exec i s = .next t ∧ (t.reg r).extractLsb' 0 16 = v ∧
      (s.op32 = false → (t.reg r).extractLsb' 16 16 = (s.reg r).extractLsb' 16 16) ∧ t.pc = pcAfter s i

/-- R121, R162, R163: the memory forms write the selector's two bytes, low byte first, whatever the operand size. R206: where
one falls on a descriptor in ROM (log 31) the instruction does so or hangs. (pc modulo 2^32: log 28.) -/
def Obligations.SelectorStoredToMemory : Prop :=
  ∀ (s : State) (m : Mem) (i : Instr) (v : Sel) (la : Word) (lo hi : Nat), (i, v) ∈ selStoreForms s (.mem m) →
    segAccess s (operandSeg s m) (effAddr s m) 2 .write = .ok la → walk s la .write 2 = .ok [lo, hi] →
    let done (t : State) : Prop :=
      t.mem = storeMem s.params s.mem [(lo, v.extractLsb' 0 8), (hi, v.extractLsb' 8 8)] ∧ t.pc = pcAfter s i
    (s.romDescriptor lo = false → s.romDescriptor hi = false → ∃ t, exec i s = .next t ∧ done t) ∧
    (exec i s = .fault .hang ∨ ∃ t, exec i s = .next t ∧ done t)

/-- R160, R161: SGDT and SIDT write the limit word and then the base doubleword, lowest byte first, once all six bytes pass the
checks. R206: where one falls on a descriptor in ROM (log 31) the instruction does so or hangs. (pc modulo 2^32: log 28.) -/
def Obligations.PseudoDescriptorStored : Prop :=
  ∀ (s : State) (m : Mem) (i : Instr) (v : TableReg) (la : Word) (ps : List Nat), (i, v) ∈ tableStoreForms s m →
    segAccess s (operandSeg s m) (effAddr s m) 6 .write = .ok la → walk s la .write 6 = .ok ps →
    let done (t : State) : Prop :=
      t.mem = storeMem s.params s.mem (ps.zip [v.limit.extractLsb' 0 8, v.limit.extractLsb' 8 8, v.base.extractLsb' 0 8,
        v.base.extractLsb' 8 8, v.base.extractLsb' 16 8, v.base.extractLsb' 24 8]) ∧ t.pc = pcAfter s i
    ((∀ pa ∈ ps, s.romDescriptor pa = false) → ∃ t, exec i s = .next t ∧ done t) ∧
    (exec i s = .fault .hang ∨ ∃ t, exec i s = .next t ∧ done t)

/-! ## LGDT and LLDT -/

/-- R164: at CPL 0 LGDT loads GDTR.limit from the word at EA and GDTR.base from the doubleword at EA + 2, where all six offsets
pass the checks of a 6-byte read (log 18). (pc modulo 2^32: log 28.) -/
def Obligations.LgdtLoadsGdtr : Prop :=
  ∀ (s : State) (m : Mem) (la : Word) (b0 b1 b2 b3 b4 b5 : Byte), s.cpl = 0 →
    segAccess s (operandSeg s m) (effAddr s m) 6 .read = .ok la →
    segRead s .operand (operandSeg s m) (effAddr s m) 2 = .ok [b0, b1] →
    segRead s .tableBase (operandSeg s m) (effAddr s m + 2) 4 = .ok [b2, b3, b4, b5] →
    ∃ t, exec (.lgdt m) s = .next t ∧ t.gdtr.limit = b1 ++ b0 ∧ t.gdtr.base = b5 ++ b4 ++ b3 ++ b2 ∧
      t.pc = pcAfter s (.lgdt m)

/-- R165: at CPL 0 LLDT of a null selector leaves LDTR null, and of a selector of the GDT that names a present LDT descriptor loads LDTR from it;
memory is not written. (pc modulo 2^32: log 28.) -/
def Obligations.LldtLoadsLdtr : Prop :=
  ∀ (s : State) (src : RM) (sel : Sel), s.cpl = 0 → readRM16 s src = .ok sel →
    (isNull sel = true →
      ∃ t, exec (.lldt src) s = .next t ∧ t.ldtr.sel = sel ∧ t.mem = s.mem ∧ t.pc = pcAfter s (.lldt src)) ∧
    (∀ (a : Word) (d : BitVec 64), isNull sel = false → sel.getLsbD 2 = false → descAddr s sel = .ok a → readDesc s a = .ok d →
      (descAttr d).s = false → (descAttr d).type = 2 → (descAttr d).p = true →
      ∃ t, exec (.lldt src) s = .next t ∧ t.ldtr = ⟨sel, descBase d, descLimit d, descAttr d⟩ ∧ t.mem = s.mem ∧
        t.pc = pcAfter s (.lldt src))

/-- R165: LLDT takes #GP(sel) for a selector with TI = 1, then the exception of DescAddr or the page fault of the descriptor's read, then #GP(sel)
for a descriptor that is no LDT and #NP(sel) for an LDT descriptor with P = 0. -/
def Obligations.LldtChecksTheDescriptor : Prop :=
  ∀ (s : State) (src : RM) (sel : Sel), s.cpl = 0 → readRM16 s src = .ok sel → isNull sel = false →
    (sel.getLsbD 2 = true → exec (.lldt src) s = .fault (exceptionAt s .gp (.selector sel))) ∧
    (∀ e : Fault, sel.getLsbD 2 = false → selDesc s sel = .error (.fault e) → exec (.lldt src) s = .fault e) ∧
    (∀ (a : Word) (d : BitVec 64), sel.getLsbD 2 = false → descAddr s sel = .ok a → readDesc s a = .ok d →
      ((descAttr d).s = true ∨ (descAttr d).type ≠ 2 → exec (.lldt src) s = .fault (exceptionAt s .gp (.selector sel))) ∧
      ((descAttr d).s = false → (descAttr d).type = 2 → (descAttr d).p = false →
        exec (.lldt src) s = .fault (exceptionAt s .np (.selector sel))))

/-- R164, R165, R171: LGDT and LLDT take #GP(0) at any CPL but 0. -/
def Obligations.TableLoadsNeedLevelZero : Prop :=
  ∀ (s : State) (m : Mem) (src : RM), s.cpl ≠ 0 →
    exec (.lgdt m) s = .fault (exceptionAt s .gp .zero) ∧ exec (.lldt src) s = .fault (exceptionAt s .gp .zero)

/-! ## Far transfers -/

/-- R142, R71: a far JMP to a code segment that passes the checks loads CS with CPL in its RPL field, sets the accessed bit, and goes to the offset.
The 16-bit in-line offset and memory pointer, zero-extended, are the model's choice (log 17). -/
def Obligations.FarJmpLoadsCs : Prop :=
  ∀ (s : State) (i : Instr) (p : FarPtr) (a : Word) (d : BitVec 64), JmpTo s i p → CsLoadable s p.sel a d →
    AccessedBitCanBeSet s a d →
    ∃ t, exec i s = .next t ∧ t.segs.cs = loadedReg (p.sel.extractLsb' 2 14 ++ s.cpl) d ∧
      AccessedBitSet s s.mem t.mem a d ∧ t.pc = p.off ∧ t.cpl = s.cpl

/-- R141, R71: a far CALL pushes the zero-extended CS selector and the offset after the instruction, four bytes each, then loads CS
as a far JMP does.
That the forms with a 16-bit offset zero-extend it and push four bytes twice is the model's choice (log 17). R206: where a push falls on a
descriptor in ROM (log 31) the instruction does so or hangs. -/
def Obligations.FarCallPushesAndLoadsCs : Prop :=
  ∀ (s : State) (i : Instr) (p : FarPtr) (a : Word) (d : BitVec 64) (la1 la2 : Word) (ps1 ps2 : List Nat),
    let sp0 : Word := if s.segs.ss.attr.db then s.reg .esp else ((s.reg .esp).extractLsb' 0 16).zeroExtend 32
    let sp1 := spAfterPush s sp0
    let sp2 := spAfterPush s sp1
    CallTo s i p → CsLoadable s p.sel a d → AccessedBitCanBeSet s a d →
    segAccess s .ss sp1 4 .write = .ok la1 → walk s la1 .write 4 = .ok ps1 →
    segAccess s .ss sp2 4 .write = .ok la2 → walk s la2 .write 4 = .ok ps2 →
    let done (t : State) : Prop := t.segs.cs = loadedReg (p.sel.extractLsb' 2 14 ++ s.cpl) d ∧
      AccessedBitSet s (memAfterPushes s i ps1 ps2) t.mem a d ∧ t.reg .esp = espAfterPush s sp2 ∧
      t.pc = p.off ∧ t.cpl = s.cpl
    ((∀ pa ∈ ps1 ++ ps2, s.romDescriptor pa = false) → ∃ t, exec i s = .next t ∧ done t) ∧
    (exec i s = .fault .hang ∨ ∃ t, exec i s = .next t ∧ done t)

/-- R71 steps 1 to 7, R178, R68, R140: a far CALL or JMP takes #GP(0) for a null selector, is refused for a descriptor with S = 0, takes #GP(sel) for
a data segment, for a conforming target of DPL > CPL, and for a nonconforming one with DPL other than CPL or RPL > CPL, and #NP(sel) for P = 0.
A selector beyond its table's limit takes the exception of DescAddr (step 2), a descriptor that cannot be read its page fault (step 3). Where A is
clear the page fault of the accessed bit's write comes last, in CALL after both pushes (step 7; log 25). The 16-bit forms are log 17. -/
def Obligations.FarTransferChecksInOrder : Prop :=
  ∀ (s : State) (i : Instr) (p : FarPtr), JmpTo s i p ∨ CallTo s i p →
    (isNull p.sel = true → exec i s = .fault (exceptionAt s .gp .zero)) ∧
    (∀ e : Fault, isNull p.sel = false → selDesc s p.sel = .error (.fault e) → exec i s = .fault e) ∧
    (∀ (a : Word) (d : BitVec 64) (ps1 ps2 : List Nat), CsLoadable s p.sel a d → (descAttr d).accessed = false →
      (CallTo s i p → storeAddrs s .ss (spAfterPush s s.stackPtr) 4 = .ok ps1 ∧
        storeAddrs s .ss (spAfterPush s (spAfterPush s s.stackPtr)) 4 = .ok ps2) →
      AccessedBitOutcome s a (ps1 ++ ps2) (exec i s)) ∧
    (∀ (a : Word) (d : BitVec 64), isNull p.sel = false → descAddr s p.sel = .ok a → readDesc s a = .ok d →
      let ty := (descAttr d).type
      let privBad := if ty.getLsbD 2 = true then s.cpl.toNat < (descAttr d).dpl.toNat
        else (descAttr d).dpl ≠ s.cpl ∨ s.cpl.toNat < (selRPL p.sel).toNat
      ((descAttr d).s = false → exec i s = .refused .gateOrSystemDescriptor) ∧
      ((descAttr d).s = true → (ty.getLsbD 3 = false ∨ privBad) →
        exec i s = .fault (exceptionAt s .gp (.selector p.sel))) ∧
      ((descAttr d).s = true → ty.getLsbD 3 = true → ¬privBad → (descAttr d).p = false →
        exec i s = .fault (exceptionAt s .np (.selector p.sel))))

/-- R143 to R149: RET far, RET far imm16, SYSENTER, SYSEXIT, IRET, INT n, INTO and INT3 are refused, each by its name. -/
def Obligations.UndescribedTransfersAreRefused : Prop :=
  ∀ (s : State) (imm : BitVec 16) (n : Byte),
    exec .retFar s = .refused .retFarNotInSource ∧ exec (.retFarImm imm) s = .refused .retFarNotInSource ∧
    exec .sysenter s = .refused .sysenterNotInSource ∧ exec .sysexit s = .refused .sysexitNotInSource ∧
    exec .iret s = .refused .iretNotInSource ∧ exec (.intN n) s = .refused .intNNotInSource ∧
    exec .into s = .refused .intoNotInSource ∧ exec .int3 s = .refused .int3NotInSource

/-! ## Prefix bytes -/

/-- R102 to R104: a prefix byte selects, for the instruction after it, the operand size or address size other than the default of CS, or the segment
register of the memory operand, is counted as one byte of it, and changes nothing else. That a second 66H or 67H changes nothing more and that
the last override counts is the model's choice (log 15); the overrides other than CS are admitted by log 16; the latch is the model's (log 14). -/
def Obligations.PrefixBytesAreLatched : Prop :=
  ∀ (s : State) (sr : SReg) (m : Mem),
    (∃ t, exec .opSizeByte s = .next t ∧ t.op32 = !s.segs.cs.attr.db ∧ t.addr32 = s.addr32 ∧
      (∀ len, t.nextPc len = s.nextPc (len + 1)) ∧ { t with pfx := s.pfx } = s) ∧
    (∃ t, exec .addrSizeByte s = .next t ∧ t.addr32 = !s.segs.cs.attr.db ∧ t.op32 = s.op32 ∧
      (∀ len, t.nextPc len = s.nextPc (len + 1)) ∧ { t with pfx := s.pfx } = s) ∧
    (∃ t, exec (.segOverrideByte sr) s = .next t ∧ operandSeg t m = sr ∧ t.op32 = s.op32 ∧ t.addr32 = s.addr32 ∧
      (∀ len, t.nextPc len = s.nextPc (len + 1)) ∧ { t with pfx := s.pfx } = s)

/-! ## Frames -/

/-- R120, R13: MOV to a segment register changes that register, the pc, and the accessed bit's byte alone. -/
def Obligations.MovToSregFrame : Prop :=
  ∀ (s t : State) (sr : SReg) (src : RM) (sel : Sel), readRM16 s src = .ok sel → exec (.movToSreg sr src) s = .next t →
    KeepsExcept s t [] [sr] (accessedBitStored s sel)

/-- R122: POP changes its segment register, the stack pointer, the pc, and the accessed bit's byte alone. -/
def Obligations.PopSregFrame : Prop :=
  ∀ (s t : State) (sr : SReg) (i : Instr) (v : List Byte), (i, sr) ∈ popForms →
    segRead s .stack .ss s.stackPtr s.opBytes = .ok v → exec i s = .next t →
    KeepsExcept s t [.esp] [sr] (accessedBitStored s (le16 (v.take 2)))

/-- R123: LDS, LES, LSS, LFS and LGS change their two registers, the pc, and the accessed bit's byte alone. -/
def Obligations.FarPointerLoadFrame : Prop :=
  ∀ (s t : State) (sr : SReg) (i : Instr) (r : Reg) (m : Mem) (p : FarPtr), (i, sr) ∈ farLoadForms r m →
    readFarPtr s m = .ok p → exec i s = .next t → KeepsExcept s t [r] [sr] (accessedBitStored s p.sel)

/-- R121, R162, R163: the register forms of MOV r/m16, Sreg, SLDT and STR change that register and the pc alone; the memory forms change
the pc and the two bytes stored alone. -/
def Obligations.SelectorStoreFrame : Prop :=
  ∀ (s t : State) (i : Instr) (v : Sel), exec i s = .next t →
    (∀ r : Reg, (i, v) ∈ selStoreForms s (.reg r) → KeepsExcept s t [r] [] []) ∧
    (∀ m : Mem, (i, v) ∈ selStoreForms s (.mem m) →
      KeepsExcept s t [] [] (bytesStored s (operandSeg s m) (effAddr s m) 2))

/-- R160, R161, R13: SGDT and SIDT change the pc and the six bytes stored alone; a descriptor they overwrite does not reach a segment register. -/
def Obligations.PseudoDescriptorStoreFrame : Prop :=
  ∀ (s t : State) (m : Mem) (i : Instr) (v : TableReg), (i, v) ∈ tableStoreForms s m → exec i s = .next t →
    KeepsExcept s t [] [] (bytesStored s (operandSeg s m) (effAddr s m) 6)

/-- R164, R165, R13: LGDT changes GDTR and the pc alone, LLDT changes LDTR and the pc alone: no segment register is reloaded. -/
def Obligations.TableLoadFrame : Prop :=
  ∀ (s t : State) (m : Mem) (src : RM),
    (exec (.lgdt m) s = .next t → KeepsExcept s { t with gdtr := s.gdtr } [] [] []) ∧
    (exec (.lldt src) s = .next t → KeepsExcept s { t with ldtr := s.ldtr } [] [] [])

/-- R141, R142: a far JMP changes CS, the pc and the accessed bit's byte alone; a far CALL also the stack pointer and the eight bytes pushed.
The eight bytes of the forms with a 16-bit offset are the model's choice (log 17). -/
def Obligations.FarTransferFrame : Prop :=
  ∀ (s t : State) (i : Instr) (p : FarPtr), exec i s = .next t →
    (JmpTo s i p → KeepsExcept s t [] [.cs] (accessedBitStored s p.sel)) ∧
    (CallTo s i p → KeepsExcept s t [.esp] [.cs]
      (bytesStored s .ss (spAfterPush s s.stackPtr) 4 ++ bytesStored s .ss (spAfterPush s (spAfterPush s s.stackPtr)) 4 ++
        accessedBitStored s p.sel))

/-! ## The whole machine -/

/-- R16, R141, R142, R164, R165: of the well-formed instructions only far CALL and JMP write CS, only LGDT writes GDTR, only LLDT writes LDTR. -/
def Obligations.OnlyTheirInstructionsWriteCsGdtrLdtr : Prop :=
  ∀ (s t : State) (i : Instr) (op32 : Bool), i.wf op32 = true → exec i s = .next t →
    (t.segs.cs = s.segs.cs ∨ (∃ off sel, i = .callPtr off sel ∨ i = .jmpPtr off sel) ∨ ∃ m, i = .callMem m ∨ i = .jmpMem m) ∧
    (t.gdtr = s.gdtr ∨ ∃ m, i = .lgdt m) ∧ (t.ldtr = s.ldtr ∨ ∃ src, i = .lldt src)

/-- R184, R31, R161, R163: no step changes CPL, the parameters, IDTR or TR. -/
def Obligations.StepKeepsCplParametersIdtrTr : Prop :=
  ∀ s t : State, step s = .next t → t.cpl = s.cpl ∧ t.params = s.params ∧ t.idtr = s.idtr ∧ t.trSel = s.trSel

/-- R164, R165, R184: no step at a level other than 0 changes GDTR or LDTR. -/
def Obligations.TableRegistersArePrivileged : Prop :=
  ∀ s t : State, s.cpl ≠ 0 → step s = .next t → t.gdtr = s.gdtr ∧ t.ldtr = s.ldtr

/-- R203, R70, R71, R165: every step keeps the invariant: the memory's canonical form and range; CS a present code segment that CPL may run, with
CPL in its RPL field; SS a writable data segment with RPL = DPL = CPL; DS, ES, FS, GS null or loaded under the checks; LDTR null or a
present LDT, no GDT entry being asked for (the model's reading of R203 (e), log 29). -/
def Obligations.StepKeepsTheInvariant : Prop :=
  ∀ s t : State, s.Inv → step s = .next t → t.Inv

/-- R203: the reset state is a launch state, so the invariant holds in it. The values are the model's choice (log 1, log 2, log 4), and so is the
reading of R203 (e) (log 29). -/
def Obligations.ResetIsALaunchState : Prop :=
  State.reset.LaunchOk

/-- R200, R30: at reset the next instruction is fetched at FFFF_FFF0H and DS.base is 0. -/
def Obligations.ResetVectorAndDsBase : Prop :=
  State.reset.segs.cs.base + State.reset.pc = 0xFFFFFFF0 ∧
  translate State.reset (State.reset.segs.cs.base + State.reset.pc) .read = .ok 0xFFFFFFF0 ∧
  State.reset.segs.ds.base = 0

/-- R214: a run is over in the first state in which the next fetch is at EndAddr: from there no step is made, and from every other state the run
goes on from the step's next state or ends in its fault or refusal. -/
def Obligations.RunEndsAtEndAddr : Prop :=
  ∀ (s : State) (n : Nat),
    (s.segs.cs.base + s.pc = s.params.endAddr → runToEnd n s = .next s) ∧
    (s.segs.cs.base + s.pc ≠ s.params.endAddr →
      (∀ t, step s = .next t → runToEnd (n + 1) s = runToEnd n t) ∧ (∀ f, step s = .fault f → runToEnd (n + 1) s = .fault f) ∧
      ∀ r, step s = .refused r → runToEnd (n + 1) s = .refused r)
end

