-- ==== Sys2Proof/Laws/Encoding.lean ====
section
/-! SUPPORT. Fields of the encoding: what is put into a byte or a little-endian field is taken out of it again. -/

namespace Sys2Proof

@[simp] theorem modOf_packByte (m : BitVec 2) (reg rm : BitVec 3) : modOf (packByte m reg rm) = m := by
  revert m reg rm; decide

@[simp] theorem regOf_packByte (m : BitVec 2) (reg rm : BitVec 3) : regOf (packByte m reg rm) = reg := by
  revert m reg rm; decide

@[simp] theorem rmOf_packByte (m : BitVec 2) (reg rm : BitVec 3) : rmOf (packByte m reg rm) = rm := by
  revert m reg rm; decide

@[simp] theorem packByte_fields (b : Byte) : packByte (modOf b) (regOf b) (rmOf b) = b := by revert b; decide

@[simp] theorem Reg.ofBits_toBits (r : Reg) : Reg.ofBits r.toBits = r := by cases r <;> rfl

@[simp] theorem Reg.toBits_ofBits (b : BitVec 3) : (Reg.ofBits b).toBits = b := by revert b; decide

@[simp] theorem SReg.ofBits_toBits (r : SReg) : SReg.ofBits r.toBits = some r := by cases r <;> rfl

theorem SReg.toBits_of_ofBits {b : BitVec 3} {r : SReg} (h : SReg.ofBits b = some r) : r.toBits = b := by
  revert b r; intro b r; cases r <;> revert b <;> decide

@[simp] theorem take8_cons (b : Byte) (bs : List Byte) : take8 (b :: bs) = .ok (b, bs) := rfl

theorem halves_append {n m : Nat} (v : BitVec (n + m)) (hi : BitVec n) (lo : BitVec m) (h1 : v.extractLsb' m n = hi)
    (h2 : v.extractLsb' 0 m = lo) : hi ++ lo = v := by
  subst h1 h2
  ext i hi
  simp only [BitVec.getElem_append, BitVec.getElem_extractLsb']
  split
  · rw [Nat.zero_add, BitVec.getLsbD_eq_getElem]
  · rw [show m + (i - m) = i by omega, BitVec.getLsbD_eq_getElem]

theorem take16_put16 (v : BitVec 16) (rest : List Byte) : take16 (put16 v ++ rest) = .ok (v, rest) := by
  have h : v.extractLsb' 8 8 ++ v.extractLsb' 0 8 = v := halves_append (n := 8) (m := 8) v _ _ rfl rfl
  simp [put16, take16, h]

theorem take32_put32 (v : Word) (rest : List Byte) : take32 (put32 v ++ rest) = .ok (v, rest) := by
  have h : v.extractLsb' 24 8 ++ v.extractLsb' 16 8 ++ v.extractLsb' 8 8 ++ v.extractLsb' 0 8 = v := by
    refine halves_append (n := 24) (m := 8) v _ _ ?_ rfl
    refine (halves_append (n := 16) (m := 8) (v.extractLsb' 8 24) _ _ ?_ ?_).symm
    · refine (halves_append (n := 8) (m := 8) _ _ _ ?_ ?_).symm <;>
        (ext i hi; simp [Nat.add_comm, Nat.add_left_comm]; rw [decide_eq_true (by omega), decide_eq_true (by omega)]; simp)
    · ext i hi; simp; try omega
  simp [put32, take32, h]

end Sys2Proof
end

