-- ==== Sys2Proof/Laws/Memory.lean ====
section
/-! SUPPORT. Reads after writes, and the canonical form every memory operation keeps. -/

namespace Sys2Proof.Machine

theorem Memory.read_erase_self (m : Memory) (a : Nat) : (m.erase a).read a = unlistedByte := by
  induction m with
  | nil => rfl
  | cons c m ih =>
    obtain ⟨k, v⟩ := c
    by_cases h : k = a <;> simp_all [Memory.erase, Memory.read]

theorem Memory.read_erase_other (m : Memory) {a b : Nat} (h : b ≠ a) : (m.erase a).read b = m.read b := by
  induction m with
  | nil => rfl
  | cons c m ih =>
    obtain ⟨k, v⟩ := c
    by_cases hk : k = a
    · subst hk
      simpa [Memory.erase, Memory.read, Ne.symm h] using ih
    · simp only [Memory.erase, List.filter, bne_iff_ne.mpr hk, Memory.read]
      split
      · rfl
      · simpa [Memory.erase] using ih

theorem Memory.read_insert_other (m : Memory) {a b : Nat} (v : Byte) (h : b ≠ a) : (m.insert a v).read b = m.read b := by
  induction m with
  | nil => simp [Memory.insert, Memory.read, Ne.symm h]
  | cons c m ih =>
    obtain ⟨k, w⟩ := c
    unfold Memory.insert
    split <;> simp [Memory.read, Ne.symm h, ih]

theorem Memory.read_insert_self (m : Memory) (a : Nat) (v : Byte) (h : ∀ c ∈ m, c.1 ≠ a) : (m.insert a v).read a = v := by
  induction m with
  | nil => simp [Memory.insert, Memory.read]
  | cons c m ih =>
    obtain ⟨k, w⟩ := c
    have hk : k ≠ a := h (k, w) (by simp)
    unfold Memory.insert
    split
    · simp [Memory.read]
    · simp [Memory.read, hk, ih fun c hc => h c (by simp [hc])]

theorem Memory.erase_keys (m : Memory) (a : Nat) : ∀ c ∈ m.erase a, c.1 ≠ a := by
  simp [Memory.erase]

/-- A read after a write to the same address gives the byte written. -/
theorem Memory.read_write_self (m : Memory) (a : Nat) (v : Byte) : (m.write a v).read a = v := by
  unfold Memory.write
  split
  · next h => rw [Memory.read_erase_self, h]
  · exact Memory.read_insert_self _ _ _ (m.erase_keys a)

/-- A write leaves every other address alone. -/
theorem Memory.read_write_other (m : Memory) {a b : Nat} (v : Byte) (h : b ≠ a) : (m.write a v).read b = m.read b := by
  unfold Memory.write
  split
  · exact m.read_erase_other h
  · rw [Memory.read_insert_other _ _ h, m.read_erase_other h]

theorem Memory.mem_insert (m : Memory) (a : Nat) (v : Byte) (c : Host.Cell) : c ∈ m.insert a v ↔ c = (a, v) ∨ c ∈ m := by
  induction m with
  | nil => simp [Memory.insert]
  | cons d m ih =>
    unfold Memory.insert
    split
    · simp
    · simp only [List.mem_cons, ih]; tauto

theorem Memory.erase_wf {m : Memory} (h : m.wf) (a : Nat) : (m.erase a).wf := by
  refine ⟨?_, fun c hc => h.2 c (List.mem_of_mem_filter hc)⟩
  exact h.1.sublist ((List.filter_sublist (l := m)).map Prod.fst)

theorem Memory.insert_sorted (m : Memory) (a : Nat) (v : Byte) (hs : (m.map Prod.fst).Pairwise (· < ·))
    (ha : ∀ c ∈ m, c.1 ≠ a) : ((m.insert a v).map Prod.fst).Pairwise (· < ·) := by
  induction m with
  | nil => simp [Memory.insert]
  | cons d m ih =>
    obtain ⟨k, w⟩ := d
    have hk : k ≠ a := ha (k, w) (by simp)
    simp only [List.map_cons, List.pairwise_cons, List.mem_map] at hs
    unfold Memory.insert
    split
    · next hak =>
      simp only [List.map_cons, List.pairwise_cons, List.mem_cons, List.mem_map]
      refine ⟨?_, fun b hb => hs.1 b hb, hs.2⟩
      rintro b (rfl | hb)
      · exact hak
      · exact lt_trans hak (hs.1 b hb)
    · simp only [List.map_cons, List.pairwise_cons, List.mem_map]
      refine ⟨?_, ih hs.2 fun c hc => ha c (by simp [hc])⟩
      rintro b ⟨c, hc, rfl⟩
      rcases (Memory.mem_insert _ _ _ _).mp hc with rfl | hc
      · simp only; omega
      · exact hs.1 _ ⟨c, hc, rfl⟩

theorem Memory.insert_wf {m : Memory} (h : m.wf) (a : Nat) (v : Byte) (hv : v ≠ unlistedByte) (ha : ∀ c ∈ m, c.1 ≠ a) :
    (m.insert a v).wf := by
  refine ⟨m.insert_sorted a v h.1 ha, fun c hc => ?_⟩
  rcases (Memory.mem_insert _ _ _ _).mp hc with rfl | hc
  · exact hv
  · exact h.2 c hc

/-- A write keeps the canonical form. -/
theorem Memory.write_wf {m : Memory} (h : m.wf) (a : Nat) (v : Byte) : (m.write a v).wf := by
  unfold Memory.write
  split
  · exact Memory.erase_wf h a
  · next hv => exact Memory.insert_wf (Memory.erase_wf h a) a v hv (m.erase_keys a)

theorem Memory.mem_write (m : Memory) (a : Nat) (v : Byte) {c : Host.Cell} (h : c ∈ m.write a v) : c.1 = a ∨ c ∈ m := by
  unfold Memory.write at h
  split at h
  · exact .inr (List.mem_of_mem_filter h)
  · rcases (Memory.mem_insert _ _ _ _).mp h with rfl | h
    · exact .inl rfl
    · exact .inr (List.mem_of_mem_filter h)

@[simp] theorem storeMem_nil (p : Params) (m : Memory) : storeMem p m [] = m := rfl

/-- A list of writes keeps the canonical form. -/
theorem storeMem_wf {p : Params} {m : Memory} (h : m.wf) (ws : List (Nat × Byte)) : (storeMem p m ws).wf := by
  induction ws generalizing m with
  | nil => exact h
  | cons w ws ih =>
    unfold storeMem
    split
    · exact ih (Memory.write_wf h _ _)
    · exact ih h

/-- A list of writes leaves every address it does not name alone. -/
theorem storeMem_read_other (p : Params) (m : Memory) (ws : List (Nat × Byte)) {a : Nat} (h : a ∉ ws.map Prod.fst) :
    (storeMem p m ws).read a = m.read a := by
  induction ws generalizing m with
  | nil => rfl
  | cons w ws ih =>
    simp only [List.map_cons, List.mem_cons, not_or] at h
    unfold storeMem
    rw [ih _ h.2]
    split
    · exact Memory.read_write_other _ _ h.1
    · rfl

/-- One write to RAM is read back. -/
theorem storeMem_read_one {p : Params} (m : Memory) {a : Nat} (v : Byte) (h : p.physClass a = .ram) :
    (storeMem p m [(a, v)]).read a = v := by
  simp [storeMem, h, Memory.read_write_self]

theorem storeMem_append (p : Params) (m : Memory) (ws xs : List (Nat × Byte)) :
    storeMem p m (ws ++ xs) = storeMem p (storeMem p m ws) xs := by
  induction ws generalizing m with
  | nil => rfl
  | cons w ws ih => exact ih _

/-- Every address listed after a list of writes was listed before or is named by a write. -/
theorem storeMem_mem {p : Params} {m : Memory} {ws : List (Nat × Byte)} {c : Host.Cell} (h : c ∈ storeMem p m ws) :
    c.1 ∈ ws.map Prod.fst ∨ c ∈ m := by
  induction ws generalizing m with
  | nil => exact .inr h
  | cons w ws ih =>
    unfold storeMem at h
    rcases ih h with h | h
    · exact .inl (by simp [h])
    · split at h
      · rcases Memory.mem_write _ _ _ h with h | h
        · exact .inl (by simp [h])
        · exact .inr h
      · exact .inr h

end Sys2Proof.Machine
end

