-- ==== Sys2Proof/Laws/Missing.lean ====
section
/-! SUPPORT. The decoder on bytes that end too early: how many bytes are missing. -/

namespace Sys2Proof

/-- A decoder consumes at least `n` bytes. -/
def Consumes {α : Type} (n : Nat) (f : List Byte → Decoded α) : Prop :=
  ∀ bs x rest, f bs = .ok (x, rest) → rest.length + n ≤ bs.length

/-- A decoder of the front of its bytes: it accepts the same with more bytes behind, it gives back no more than it was given, and where it
misses `k` bytes, whatever it accepts of the bytes lengthened consumes at least `k` of those added. -/
structure Incremental {α : Type} (f : List Byte → Decoded α) : Prop where
  extend : ∀ bs more x rest, f bs = .ok (x, rest) → f (bs ++ more) = .ok (x, rest ++ more)
  consumes : Consumes 0 f
  missing : ∀ bs more k x rest, f bs = .error (.truncated k) → f (bs ++ more) = .ok (x, rest) → k + rest.length ≤ more.length

section
variable {α β : Type}

@[simp] theorem before_truncated {n k : Nat} {e : DecodeError} :
    e.before n = .truncated k ↔ ∃ j, e = .truncated j ∧ k = j + n := by
  cases e <;> simp [DecodeError.before, eq_comm]

theorem before_zero (e : DecodeError) : e.before 0 = e := by cases e <;> rfl

theorem Incremental.error {e : DecodeError} (h : ∀ k, e ≠ .truncated k) : Incremental (fun _ => (.error e : Decoded α)) :=
  ⟨fun _ _ _ _ h => by simp at h, fun _ _ _ h => by simp at h, fun _ _ k _ _ h' => by simp at h'; exact absurd h' (h k)⟩

theorem Incremental.congr {f g : List Byte → Decoded α} (h : Incremental g) (e : ∀ bs, f bs = g bs) : Incremental f := by rwa [funext e]

theorem Incremental.pure (x : α) : Incremental (fun bs => (.ok (x, bs) : Decoded α)) :=
  ⟨fun _ _ _ _ h => by simp_all, fun _ _ _ h => by simp at h; simp [h], fun _ _ _ _ _ h => by simp at h⟩

theorem Consumes.map {n : Nat} {p : List Byte → Decoded α} (h : Consumes n p) (f : α → β) :
    Consumes n (fun bs => (p bs).map fun (x, bs) => (f x, bs)) := by
  intro bs y rest e
  cases hp : p bs with
  | error _ => simp [hp, Except.map] at e
  | ok r => simp only [hp, Except.map, Except.ok.injEq, Prod.mk.injEq] at e; rw [← e.2]; exact h bs r.1 r.2 hp

/-- One decoder after another: where the first misses bytes, those the second consumes at least are missing too. -/
theorem Incremental.seq {n : Nat} {p : List Byte → Decoded α} {g : α → List Byte → Decoded β} (hp : Incremental p)
    (hg : ∀ x, Incremental (g x)) (hn : ∀ x, Consumes n (g x)) :
    Incremental (fun bs => match p bs with
      | .error e => .error (e.before n)
      | .ok (x, bs) => g x bs) := by
  refine ⟨fun bs more y rest e => ?_, fun bs y rest e => ?_, fun bs more k y rest e e' => ?_⟩
  · cases h : p bs with
    | error _ => simp [h] at e
    | ok r => simp only [h] at e; simp only [hp.extend bs more r.1 r.2 h]; exact (hg r.1).extend _ _ _ _ e
  · cases h : p bs with
    | error _ => simp [h] at e
    | ok r => simp only [h] at e; exact ((hg r.1).consumes _ _ _ e).trans (hp.consumes _ r.1 r.2 h)
  · cases h : p bs with
    | ok r => simp only [h] at e; simp only [hp.extend bs more r.1 r.2 h] at e'; exact (hg r.1).missing _ _ _ _ _ e e'
    | error d =>
      simp only [h, Except.error.injEq, before_truncated] at e
      obtain ⟨j, rfl, rfl⟩ := e
      cases hq : p (bs ++ more) with
      | error _ => simp [hq] at e'
      | ok r =>
        simp only [hq] at e'
        have := hp.missing bs more j r.1 r.2 h hq
        have := hn r.1 _ _ _ e'
        omega

theorem Incremental.then {p : List Byte → Decoded α} {g : α → List Byte → Decoded β} (hp : Incremental p) (hg : ∀ x, Incremental (g x)) :
    Incremental (fun bs => match p bs with
      | .error e => .error e
      | .ok (x, bs) => g x bs) := by
  simpa only [before_zero] using hp.seq hg fun x => (hg x).consumes

/-- A decoder that takes one byte first. -/
theorem Incremental.byte {f : List Byte → Decoded α} (h0 : f [] = .error (.truncated 1)) (h : ∀ b, Incremental fun bs => f (b :: bs)) :
    Incremental f := by
  refine ⟨?_, ?_, ?_⟩
  · rintro (_ | ⟨b, bs⟩) more x rest e
    · simp [h0] at e
    · exact (h b).extend bs more x rest e
  · rintro (_ | ⟨b, bs⟩) x rest e
    · simp [h0] at e
    · exact ((h b).consumes bs x rest e).trans (Nat.le_succ _)
  · rintro (_ | ⟨b, bs⟩) more k x rest e e'
    · simp only [h0, Except.error.injEq, DecodeError.truncated.injEq] at e
      subst e
      rcases more with _ | ⟨b, more⟩
      · simp [h0] at e'
      · have := (h b).consumes more x rest e'
        simp only [List.length_cons]; omega
    · exact (h b).missing bs more k x rest e e'

theorem Incremental.map {p : List Byte → Decoded α} (h : Incremental p) (f : α → β) :
    Incremental (fun bs => (p bs).map fun (x, bs) => (f x, bs)) := by
  refine (h.then fun x => .pure (f x)).congr fun bs => ?_
  cases p bs <;> rfl

end

theorem take8_incremental : Incremental take8 := by
  refine ⟨?_, ?_, ?_⟩
  · rintro (_ | ⟨a, bs⟩) more x rest h <;> simp_all [take8]
  · rintro (_ | ⟨a, bs⟩) x rest h <;> simp [take8] at h
    simp [← h.2]
  · rintro (_ | ⟨a, bs⟩) more k x rest h h' <;> simp [take8] at h
    subst h; cases more <;> simp [take8] at h'
    simp [← h'.2, Nat.add_comm]

theorem take16_incremental : Incremental take16 := by
  refine ⟨?_, ?_, ?_⟩
  · rintro (_ | ⟨a, _ | ⟨b, bs⟩⟩) more x rest h <;> simp_all [take16]
  · rintro (_ | ⟨a, _ | ⟨b, bs⟩⟩) x rest h <;> simp [take16] at h
    simp [← h.2]; omega
  · rintro (_ | ⟨a, _ | ⟨b, bs⟩⟩) (_ | ⟨c, _ | ⟨d, more⟩⟩) k x rest h h' <;> simp [take16] at h h' <;>
      simp [← h'.2, ← h] <;> omega

theorem take32_incremental : Incremental take32 := by
  refine ⟨?_, ?_, ?_⟩
  · rintro (_ | ⟨a, _ | ⟨b, _ | ⟨c, _ | ⟨d, bs⟩⟩⟩⟩) more x rest h <;> simp_all [take32]
  · rintro (_ | ⟨a, _ | ⟨b, _ | ⟨c, _ | ⟨d, bs⟩⟩⟩⟩) x rest h <;> simp [take32] at h
    simp [← h.2]; omega
  · rintro (_ | ⟨a, _ | ⟨b, _ | ⟨c, _ | ⟨d, bs⟩⟩⟩⟩) (_ | ⟨e, _ | ⟨f, _ | ⟨g, _ | ⟨i, more⟩⟩⟩⟩) k x rest h h' <;> simp [take32] at h h' <;>
      simp [← h'.2, ← h] <;> omega

theorem take8_consumes : Consumes 1 take8 := by
  rintro (_ | ⟨a, bs⟩) x rest h <;> simp [take8] at h
  simp [← h.2]

theorem take16_consumes : Consumes 2 take16 := by
  rintro (_ | ⟨a, _ | ⟨b, bs⟩⟩) x rest h <;> simp [take16] at h
  simp [← h.2]

theorem take32_consumes : Consumes 4 take32 := by
  rintro (_ | ⟨a, _ | ⟨b, _ | ⟨c, _ | ⟨d, bs⟩⟩⟩⟩) x rest h <;> simp [take32] at h
  simp [← h.2]

theorem decodeSib_incremental (m : BitVec 2) : Incremental (decodeSib m) := by
  refine (take8_incremental.seq (n := dispSize m) (g := fun s bs => (
    if m = 0 then
      if Reg.ofBits (rmOf s) = .ebp then (take32 bs).map fun (d, bs) => (.sibAbs (modOf s) (Reg.ofBits (regOf s)) d, bs)
      else .ok (.sib (modOf s) (Reg.ofBits (regOf s)) (Reg.ofBits (rmOf s)), bs)
    else if m = 1 then (take8 bs).map fun (d, bs) => (.sib8 (modOf s) (Reg.ofBits (regOf s)) (Reg.ofBits (rmOf s)) d, bs)
    else (take32 bs).map fun (d, bs) => (.sib32 (modOf s) (Reg.ofBits (regOf s)) (Reg.ofBits (rmOf s)) d, bs) : Decoded Mem)) (fun s => ?_) (fun s => ?_)).congr fun bs => by unfold decodeSib; cases take8 bs <;> rfl
  · split_ifs
    · exact take32_incremental.map (Mem.sibAbs _ _)
    · exact .pure _
    · exact take8_incremental.map (Mem.sib8 _ _ _)
    · exact take32_incremental.map (Mem.sib32 _ _ _)
  · unfold dispSize
    split_ifs
    · exact (take32_incremental.map (Mem.sibAbs _ _)).consumes
    · exact (Incremental.pure _).consumes
    · exact take8_consumes.map (Mem.sib8 _ _ _)
    · exact take32_consumes.map (Mem.sib32 _ _ _)

theorem decodeRM_incremental (addr32 : Bool) (b : Byte) : Incremental (decodeRM addr32 b) := by
  unfold decodeRM
  dsimp only
  split_ifs
  · exact .pure _
  · exact .error (by simp)
  · exact (decodeSib_incremental _).map RM.mem
  · exact take32_incremental.map fun d => RM.mem (.abs d)
  · exact .pure _
  · exact take8_incremental.map fun d => RM.mem (.base8 _ d)
  · exact take32_incremental.map fun d => RM.mem (.base32 _ d)

theorem decodeMem_incremental (addr32 : Bool) (b : Byte) : Incremental (decodeMem addr32 b) := by
  unfold decodeMem
  split_ifs
  · exact .error (by simp)
  · refine ((decodeRM_incremental addr32 b).then (g := fun rm bs => match rm with
      | .mem m => (.ok (m, bs) : Decoded Mem)
      | .reg _ => .error .invalidForm) fun rm => ?_).congr fun bs => by rcases decodeRM addr32 b bs with _ | ⟨_ | _, _⟩ <;> rfl
    cases rm
    · exact .error (by simp)
    · exact .pure _

theorem withRM_incremental (addr32 : Bool) (k : BitVec 3 → RM → Except DecodeError Instr) (hk : ∀ r m j, k r m ≠ .error (.truncated j)) :
    Incremental (fun bs => withRM addr32 bs k) :=
  (take8_incremental.then fun b => (decodeRM_incremental addr32 b).then (g := fun rm bs => (k (regOf b) rm).map fun i => (i, bs)) fun rm => by
    cases h : k (regOf b) rm with
    | ok i => exact .pure i
    | error e => exact .error fun j he => hk _ _ j (by rw [h, he])).congr fun bs => by
    unfold withRM
    rcases take8 bs with _ | ⟨b, bs⟩
    · rfl
    · dsimp only; cases decodeRM addr32 b bs <;> rfl

theorem withMem_incremental (addr32 : Bool) (k : BitVec 3 → Mem → Instr) : Incremental (fun bs => withMem addr32 bs k) :=
  (take8_incremental.then fun b => (decodeMem_incremental addr32 b).map (k (regOf b))).congr fun bs => by
    unfold withMem; cases take8 bs <;> rfl

theorem takePtr_incremental (op32 : Bool) (k : PtrOff → Sel → Instr) : Incremental (fun bs => takePtr op32 bs k) := by
  refine (Incremental.seq (n := 2) (p := takeOff op32) ?_ (fun off => take16_incremental.map (k off))
    fun off => take16_consumes.map (k off)).congr fun bs => by unfold takePtr; cases takeOff op32 bs <;> rfl
  unfold takeOff
  split_ifs
  · exact take32_incremental.map PtrOff.off32
  · exact take16_incremental.map PtrOff.off16

theorem decode0F_incremental (addr32 : Bool) : Incremental (decode0F addr32) := by
  have h00 : Incremental (decode0F00 addr32) := .byte rfl fun b => by
    dsimp only [decode0F00, take8]
    split_ifs
    · exact (decodeRM_incremental addr32 b).map Instr.sldt
    · exact (decodeRM_incremental addr32 b).map Instr.str
    · exact (decodeRM_incremental addr32 b).map Instr.lldt
    iterate 2 exact .error (by simp)
  have h01 : Incremental (decode0F01 addr32) := .byte rfl fun b => by
    dsimp only [decode0F01, take8]
    split_ifs
    · exact (decodeMem_incremental addr32 b).map Instr.sgdt
    · exact (decodeMem_incremental addr32 b).map Instr.sidt
    · exact (decodeMem_incremental addr32 b).map Instr.lgdt
    iterate 2 exact .error (by simp)
  refine .byte rfl fun b => ?_
  dsimp only [decode0F, take8]
  split
  · exact h00
  · exact h01
  iterate 4 exact .pure _
  iterate 3 exact withMem_incremental addr32 _
  exact .error (by simp)

/-- The decoder works on the front of its bytes, and the bytes it says are missing are at least so many. -/
theorem decode_incremental (op32 addr32 : Bool) : Incremental (decode op32 addr32) := by
  refine .byte rfl fun b => ?_
  dsimp only [decode, take8]
  split <;> first
    | exact .pure _
    | exact decode0F_incremental addr32
    | exact withMem_incremental addr32 _
    | exact takePtr_incremental op32 _
    | exact take16_incremental.map Instr.retFarImm
    | exact take8_incremental.map Instr.intN
    | exact .error (by simp)
    | skip
  · exact withRM_incremental addr32 _ fun r m j => by unfold movFromSregOf; split <;> simp
  · exact withRM_incremental addr32 _ fun r m j => by unfold movToSregOf; split <;> [simp; split <;> simp]
  · refine .byte rfl fun b => ?_
    dsimp only [decodeFF, take8]
    split_ifs
    · exact (decodeMem_incremental addr32 b).map Instr.callMem
    · exact (decodeMem_incremental addr32 b).map Instr.jmpMem
    exact .error (by simp)

end Sys2Proof
end

