-- ==== Sys2Proof/Laws/State.lean ====
section
/-! SUPPORT. What each update of the state leaves in each field. -/

namespace Sys2Proof.Machine

@[simp] theorem Gprs.get_set_self (g : Gprs) (r : Reg) (v : Word) : (g.set r v).get r = v := by cases r <;> rfl

theorem Gprs.get_set_other (g : Gprs) {r q : Reg} (v : Word) (h : q ≠ r) : (g.set r v).get q = g.get q := by
  cases r <;> cases q <;> first | rfl | exact absurd rfl h

@[simp] theorem SegFile.get_set_self (f : SegFile) (r : SReg) (v : SegReg) : (f.set r v).get r = v := by cases r <;> rfl

theorem SegFile.get_set_other (f : SegFile) {r q : SReg} (v : SegReg) (h : q ≠ r) : (f.set r v).get q = f.get q := by
  cases r <;> cases q <;> first | rfl | exact absurd rfl h

@[simp] theorem setReg_fields (s : State) (r : Reg) (v : Word) :
    (s.setReg r v).regs = s.regs.set r v ∧ (s.setReg r v).pc = s.pc ∧ (s.setReg r v).segs = s.segs ∧
    (s.setReg r v).gdtr = s.gdtr ∧ (s.setReg r v).ldtr = s.ldtr ∧ (s.setReg r v).idtr = s.idtr ∧
    (s.setReg r v).trSel = s.trSel ∧ (s.setReg r v).cpl = s.cpl ∧ (s.setReg r v).mem = s.mem ∧
    (s.setReg r v).params = s.params ∧ (s.setReg r v).pfx = s.pfx ∧ (s.setReg r v).clock = s.clock :=
  ⟨rfl, rfl, rfl, rfl, rfl, rfl, rfl, rfl, rfl, rfl, rfl, rfl⟩

@[simp] theorem setReg16_fields (s : State) (r : Reg) (v : BitVec 16) :
    (s.setReg16 r v).regs = s.regs.set r ((s.regs.get r).extractLsb' 16 16 ++ v) ∧ (s.setReg16 r v).pc = s.pc ∧
    (s.setReg16 r v).segs = s.segs ∧ (s.setReg16 r v).gdtr = s.gdtr ∧ (s.setReg16 r v).ldtr = s.ldtr ∧
    (s.setReg16 r v).idtr = s.idtr ∧ (s.setReg16 r v).trSel = s.trSel ∧ (s.setReg16 r v).cpl = s.cpl ∧
    (s.setReg16 r v).mem = s.mem ∧ (s.setReg16 r v).params = s.params ∧ (s.setReg16 r v).pfx = s.pfx ∧
    (s.setReg16 r v).clock = s.clock :=
  ⟨rfl, rfl, rfl, rfl, rfl, rfl, rfl, rfl, rfl, rfl, rfl, rfl⟩

@[simp] theorem setSeg_fields (s : State) (r : SReg) (v : SegReg) :
    (s.setSeg r v).regs = s.regs ∧ (s.setSeg r v).pc = s.pc ∧ (s.setSeg r v).segs = s.segs.set r v ∧
    (s.setSeg r v).gdtr = s.gdtr ∧ (s.setSeg r v).ldtr = s.ldtr ∧ (s.setSeg r v).idtr = s.idtr ∧
    (s.setSeg r v).trSel = s.trSel ∧ (s.setSeg r v).cpl = s.cpl ∧ (s.setSeg r v).mem = s.mem ∧
    (s.setSeg r v).params = s.params ∧ (s.setSeg r v).pfx = s.pfx ∧ (s.setSeg r v).clock = s.clock :=
  ⟨rfl, rfl, rfl, rfl, rfl, rfl, rfl, rfl, rfl, rfl, rfl, rfl⟩

@[simp] theorem setGdtr_fields (s : State) (v : TableReg) :
    (s.setGdtr v).regs = s.regs ∧ (s.setGdtr v).pc = s.pc ∧ (s.setGdtr v).segs = s.segs ∧
    (s.setGdtr v).gdtr = v ∧ (s.setGdtr v).ldtr = s.ldtr ∧ (s.setGdtr v).idtr = s.idtr ∧
    (s.setGdtr v).trSel = s.trSel ∧ (s.setGdtr v).cpl = s.cpl ∧ (s.setGdtr v).mem = s.mem ∧
    (s.setGdtr v).params = s.params ∧ (s.setGdtr v).pfx = s.pfx ∧ (s.setGdtr v).clock = s.clock :=
  ⟨rfl, rfl, rfl, rfl, rfl, rfl, rfl, rfl, rfl, rfl, rfl, rfl⟩

@[simp] theorem setLdtr_fields (s : State) (v : SegReg) :
    (s.setLdtr v).regs = s.regs ∧ (s.setLdtr v).pc = s.pc ∧ (s.setLdtr v).segs = s.segs ∧
    (s.setLdtr v).gdtr = s.gdtr ∧ (s.setLdtr v).ldtr = v ∧ (s.setLdtr v).idtr = s.idtr ∧
    (s.setLdtr v).trSel = s.trSel ∧ (s.setLdtr v).cpl = s.cpl ∧ (s.setLdtr v).mem = s.mem ∧
    (s.setLdtr v).params = s.params ∧ (s.setLdtr v).pfx = s.pfx ∧ (s.setLdtr v).clock = s.clock :=
  ⟨rfl, rfl, rfl, rfl, rfl, rfl, rfl, rfl, rfl, rfl, rfl, rfl⟩

@[simp] theorem store_fields (s : State) (ws : List (Nat × Byte)) :
    (s.store ws).regs = s.regs ∧ (s.store ws).pc = s.pc ∧ (s.store ws).segs = s.segs ∧
    (s.store ws).gdtr = s.gdtr ∧ (s.store ws).ldtr = s.ldtr ∧ (s.store ws).idtr = s.idtr ∧
    (s.store ws).trSel = s.trSel ∧ (s.store ws).cpl = s.cpl ∧ (s.store ws).mem = storeMem s.params s.mem ws ∧
    (s.store ws).params = s.params ∧ (s.store ws).pfx = s.pfx ∧ (s.store ws).clock = s.clock :=
  ⟨rfl, rfl, rfl, rfl, rfl, rfl, rfl, rfl, rfl, rfl, rfl, rfl⟩

@[simp] theorem finishAt_fields (s : State) (a : Word) :
    (s.finishAt a).regs = s.regs ∧ (s.finishAt a).pc = a ∧ (s.finishAt a).segs = s.segs ∧
    (s.finishAt a).gdtr = s.gdtr ∧ (s.finishAt a).ldtr = s.ldtr ∧ (s.finishAt a).idtr = s.idtr ∧
    (s.finishAt a).trSel = s.trSel ∧ (s.finishAt a).cpl = s.cpl ∧ (s.finishAt a).mem = s.mem ∧
    (s.finishAt a).params = s.params ∧ (s.finishAt a).pfx = PfxLatch.empty ∧ (s.finishAt a).clock = s.clock + 1 :=
  ⟨rfl, rfl, rfl, rfl, rfl, rfl, rfl, rfl, rfl, rfl, rfl, rfl⟩

@[simp] theorem advance_fields (s : State) (n : Nat) :
    (s.advance n).regs = s.regs ∧ (s.advance n).pc = s.nextPc n ∧ (s.advance n).segs = s.segs ∧
    (s.advance n).gdtr = s.gdtr ∧ (s.advance n).ldtr = s.ldtr ∧ (s.advance n).idtr = s.idtr ∧
    (s.advance n).trSel = s.trSel ∧ (s.advance n).cpl = s.cpl ∧ (s.advance n).mem = s.mem ∧
    (s.advance n).params = s.params ∧ (s.advance n).pfx = PfxLatch.empty ∧ (s.advance n).clock = s.clock + 1 :=
  ⟨rfl, rfl, rfl, rfl, rfl, rfl, rfl, rfl, rfl, rfl, rfl, rfl⟩

@[simp] theorem applyLoad_fields (s : State) (r : SReg) (ld : SegLoad) :
    (s.applyLoad r ld).regs = s.regs ∧ (s.applyLoad r ld).pc = s.pc ∧ (s.applyLoad r ld).segs = s.segs.set r ld.seg ∧
    (s.applyLoad r ld).gdtr = s.gdtr ∧ (s.applyLoad r ld).ldtr = s.ldtr ∧ (s.applyLoad r ld).idtr = s.idtr ∧
    (s.applyLoad r ld).trSel = s.trSel ∧ (s.applyLoad r ld).cpl = s.cpl ∧
    (s.applyLoad r ld).mem = storeMem s.params s.mem ld.writes ∧
    (s.applyLoad r ld).params = s.params ∧ (s.applyLoad r ld).pfx = s.pfx ∧ (s.applyLoad r ld).clock = s.clock :=
  ⟨rfl, rfl, rfl, rfl, rfl, rfl, rfl, rfl, rfl, rfl, rfl, rfl⟩

/-- A stack-pointer write touches ESP alone. -/
@[simp] theorem setStackPtr_fields (s : State) (big : Bool) (sp : Word) :
    (s.setStackPtr big sp).regs =
      s.regs.set .esp (if big then sp else s.regs.esp.extractLsb' 16 16 ++ sp.extractLsb' 0 16) ∧
    (s.setStackPtr big sp).pc = s.pc ∧ (s.setStackPtr big sp).segs = s.segs ∧
    (s.setStackPtr big sp).gdtr = s.gdtr ∧ (s.setStackPtr big sp).ldtr = s.ldtr ∧ (s.setStackPtr big sp).idtr = s.idtr ∧
    (s.setStackPtr big sp).trSel = s.trSel ∧ (s.setStackPtr big sp).cpl = s.cpl ∧ (s.setStackPtr big sp).mem = s.mem ∧
    (s.setStackPtr big sp).params = s.params ∧ (s.setStackPtr big sp).pfx = s.pfx ∧
    (s.setStackPtr big sp).clock = s.clock := by
  cases big <;> exact ⟨rfl, rfl, rfl, rfl, rfl, rfl, rfl, rfl, rfl, rfl, rfl, rfl⟩

/-- The value a register receives with a selector, R121. -/
@[simp] theorem setRegSel_fields (s : State) (r : Reg) (v : Sel) :
    (s.setRegSel r v).regs =
      s.regs.set r ((if s.op32 then Config.draw 16 s.clock .upperHalf else (s.regs.get r).extractLsb' 16 16) ++ v) ∧
    (s.setRegSel r v).pc = s.pc ∧ (s.setRegSel r v).segs = s.segs ∧
    (s.setRegSel r v).gdtr = s.gdtr ∧ (s.setRegSel r v).ldtr = s.ldtr ∧ (s.setRegSel r v).idtr = s.idtr ∧
    (s.setRegSel r v).trSel = s.trSel ∧ (s.setRegSel r v).cpl = s.cpl ∧ (s.setRegSel r v).mem = s.mem ∧
    (s.setRegSel r v).params = s.params ∧ (s.setRegSel r v).pfx = s.pfx ∧ (s.setRegSel r v).clock = s.clock := by
  unfold State.setRegSel
  split <;> exact ⟨rfl, rfl, rfl, rfl, rfl, rfl, rfl, rfl, rfl, rfl, rfl, rfl⟩

/-- The value a register receives with a far pointer's offset, R123. -/
@[simp] theorem setRegOff_fields (s : State) (r : Reg) (off : Word) :
    (s.setRegOff r off).regs =
      s.regs.set r (if s.op32 then off else (s.regs.get r).extractLsb' 16 16 ++ off.extractLsb' 0 16) ∧
    (s.setRegOff r off).pc = s.pc ∧ (s.setRegOff r off).segs = s.segs ∧
    (s.setRegOff r off).gdtr = s.gdtr ∧ (s.setRegOff r off).ldtr = s.ldtr ∧ (s.setRegOff r off).idtr = s.idtr ∧
    (s.setRegOff r off).trSel = s.trSel ∧ (s.setRegOff r off).cpl = s.cpl ∧ (s.setRegOff r off).mem = s.mem ∧
    (s.setRegOff r off).params = s.params ∧ (s.setRegOff r off).pfx = s.pfx ∧ (s.setRegOff r off).clock = s.clock := by
  unfold State.setRegOff
  split <;> exact ⟨rfl, rfl, rfl, rfl, rfl, rfl, rfl, rfl, rfl, rfl, rfl, rfl⟩

@[simp] theorem begin_fields (s : State) :
    s.begin.regs = s.regs ∧ s.begin.pc = s.pc ∧ s.begin.segs = s.segs ∧ s.begin.gdtr = s.gdtr ∧ s.begin.ldtr = s.ldtr ∧
    s.begin.idtr = s.idtr ∧ s.begin.trSel = s.trSel ∧ s.begin.cpl = s.cpl ∧ s.begin.mem = s.mem ∧
    s.begin.params = s.params ∧ s.begin.pfx = PfxLatch.empty ∧ s.begin.clock = s.clock :=
  ⟨rfl, rfl, rfl, rfl, rfl, rfl, rfl, rfl, rfl, rfl, rfl, rfl⟩

end Sys2Proof.Machine
end

