-- ==== Sys2Proof/Laws/Ops.lean ====
section
/-! SUPPORT. For each shared operation, once, everything it can do when it succeeds. -/

namespace Sys2Proof.Machine

section
variable {s t : State} {α β : Type}

@[simp] theorem bind_ok {x : Res α} {f : α → Res β} {b : β} : (x >>= f) = .ok b ↔ ∃ a, x = .ok a ∧ f a = .ok b := by
  cases x <;> simp [bind, Except.bind]

@[simp] theorem ok_bind (a : α) (f : α → Res β) : ((.ok a : Res α) >>= f) = f a := rfl
@[simp] theorem error_bind (e : Stop) (f : α → Res β) : ((.error e : Res α) >>= f) = .error e := rfl

@[simp] theorem raise_ne_ok {e : Exc} {i : ExcInfo} {a : α} : (raise s e i : Res α) = .ok a ↔ False := by simp [raise]

@[simp] theorem raiseIf_ok {c : Bool} {e : Exc} {i : ExcInfo} {u : Unit} : raiseIf s c e i = .ok u ↔ c = false := by
  cases c <;> simp [raiseIf]

@[simp] theorem refuseIf_ok {c : Bool} {r : Refusal} {u : Unit} : refuseIf c r = .ok u ↔ c = false := by
  cases c <;> simp [refuseIf]

@[simp] theorem outcome_next {r : Res State} : outcome r = .next t ↔ r = .ok t := by
  rcases r with (_ | _) | _ <;> simp [outcome]

@[simp] theorem outcome_fault {r : Res State} {f : Fault} : outcome r = .fault f ↔ r = .error (.fault f) := by
  rcases r with (_ | _) | _ <;> simp [outcome]

@[simp] theorem outcome_refused {r : Res State} {w : Refusal} : outcome r = .refused w ↔ r = .error (.refused w) := by
  rcases r with (_ | _) | _ <;> simp [outcome]

/-! Linear addresses -/

theorem translate_off (h : s.params.pagingEnabled = false) (la : Word) (k : Access) : translate s la k = .ok la.toNat := by
  simp [translate, h]

/-- A physical address has PHYS_BITS bits. -/
theorem translate_lt {la : Word} {k : Access} {pa : Nat} (h : translate s la k = .ok pa) (hb : 32 ≤ s.params.physBits) :
    pa < 2 ^ s.params.physBits := by
  unfold translate at h
  split at h
  · split at h
    · cases h; exact Nat.mod_lt _ (by positivity)
    · simp at h
  · cases h
    exact lt_of_lt_of_le la.isLt (Nat.pow_le_pow_right (by norm_num) hb)

theorem walk_length {la : Word} {k : Access} {n : Nat} {ps : List Nat} (h : walk s la k n = .ok ps) : ps.length = n := by
  induction n generalizing la ps with
  | zero => cases h; rfl
  | succ n ih =>
    simp only [walk, bind_ok, Except.ok.injEq] at h
    obtain ⟨_, _, qs, hq, rfl⟩ := h
    simp [ih hq]

theorem walk_lt {la : Word} {k : Access} {n : Nat} {ps : List Nat} (h : walk s la k n = .ok ps)
    (hb : 32 ≤ s.params.physBits) : ∀ pa ∈ ps, pa < 2 ^ s.params.physBits := by
  induction n generalizing la ps with
  | zero => cases h; simp
  | succ n ih =>
    simp only [walk, bind_ok, Except.ok.injEq] at h
    obtain ⟨_, hp, qs, hq, rfl⟩ := h
    simpa using ⟨translate_lt hp hb, ih hq⟩

/-- With paging off the bytes of an access lie at its linear addresses, modulo 2^32. -/
theorem walk_off (h : s.params.pagingEnabled = false) (la : Word) (k : Access) (n : Nat) :
    walk s la k n = .ok ((List.range n).map fun i => (la + BitVec.ofNat 32 i).toNat) := by
  induction n generalizing la with
  | zero => rfl
  | succ n ih =>
    simp only [walk, translate_off h, ih, ok_bind, List.range_succ_eq_map, List.map_cons, List.map_map]
    congr 2
    · simp
    · refine List.map_congr_left fun i _ => ?_
      simp only [Function.comp, Nat.succ_eq_add_one, BitVec.ofNat_add]
      congr 1
      rw [BitVec.add_assoc, BitVec.add_comm (1 : Word)]
      rfl

@[simp] theorem bytesAt_length (tag : DrawTag) (i : Nat) (ps : List Nat) : (s.bytesAt tag i ps).length = ps.length := by
  induction ps generalizing i with
  | nil => rfl
  | cons _ _ ih => simp [State.bytesAt, ih]

theorem memRead_ok {tag : DrawTag} {la : Word} {n : Nat} {bs : List Byte} :
    memRead s tag la n = .ok bs ↔ ∃ ps, walk s la .read n = .ok ps ∧ bs = s.bytesAt tag 0 ps := by
  simp [memRead, eq_comm (a := bs)]

theorem memRead_length {tag : DrawTag} {la : Word} {n : Nat} {bs : List Byte} (h : memRead s tag la n = .ok bs) :
    bs.length = n := by
  obtain ⟨ps, hp, rfl⟩ := memRead_ok.mp h
  simp [walk_length hp]

theorem memWrite_ok {la : Word} {bs : List Byte} {ws : List (Nat × Byte)} :
    memWrite s la bs = .ok ws ↔ ∃ ps, walk s la .write bs.length = .ok ps ∧ ws = ps.zip bs := by
  simp [memWrite, eq_comm (a := ws)]

/-- The addresses a planned write names are those of its page walk. -/
theorem memWrite_keys {la : Word} {bs : List Byte} {ws : List (Nat × Byte)} (h : memWrite s la bs = .ok ws) :
    walk s la .write bs.length = .ok (ws.map Prod.fst) := by
  obtain ⟨ps, hp, rfl⟩ := memWrite_ok.mp h
  rw [List.map_fst_zip (by rw [walk_length hp]), hp]

/-! Logical addresses -/

/-- `SegAccess` answers exactly when its checks pass, and then with base + offset. -/
theorem segAccess_ok {sr : SReg} {off : Word} {n : Nat} {k : Access} {la : Word} :
    segAccess s sr off n k = .ok la ↔
      isNull (s.seg sr).sel = false ∧ (k = .execute → sr = .cs) ∧ typeAllows k (s.seg sr).attr = true ∧
      offsetsValid (s.seg sr) off n = true ∧ la = (s.seg sr).base + off := by
  simp only [segAccess, bind_ok, raiseIf_ok, refuseIf_ok, Except.ok.injEq, exists_and_left, exists_const]
  simp only [Bool.and_eq_false_iff, beq_eq_false_iff_ne, bne_eq_false_iff_eq, Bool.not_eq_false', ne_eq, eq_comm (a := la)]
  tauto

theorem segRead_ok {tag : DrawTag} {sr : SReg} {off : Word} {n : Nat} {bs : List Byte} :
    segRead s tag sr off n = .ok bs ↔
      ∃ la, segAccess s sr off n .read = .ok la ∧ memRead s tag la n = .ok bs := by
  simp [segRead]

theorem segWrite_ok {sr : SReg} {off : Word} {bs : List Byte} {ws : List (Nat × Byte)} :
    segWrite s sr off bs = .ok ws ↔
      ∃ la, segAccess s sr off bs.length .write = .ok la ∧ memWrite s la bs = .ok ws := by
  simp [segWrite]

/-! Descriptors -/

theorem descAddr_ok {sel : Sel} {a : Word} :
    descAddr s sel = .ok a ↔
      (selTI sel = true ∧ isNull s.ldtr.sel = false ∧
        (selOffset sel).toNat + 7 ≤ (effLimit s.ldtr.limit s.ldtr.attr.g).toNat ∧ a = s.ldtr.base + selOffset sel) ∨
      (selTI sel = false ∧ (selOffset sel).toNat + 7 ≤ s.gdtr.limit.toNat ∧ a = s.gdtr.base + selOffset sel) := by
  unfold descAddr
  split <;> rename_i h <;>
    simp [h, eq_comm (a := a), -Bool.not_eq_true]

theorem readDesc_ok {a : Word} {d : BitVec 64} :
    readDesc s a = .ok d ↔ ∃ bs, memRead s .descriptor a 8 = .ok bs ∧ d = le64 bs := by
  simp [readDesc, eq_comm (a := d)]

/-- The accessed bit is already set, or one byte is written, to RAM or by a draw that does not hang. -/
theorem accessedBitWrite_ok {a : Word} {d : BitVec 64} {ws : List (Nat × Byte)} :
    accessedBitWrite s a d = .ok ws ↔
      (descAttr d).accessed = true ∧ ws = [] ∨
      (descAttr d).accessed = false ∧ ∃ pa, translate s (a + 5) .write = .ok pa ∧ ws = [(pa, accessedByte d)] ∧
        (s.params.physClass pa = .ram ∨ Config.draw 1 s.clock .romHang ≠ 1) := by
  unfold accessedBitWrite
  split <;> rename_i h
  · simp [h, eq_comm]
  · simp only [Bool.not_eq_true] at h
    simp only [h, bind_ok, Bool.false_eq_true, false_and, false_or, true_and]
    refine exists_congr fun pa => and_congr_right fun _ => ?_
    split <;> rename_i hc
    · simp only [Bool.and_eq_true, bne_iff_ne, ne_eq, beq_iff_eq] at hc
      simp [hc]
    · simp only [Bool.and_eq_true, bne_iff_ne, ne_eq, beq_iff_eq, not_and] at hc
      simp only [Except.ok.injEq, eq_comm (a := ws)]
      tauto

/-- `LoadSegReg` of a null selector, and of one whose descriptor passes every check. -/
theorem loadSegReg_ok {sr : SReg} {sel : Sel} {ld : SegLoad} :
    loadSegReg s sr sel = .ok ld ↔
      (isNull sel = true ∧ sr ≠ .ss ∧ ld = ⟨nullLoaded s sel, []⟩) ∨
      (isNull sel = false ∧ ∃ a d ws, descAddr s sel = .ok a ∧ readDesc s a = .ok d ∧
        loadTypeOk sr (descAttr d) = true ∧ loadPrivOk s.cpl sr sel (descAttr d) = true ∧ (descAttr d).p = true ∧
        accessedBitWrite s a d = .ok ws ∧ ld = ⟨(segFrom sel d).setAccessed, ws⟩) := by
  unfold loadSegReg
  split <;> rename_i h
  · simp [h, eq_comm (a := ld)]
  · simp only [Bool.not_eq_true] at h
    simp only [h, bind_ok, raiseIf_ok, Except.ok.injEq, Bool.false_eq_true, false_and, false_or, true_and, Bool.not_eq_false']
    constructor
    · rintro ⟨a, ha, d, hd, _, h1, _, h2, _, h3, ws, hw, rfl⟩
      exact ⟨a, d, ws, ha, hd, h1, h2, h3, hw, rfl⟩
    · rintro ⟨a, d, ws, ha, hd, h1, h2, h3, hw, rfl⟩
      exact ⟨a, ha, d, hd, (), h1, (), h2, (), h3, ws, hw, rfl⟩

theorem checkCS_ok {sel : Sel} {c : CsTarget} :
    checkCS s sel = .ok c ↔
      isNull sel = false ∧ descAddr s sel = .ok c.addr ∧ readDesc s c.addr = .ok c.desc ∧ (descAttr c.desc).s = true ∧
      (descAttr c.desc).isCode = true ∧ csPrivOk s.cpl sel (descAttr c.desc) = true ∧ (descAttr c.desc).p = true := by
  obtain ⟨a, d⟩ := c
  simp only [checkCS, bind_ok, raiseIf_ok, refuseIf_ok, Except.ok.injEq, CsTarget.mk.injEq]
  constructor
  · rintro ⟨_, h, a, ha, d, hd, _, h1, _, h2, _, h3, _, h4, rfl, rfl⟩
    simp_all
  · rintro ⟨h, ha, hd, h1, h2, h3, h4⟩
    exact ⟨(), h, a, ha, d, hd, (), by simp [h1], (), by simp [h2], (), by simp [h3], (), by simp [h4], rfl, rfl⟩

theorem loadCS_ok {sel : Sel} {c : CsTarget} {ld : SegLoad} :
    loadCS s sel c = .ok ld ↔
      ∃ ws, accessedBitWrite s c.addr c.desc = .ok ws ∧
        ld = ⟨(segFrom (selWithRPL sel s.cpl) c.desc).setAccessed, ws⟩ := by
  simp [loadCS, eq_comm (a := ld)]

theorem push32_ok {sp v : Word} {p : Push} :
    push32 s sp v = .ok p ↔
      ∃ ws, segWrite s .ss (s.stackAdd sp (-4)) (put32 v) = .ok ws ∧ p = ⟨s.stackAdd sp (-4), ws⟩ := by
  simp [push32, eq_comm (a := p)]

/-- A store by software succeeds unless it falls on a descriptor in ROM and hangs by the draw. -/
theorem storeBySoftware_ok {ws : List (Nat × Byte)} :
    storeBySoftware s ws = .ok t ↔
      ((∀ w ∈ ws, s.romDescriptor w.1 = false) ∨ Config.draw 1 s.clock .romHang ≠ 1) ∧ t = s.store ws := by
  have h : (∀ w ∈ ws, s.romDescriptor w.1 = false) ↔ ws.any (fun w => s.romDescriptor w.1) = false := by
    simp only [List.any_eq_false, Bool.not_eq_true]
  rw [h, eq_comm (a := t)]
  unfold storeBySoftware
  generalize Config.draw 1 s.clock .romHang = c
  cases ws.any fun w => s.romDescriptor w.1 <;> by_cases hd : c = 1#1 <;> simp [hd]

/-- The one other outcome is the hang, R206. -/
theorem storeBySoftware_error {ws : List (Nat × Byte)} {e : Stop} (h : storeBySoftware s ws = .error e) :
    e = .fault .hang ∧ ∃ w ∈ ws, s.romDescriptor w.1 = true := by
  unfold storeBySoftware at h
  split at h <;> rename_i hc
  · cases h
    exact ⟨rfl, by simpa using (Bool.and_eq_true_iff.mp hc).1⟩
  · cases h

/-! Operands -/

theorem storeRM16_ok {dst : RM} {v : Sel} :
    storeRM16 s dst v = .ok t ↔
      (∃ r, dst = .reg r ∧ t = s.setRegSel r v) ∨
      (∃ m ws, dst = .mem m ∧ segWrite s (operandSeg s m) (effAddr s m) (put16 v) = .ok ws ∧ storeBySoftware s ws = .ok t) := by
  cases dst <;> simp [storeRM16, eq_comm (a := t)]

theorem storeTableReg_ok {m : Mem} {v : TableReg} :
    storeTableReg s m v = .ok t ↔
      ∃ ws, segWrite s (operandSeg s m) (effAddr s m) (pseudoDesc v) = .ok ws ∧ storeBySoftware s ws = .ok t := by
  simp [storeTableReg]

theorem readTableReg_ok {m : Mem} {v : TableReg} :
    readTableReg s m = .ok v ↔
      ∃ limit la base, segRead s .operand (operandSeg s m) (effAddr s m) 2 = .ok limit ∧
        segAccess s (operandSeg s m) (effAddr s m) 6 .read = .ok la ∧
        segRead s .tableBase (operandSeg s m) (effAddr s m + 2) 4 = .ok base ∧ v = ⟨le32 base, le16 limit⟩ := by
  simp [readTableReg, eq_comm (a := v)]

/-- An incomplete fetch ends for the reason given, or in the exception of the limit check over the bytes known to be needed. -/
theorem fetchStop_cases {n : Nat} {stop : Stop} :
    fetchStop s n stop = stop ∨ segAccess s .cs s.pc (min n Config.maxInstrBytes) .execute = .error (fetchStop s n stop) := by
  unfold fetchStop
  split <;> rename_i h
  · exact .inr h
  · exact .inl rfl

/-! Instruction shapes -/

theorem popSreg_ok {sr : SReg} {len : Nat} :
    popSreg s sr len = .ok t ↔
      ∃ v ld, segRead s .stack .ss s.stackPtr s.opBytes = .ok v ∧ loadSegReg s sr (le16 (v.take 2)) = .ok ld ∧
        t = ((s.applyLoad sr ld).setStackPtr s.segs.ss.attr.db
          (s.stackAdd s.stackPtr (BitVec.ofNat 32 s.opBytes))).advance len := by
  simp [popSreg, eq_comm (a := t)]

theorem loadFarPtr_ok {sr : SReg} {r : Reg} {m : Mem} {len : Nat} :
    loadFarPtr s sr r m len = .ok t ↔
      ∃ p ld, readFarPtr s m = .ok p ∧ loadSegReg s sr p.sel = .ok ld ∧
        t = ((s.applyLoad sr ld).setRegOff r p.off).advance len := by
  simp [loadFarPtr, eq_comm (a := t)]

theorem jmpFar_ok {p : FarPtr} :
    jmpFar s p = .ok t ↔
      ∃ c ld, checkCS s p.sel = .ok c ∧ loadCS s p.sel c = .ok ld ∧ t = (s.applyLoad .cs ld).finishAt p.off := by
  simp [jmpFar, eq_comm (a := t)]

theorem callFar_ok {p : FarPtr} {len : Nat} :
    callFar s p len = .ok t ↔
      ∃ c p1 p2 ld u, checkCS s p.sel = .ok c ∧ push32 s s.stackPtr ((s.seg .cs).sel.zeroExtend 32) = .ok p1 ∧
        push32 s p1.sp (s.nextPc len) = .ok p2 ∧ loadCS s p.sel c = .ok ld ∧
        storeBySoftware s (p1.writes ++ p2.writes) = .ok u ∧
        t = ((u.applyLoad .cs ld).setStackPtr s.segs.ss.attr.db p2.sp).finishAt p.off := by
  simp [callFar, eq_comm (a := t)]

theorem loadLdtr_ok {sel : Sel} {v : SegReg} :
    loadLdtr s sel = .ok v ↔
      (isNull sel = true ∧ v = nullLoaded s sel) ∨
      (isNull sel = false ∧ selTI sel = false ∧ ∃ a d, descAddr s sel = .ok a ∧ readDesc s a = .ok d ∧
        (descAttr d).isLdt = true ∧ (descAttr d).p = true ∧ v = segFrom sel d) := by
  unfold loadLdtr
  split <;> rename_i h
  · simp [h, eq_comm (a := v)]
  · simp only [Bool.not_eq_true] at h
    simp only [h, bind_ok, raiseIf_ok, Except.ok.injEq, Bool.false_eq_true, false_and, false_or, true_and, Bool.not_eq_false']
    constructor
    · rintro ⟨_, h0, a, ha, d, hd, _, h1, _, h2, rfl⟩
      exact ⟨h0, a, d, ha, hd, h1, h2, rfl⟩
    · rintro ⟨h0, a, d, ha, hd, h1, h2, rfl⟩
      exact ⟨(), h0, a, ha, d, hd, (), h1, (), h2, rfl⟩

end

end Sys2Proof.Machine
end

