-- ==== Sys2Proof/Laws/PerInstr.lean ====
section
/-! SUPPORT. Facts about each instruction as syntax: how long its encoding is, and that `exec` may count on it (R24, R101). -/

namespace Sys2Proof.Laws

/-- How many bytes an instruction has after its prefix bytes: the lengths the meanings advance the pc by. -/
def instrSize : Instr → Nat
  | .movToSreg _ src => 1 + src.size
  | .movFromSreg dst _ => 1 + dst.size
  | .popES => 1
  | .popSS => 1
  | .popDS => 1
  | .popFS => 2
  | .popGS => 2
  | .lds _ m => 1 + m.size
  | .les _ m => 1 + m.size
  | .lss _ m => 2 + m.size
  | .lfs _ m => 2 + m.size
  | .lgs _ m => 2 + m.size
  | .callPtr off _ => 3 + off.size
  | .callMem m => 1 + m.size
  | .jmpPtr off _ => 3 + off.size
  | .jmpMem m => 1 + m.size
  | .retFar => 1
  | .retFarImm _ => 3
  | .sysenter => 2
  | .sysexit => 2
  | .iret => 1
  | .intN _ => 2
  | .into => 1
  | .int3 => 1
  | .sgdt m => 2 + m.size
  | .sidt m => 2 + m.size
  | .sldt dst => 2 + dst.size
  | .str dst => 2 + dst.size
  | .lgdt m => 2 + m.size
  | .lldt src => 2 + src.size
  | .opSizeByte => 1
  | .addrSizeByte => 1
  | .segOverrideByte _ => 1

theorem mem_encode_length (reg : BitVec 3) (m : Mem) : (m.encode reg).length = m.size := by cases m <;> rfl

theorem rm_encode_length (reg : BitVec 3) (m : RM) : (m.encode reg).length = m.size := by
  cases m with
  | reg _ => rfl
  | mem m => exact mem_encode_length reg m

theorem ptrOff_encode_length (off : PtrOff) : off.encode.length = off.size := by cases off <;> rfl

/-- The encoding has the length by which the meaning moves the pc. -/
def LengthOfEncoding.Statement (i : Instr) : Prop := (encode i).length = instrSize i

theorem LengthOfEncoding.movToSreg (sr : SReg) (src : RM) : LengthOfEncoding.Statement (.movToSreg sr src) := by
  simp [LengthOfEncoding.Statement, encode, instrSize, rm_encode_length, Nat.add_comm]
theorem LengthOfEncoding.movFromSreg (dst : RM) (sr : SReg) : LengthOfEncoding.Statement (.movFromSreg dst sr) := by
  simp [LengthOfEncoding.Statement, encode, instrSize, rm_encode_length, Nat.add_comm]
theorem LengthOfEncoding.popES : LengthOfEncoding.Statement .popES := rfl
theorem LengthOfEncoding.popSS : LengthOfEncoding.Statement .popSS := rfl
theorem LengthOfEncoding.popDS : LengthOfEncoding.Statement .popDS := rfl
theorem LengthOfEncoding.popFS : LengthOfEncoding.Statement .popFS := rfl
theorem LengthOfEncoding.popGS : LengthOfEncoding.Statement .popGS := rfl
theorem LengthOfEncoding.lds (r : Reg) (m : Mem) : LengthOfEncoding.Statement (.lds r m) := by
  simp [LengthOfEncoding.Statement, encode, instrSize, mem_encode_length, Nat.add_comm]
theorem LengthOfEncoding.les (r : Reg) (m : Mem) : LengthOfEncoding.Statement (.les r m) := by
  simp [LengthOfEncoding.Statement, encode, instrSize, mem_encode_length, Nat.add_comm]
theorem LengthOfEncoding.lss (r : Reg) (m : Mem) : LengthOfEncoding.Statement (.lss r m) := by
  simp only [LengthOfEncoding.Statement, encode, instrSize, mem_encode_length, List.length_cons]; omega
theorem LengthOfEncoding.lfs (r : Reg) (m : Mem) : LengthOfEncoding.Statement (.lfs r m) := by
  simp only [LengthOfEncoding.Statement, encode, instrSize, mem_encode_length, List.length_cons]; omega
theorem LengthOfEncoding.lgs (r : Reg) (m : Mem) : LengthOfEncoding.Statement (.lgs r m) := by
  simp only [LengthOfEncoding.Statement, encode, instrSize, mem_encode_length, List.length_cons]; omega
theorem LengthOfEncoding.callPtr (off : PtrOff) (sel : Sel) : LengthOfEncoding.Statement (.callPtr off sel) := by
  simp only [LengthOfEncoding.Statement, encode, instrSize, ptrOff_encode_length, put16, List.length_cons, List.length_append, List.length_nil]; omega
theorem LengthOfEncoding.callMem (m : Mem) : LengthOfEncoding.Statement (.callMem m) := by
  simp [LengthOfEncoding.Statement, encode, instrSize, mem_encode_length, Nat.add_comm]
theorem LengthOfEncoding.jmpPtr (off : PtrOff) (sel : Sel) : LengthOfEncoding.Statement (.jmpPtr off sel) := by
  simp only [LengthOfEncoding.Statement, encode, instrSize, ptrOff_encode_length, put16, List.length_cons, List.length_append, List.length_nil]; omega
theorem LengthOfEncoding.jmpMem (m : Mem) : LengthOfEncoding.Statement (.jmpMem m) := by
  simp [LengthOfEncoding.Statement, encode, instrSize, mem_encode_length, Nat.add_comm]
theorem LengthOfEncoding.retFar : LengthOfEncoding.Statement .retFar := rfl
theorem LengthOfEncoding.retFarImm (imm : BitVec 16) : LengthOfEncoding.Statement (.retFarImm imm) := rfl
theorem LengthOfEncoding.sysenter : LengthOfEncoding.Statement .sysenter := rfl
theorem LengthOfEncoding.sysexit : LengthOfEncoding.Statement .sysexit := rfl
theorem LengthOfEncoding.iret : LengthOfEncoding.Statement .iret := rfl
theorem LengthOfEncoding.intN (n : Byte) : LengthOfEncoding.Statement (.intN n) := rfl
theorem LengthOfEncoding.into : LengthOfEncoding.Statement .into := rfl
theorem LengthOfEncoding.int3 : LengthOfEncoding.Statement .int3 := rfl
theorem LengthOfEncoding.sgdt (m : Mem) : LengthOfEncoding.Statement (.sgdt m) := by
  simp only [LengthOfEncoding.Statement, encode, instrSize, mem_encode_length, List.length_cons]; omega
theorem LengthOfEncoding.sidt (m : Mem) : LengthOfEncoding.Statement (.sidt m) := by
  simp only [LengthOfEncoding.Statement, encode, instrSize, mem_encode_length, List.length_cons]; omega
theorem LengthOfEncoding.sldt (dst : RM) : LengthOfEncoding.Statement (.sldt dst) := by
  simp only [LengthOfEncoding.Statement, encode, instrSize, rm_encode_length, List.length_cons]; omega
theorem LengthOfEncoding.str (dst : RM) : LengthOfEncoding.Statement (.str dst) := by
  simp only [LengthOfEncoding.Statement, encode, instrSize, rm_encode_length, List.length_cons]; omega
theorem LengthOfEncoding.lgdt (m : Mem) : LengthOfEncoding.Statement (.lgdt m) := by
  simp only [LengthOfEncoding.Statement, encode, instrSize, mem_encode_length, List.length_cons]; omega
theorem LengthOfEncoding.lldt (src : RM) : LengthOfEncoding.Statement (.lldt src) := by
  simp only [LengthOfEncoding.Statement, encode, instrSize, rm_encode_length, List.length_cons]; omega
theorem LengthOfEncoding.opSizeByte : LengthOfEncoding.Statement .opSizeByte := rfl
theorem LengthOfEncoding.addrSizeByte : LengthOfEncoding.Statement .addrSizeByte := rfl
theorem LengthOfEncoding.segOverrideByte (sr : SReg) : LengthOfEncoding.Statement (.segOverrideByte sr) := rfl

end Sys2Proof.Laws
end

