-- ==== Sys2Proof/Tests/Slice0.lean ====
section
/-! SUPPORT. The author's tests: ill-formed terms, words written out from the encoding of spec/30_encoding.md, one-step vectors of
spec/95_test_vectors.md (V<n>), and for each statement with hypotheses a state that meets them. -/

namespace Sys2Proof.Tests

open Sys2Proof Sys2Proof.Machine

set_option Elab.async false

/-! ## Ill-formed terms -/

theorem test_wf_mov_to_cs : Instr.wf true (.movToSreg .cs (.reg .eax)) = false := by decide
theorem test_wf_base_esp : Instr.wf true (.sgdt (.base .esp)) = false := by decide
theorem test_wf_base_ebp : Instr.wf true (.lldt (.mem (.base .ebp))) = false := by decide
theorem test_wf_base8_esp : Instr.wf true (.lds .eax (.base8 .esp 1)) = false := by decide
theorem test_wf_base32_esp : Instr.wf true (.movFromSreg (.mem (.base32 .esp 1)) .ds) = false := by decide
theorem test_wf_sib_base_ebp : Instr.wf true (.callMem (.sib 0 .eax .ebp)) = false := by decide
theorem test_wf_ptr_width : Instr.wf true (.callPtr (.off16 1) 8) = false ∧ Instr.wf false (.jmpPtr (.off32 1) 8) = false := by decide

/-! ## Decoding -/

/-- The vectors' bytes, where the spec prints them, else bytes put together from R106 to R108. -/
theorem test_decode_segment_loads : ∀ w ∈ ([
    (true, [0x8E, 0xD8], .movToSreg .ds (.reg .eax)),
    (true, [0x8C, 0x1D, 0x00, 0x21, 0x00, 0x00], .movFromSreg (.mem (.abs 0x2100)) .ds),
    (true, [0x07], .popES),
    (true, [0x17], .popSS),
    (true, [0x1F], .popDS),
    (true, [0x0F, 0xA1], .popFS),
    (true, [0x0F, 0xA9], .popGS),
    (true, [0xC5, 0x33], .lds .esi (.base .ebx)),
    (true, [0xC4, 0x0A], .les .ecx (.base .edx)),
    (true, [0x0F, 0xB2, 0x20], .lss .esp (.base .eax)),
    (true, [0x0F, 0xB4, 0x33], .lfs .esi (.base .ebx)),
    (true, [0x0F, 0xB5, 0x3B], .lgs .edi (.base .ebx))] : List (Bool × List Byte × Instr)), decode w.1 true w.2.1 = .ok (w.2.2, []) := by decide

theorem test_decode_far_transfers : ∀ w ∈ ([
    (true, [0x9A, 0x40, 0x00, 0x00, 0x00, 0x20, 0x00], .callPtr (.off32 0x40) 0x20),
    (false, [0x9A, 0x40, 0x12, 0x20, 0x00], .callPtr (.off16 0x1240) 0x20),
    (true, [0xFF, 0x1B], .callMem (.base .ebx)),
    (true, [0xEA, 0x00, 0x00, 0x10, 0x00, 0x08, 0x00], .jmpPtr (.off32 0x100000) 8),
    (true, [0xFF, 0x2C, 0x24], .jmpMem (.sib 0 .esp .esp)),
    (true, [0xCB], .retFar),
    (true, [0xCA, 0x04, 0x10], .retFarImm 0x1004),
    (true, [0x0F, 0x34], .sysenter),
    (true, [0x0F, 0x35], .sysexit),
    (true, [0xCF], .iret),
    (true, [0xCD, 0x80], .intN 0x80),
    (true, [0xCE], .into),
    (true, [0xCC], .int3)] : List (Bool × List Byte × Instr)), decode w.1 true w.2.1 = .ok (w.2.2, []) := by decide

theorem test_decode_table_registers : ∀ w ∈ ([
    (true, [0x0F, 0x01, 0x05, 0x02, 0x20, 0x00, 0x00], .sgdt (.abs 0x2002)),
    (true, [0x0F, 0x01, 0x0B], .sidt (.base .ebx)),
    (true, [0x0F, 0x00, 0xC3], .sldt (.reg .ebx)),
    (true, [0x0F, 0x00, 0xC8], .str (.reg .eax)),
    (true, [0x0F, 0x01, 0x15, 0x02, 0x20, 0x00, 0x00], .lgdt (.abs 0x2002)),
    (true, [0x0F, 0x00, 0xD0], .lldt (.reg .eax))] : List (Bool × List Byte × Instr)), decode w.1 true w.2.1 = .ok (w.2.2, []) := by decide

theorem test_decode_prefix_bytes :
    decode true true [0x66, 0x8C, 0xDB] = .ok (.opSizeByte, [0x8C, 0xDB]) ∧
    decode true true [0x67, 0x8E] = .ok (.addrSizeByte, [0x8E]) ∧
    [0x26, 0x2E, 0x36, 0x3E, 0x64, 0x65].map (fun b => decode true true [b]) =
      [.es, .cs, .ss, .ds, .fs, .gs].map fun r => .ok (.segOverrideByte r, []) := by decide

/-- The forms of ModRM and SIB, R106: `0F 01 /0` with each. -/
theorem test_decode_operand_forms :
    decode true true [0x0F, 0x01, 0x45, 0xFC] = .ok (.sgdt (.base8 .ebp 0xFC), []) ∧
    decode true true [0x0F, 0x01, 0x87, 0x78, 0x56, 0x34, 0x12] = .ok (.sgdt (.base32 .edi 0x12345678), []) ∧
    decode true true [0x0F, 0x01, 0x04, 0x98] = .ok (.sgdt (.sib 2 .ebx .eax), []) ∧
    decode true true [0x0F, 0x01, 0x04, 0xCD, 0x78, 0x56, 0x34, 0x12] = .ok (.sgdt (.sibAbs 3 .ecx 0x12345678), []) ∧
    decode true true [0x0F, 0x01, 0x44, 0x24, 0x08] = .ok (.sgdt (.sib8 0 .esp .esp 8), []) ∧
    decode true true [0x0F, 0x01, 0x84, 0x75, 0x04, 0x03, 0x02, 0x01] = .ok (.sgdt (.sib32 1 .esi .ebp 0x01020304), []) := by decide

/-- V68, V87, V88, V89, V90, and bytes that end too early. -/
theorem test_decode_refuses :
    decode true true [0x8E, 0xC8] = .error .invalidForm ∧ decode true true [0x8C, 0xF0] = .error .invalidForm ∧
    decode true true [0x0F, 0x01, 0x1D, 0x00, 0x20, 0x00, 0x00] = .error .lidtLtrNotInSource ∧
    decode true true [0x0F, 0x00, 0xD8] = .error .lidtLtrNotInSource ∧ decode true true [0x90] = .error .noRow ∧
    decode true false [0x8E, 0x18] = .error .addressSize16 ∧ decode true true [0xC5, 0xC0] = .error .invalidForm ∧
    decode true true [0xFF, 0x10] = .error .noRow ∧ decode true true [0x9A, 0x40, 0x00] = .error (.truncated 4) := by decide

/-- How many bytes are missing, by the lengths of R101, R106 and R107: opcode bytes, `MOV DS` with a displacement of four bytes, far pointers at
either operand size, SIB with no, one and four bytes of displacement, immediates. -/
theorem test_decode_missing : ∀ w ∈ ([
    (true, [], 1), (true, [0x0F], 1), (true, [0x8E, 0x1D], 4), (true, [0x8E, 0x1D, 0], 3), (true, [0xEA], 6), (false, [0xEA, 0x40], 3),
    (true, [0x9A, 0x40, 0, 0, 0], 2), (true, [0x8E, 0x1C], 1), (true, [0x8E, 0x5C], 2), (true, [0x8E, 0x9C], 5), (true, [0x8E, 0x1C, 0x25], 4),
    (true, [0xCA], 2), (true, [0xCD], 1), (true, [0x0F, 0x00], 1)] : List (Bool × List Byte × Nat)),
    decode w.1 true w.2.1 = .error (.truncated w.2.2) := by decide

/-- R108's words in the numbering of the opcode table. -/
theorem test_decode_table_word :
    decodeTableWord 16 0xD88E = some (.movToSreg .ds (.reg .eax)) ∧ decodeTableWord 16 0xA10F = some .popFS ∧
    decodeTableWord 24 0x05010F = some (.sgdt (.abs 0)) ∧ decodeTableWord 8 0x90 = none := by decide

/-! ## The start state of the vectors -/

/-- `bs` from address `a` on, in the canonical form. -/
def cells : Nat → List Byte → Memory
  | _, [] => []
  | a, b :: bs => if b = 0 then cells (a + 1) bs else (a, b) :: cells (a + 1) bs

/-- Entries 1 to 9 of the GDT at 1000H. -/
def gdt : Memory := cells 0x1008
  ([0xFF, 0xFF, 0, 0, 0, 0x9A, 0xCF, 0] ++ [0xFF, 0xFF, 0, 0, 0, 0x92, 0xCF, 0] ++ [0xFF, 0xEF, 0, 0, 0x20, 0x96, 0x40, 0] ++
   [0xFF, 0x0F, 0, 0, 0x40, 0x9A, 0x40, 0] ++ [0x17, 0, 0, 0x30, 0, 0x82, 0, 0] ++ [0xFF, 0xFF, 0, 0, 0x10, 0x12, 0x40, 0] ++
   [0xFF, 0x0F, 0, 0, 0x40, 0x98, 0x40, 0] ++ [0xFF, 0x0F, 0, 0, 0x40, 0x9E, 0x40, 0] ++ [0xFF, 0xFF, 0, 0, 0, 0xF2, 0xCF, 0])

/-- The LDT at 3000H. -/
def ldt : Memory := cells 0x3000
  ([0xFF, 0xFF, 0, 0, 0x10, 0xF2, 0x40, 0] ++ [0, 0, 0, 0, 0x50, 0xF2, 0xC0, 0] ++ [0xDE, 0xBC, 0x78, 0x56, 0x34, 0xD0, 0xDA, 0x12])

/-- A segment register from its selector and descriptor. -/
abbrev segReg (sel : Sel) (d : BitVec 64) : SegReg := segFrom sel d

/-- `Env(0)` with memory `low` between the GDT and the LDT and `high` above the LDT. -/
def env0 (low high : Memory) : State where
  regs := ⟨0, 0, 0, 0, 0x8000, 0, 0, 0⟩
  pc := 0x10000
  segs := ⟨segReg 0x08 0x00CF9B000000FFFF, segReg 0x10 0x00CF93000000FFFF, segReg 0x10 0x00CF93000000FFFF,
    segReg 0 0, segReg 0 0, segReg 0 0⟩
  gdtr := ⟨0x1000, 0x4F⟩
  ldtr := segReg 0x28 0x0000820030000017
  idtr := ⟨0x3000, 0x7FF⟩
  trSel := 0x30
  cpl := 0
  mem := gdt ++ low ++ ldt ++ high
  params := ⟨false, 32, [⟨0, 0x800000, .ram⟩], .np, 0⟩
  pfx := PfxLatch.empty
  clock := 0

/-- `Env(3)`. -/
def env3 (low high : Memory) : State :=
  let s := env0 low high
  { s with cpl := 3, segs := { s.segs with cs := segReg 0x53 0x00CFFB000000FFFF, ss := segReg 0x4B 0x00CFF3000000FFFF,
                                            ds := segReg 0x4B 0x00CFF3000000FFFF } }

/-- Code at 10000H. -/
def code (bs : List Byte) : Memory := cells 0x10000 bs

/-- `s` with four registers set. -/
def withRegs (s : State) (eax ebx esp esi : Word) : State :=
  { s with regs := { s.regs with eax := eax, ebx := ebx, esp := esp, esi := esi } }

/-- SS as in V144: the expand-down segment 18H with B = 0. -/
def withSmallStack (s : State) : State := { s with segs := { s.segs with ss := segReg 0x18 0x000097200000EFFF } }

def after (o : Host.Outcome State Fault Refusal) (p : State → Bool) : Bool :=
  match o with
  | .next t => p t
  | .fault _ => false
  | .refused _ => false

def faults (o : Host.Outcome State Fault Refusal) (f : Fault) : Bool :=
  match o with
  | .next _ => false
  | .fault g => g == f
  | .refused _ => false

def refuses (o : Host.Outcome State Fault Refusal) (r : Refusal) : Bool :=
  match o with
  | .next _ => false
  | .fault _ => false
  | .refused q => q == r

theorem next_of_after {o : Host.Outcome State Fault Refusal} {p : State → Bool} (h : after o p = true) : ∃ t, o = .next t := by
  cases o with
  | next t => exact ⟨t, rfl⟩
  | fault _ => cases h
  | refused _ => cases h

theorem fault_of_faults {o : Host.Outcome State Fault Refusal} {f : Fault} (h : faults o f = true) : o = .fault f := by
  cases o with
  | next _ => cases h
  | fault g => rw [show g = f from by simpa [faults] using h]
  | refused _ => cases h

/-- The bytes of memory from `a` on. -/
def peek (s : State) (a n : Nat) : List Byte := (List.range n).map fun i => s.mem.read (a + i)

theorem test_env0_is_a_launch_state : (env0 [] []).LaunchOk := by decide +kernel
theorem test_reset_memory_wf : State.reset.mem.wf := by decide

/-! ## One-step vectors -/

/-- V60 -/
theorem test_mov_ds_ax : after (step (withRegs (env0 [] (code [0x8E, 0xD8])) 0x10 0 0x8000 0)) (fun t =>
    t.segs.ds == segReg 0x10 0x00CF93000000FFFF && t.mem.read 0x1015 == 0x93 && t.pc == 0x10002) = true := by decide +kernel
/-- V67 -/
theorem test_mov_ss_null : faults (step (env0 [] (code [0x8E, 0xD0]))) (.exception .gp .zero 0x10000) = true := by decide +kernel
/-- V61 -/
theorem test_mov_bx_ds : after (step (withRegs (env0 [] (code [0x66, 0x8C, 0xDB])) 0 0xAAAAAAAA 0x8000 0)) (fun t =>
    t.regs.ebx == 0xAAAA0010 && t.pc == 0x10003) = true := by decide +kernel
/-- V140 -/
theorem test_mov_mem_ds : after (step (env0 (cells 0x2100 [0xEE, 0xEE, 0xEE, 0xEE]) (code [0x8C, 0x1D, 0x00, 0x21, 0x00, 0x00])))
    (fun t => peek t 0x2100 4 == [0x10, 0x00, 0xEE, 0xEE] && t.pc == 0x10006) = true := by decide +kernel
/-- V62 -/
theorem test_pop_es : after (step (withRegs (env0 [] (cells 0x7FFC [0x10, 0, 0xCD, 0xAB] ++ code [0x07])) 0 0 0x7FFC 0)) (fun t =>
    t.segs.es == segReg 0x10 0x00CF93000000FFFF && t.regs.esp == 0x8000 && t.pc == 0x10001) = true := by decide +kernel
/-- V144 -/
theorem test_pop_es_wraps_sp : after (step (withRegs (withSmallStack (env0 [] (code [0x07] ++ cells 0x20FFFC [0x10])))
    0 0 0x1234FFFC 0)) (fun t => t.segs.es.sel == 0x10 && t.regs.esp == 0x12340000) = true := by decide +kernel
/-- R122 with V26: the stack pointer advances by the old B flag, SS changes. -/
theorem test_pop_ss : after (step (withRegs (env0 [] (cells 0x7FFC [0x18] ++ code [0x17])) 0 0 0x7FFC 0)) (fun t =>
    t.segs.ss == segReg 0x18 0x004097200000EFFF && t.regs.esp == 0x8000) = true := by decide +kernel
/-- V69 -/
theorem test_pop_ds_privilege : faults (step (withRegs (env3 [] (cells 0x7FFC [0x10] ++ code [0x1F])) 0 0 0x7FFC 0))
    (.exception .gp (.selector 0x10) 0x10000) = true := by decide +kernel
/-- R122 with V20 -/
theorem test_pop_ds : after (step (withRegs (env0 [] (cells 0x7FFC [0x10] ++ code [0x1F])) 0 0 0x7FFC 0)) (fun t =>
    t.mem.read 0x1015 == 0x93 && t.regs.esp == 0x8000) = true := by decide +kernel
/-- V143 -/
theorem test_pop_fs : after (step (withRegs (env0 [] (cells 0x7FFC [0x04] ++ code [0x0F, 0xA1])) 0 0 0x7FFC 0)) (fun t =>
    t.segs.fs == segReg 0x04 0x0040F3100000FFFF && t.mem.read 0x3005 == 0xF3 && t.pc == 0x10002) = true := by decide +kernel
/-- V115 through POP -/
theorem test_pop_gs : after (step (withRegs (env0 [] (cells 0x7FFC [0x14] ++ code [0x0F, 0xA9])) 0 0 0x7FFC 0)) (fun t =>
    t.segs.gs == segReg 0x14 0x12DAD1345678BCDE && t.mem.read 0x3015 == 0xD1) = true := by decide +kernel
/-- V63 -/
theorem test_lds : after (step (withRegs (env0 (cells 0x2000 [0, 0x10, 0, 0, 0x10, 0]) (code [0xC5, 0x33])) 0 0x2000 0x8000 0)) (fun t =>
    t.regs.esi == 0x1000 && t.segs.ds.sel == 0x10 && t.mem.read 0x1015 == 0x93 && t.pc == 0x10002) = true := by decide +kernel
/-- V66 -/
theorem test_lds_execute_only : faults (step (withRegs
    { env0 [] (cells 0x400000 [0x2E, 0xC5, 0x33]) with
      pc := 0, segs := { (env0 [] []).segs with cs := segReg 0x38 0x0040994000000FFF } } 0 0x10 0x8000 0))
    (.exception .gp .zero 0) = true := by decide +kernel
/-- R125 with OpSize 16: offset and selector of two bytes each. -/
theorem test_les_16 : after (step (withRegs (env0 (cells 0x2000 [0x34, 0x12, 0x10, 0]) (code [0x66, 0xC4, 0x33])) 0 0x2000 0x8000 0xFFFF0000))
    (fun t => t.regs.esi == 0xFFFF1234 && t.segs.es.sel == 0x10 && t.pc == 0x10003) = true := by decide +kernel
/-- V64 -/
theorem test_lss : after (step (withRegs (env0 (cells 0x2000 [0xF0, 0xFF, 0, 0, 0x18, 0]) (code [0x0F, 0xB2, 0x20])) 0x2000 0 0x8000 0))
    (fun t => t.segs.ss == segReg 0x18 0x004097200000EFFF && t.mem.read 0x101D == 0x97 && t.regs.esp == 0xFFF0) = true := by decide +kernel
/-- V142 -/
theorem test_lfs_not_present : faults (step (withRegs (env0 (cells 0x2000 [0, 0x10, 0, 0, 0x30, 0]) (code [0x0F, 0xB4, 0x33]))
    0 0x2000 0x8000 0x55)) (.exception .np (.selector 0x30) 0x10000) = true := by decide +kernel
/-- V114 through LGS, at CPL 3 -/
theorem test_lgs : after (step (withRegs (env3 (cells 0x2000 [1, 2, 3, 4, 0x0F, 0]) (code [0x0F, 0xB5, 0x33])) 0 0x2000 0x8000 0)) (fun t =>
    t.segs.gs == segReg 0x0F 0x00C0F35000000000 && t.regs.esi == 0x04030201 && t.mem.read 0x300D == 0xF3) = true := by decide +kernel
/-- V65 -/
theorem test_lds_through_cs : after (step (withRegs (env0 (cells 0x2000 [0, 0x10, 0, 0, 0x10, 0]) (code [0x2E, 0xC5, 0x33])) 0 0x2000 0x8000 0))
    (fun t => t.regs.esi == 0x1000 && t.pc == 0x10003) = true := by decide +kernel
/-- V31 -/
theorem test_call_ptr : after (step (env0 [] (code [0x9A, 0x40, 0, 0, 0, 0x20, 0]))) (fun t =>
    peek t 0x7FF8 8 == [0x07, 0, 0x01, 0, 0x08, 0, 0, 0] && t.mem.read 0x1025 == 0x9B && t.regs.esp == 0x7FF8 &&
    t.segs.cs == segReg 0x20 0x00409B4000000FFF && t.pc == 0x40) = true := by decide +kernel
/-- R141 with V53: the second push crosses the lower bound of an expand-down stack. -/
theorem test_call_ptr_stack_fault : faults (step (withRegs (withSmallStack (env0 [] (code [0x9A, 0x40, 0, 0, 0, 0x20, 0]))) 0 0 0x1234F004 0))
    (.exception .ss .zero 0x10000) = true := by decide +kernel
/-- R141 through memory -/
theorem test_call_mem : after (step (withRegs (env0 (cells 0x2000 [0x40, 0, 0, 0, 0x20, 0]) (code [0xFF, 0x1B])) 0 0x2000 0x8000 0)) (fun t =>
    peek t 0x7FF8 8 == [0x02, 0, 0x01, 0, 0x08, 0, 0, 0] && t.segs.cs.sel == 0x20 && t.pc == 0x40) = true := by decide +kernel
/-- V32 -/
theorem test_jmp_conforming : after (step (env3 [] (code [0xEA, 0x10, 0, 0, 0, 0x43, 0]))) (fun t =>
    t.segs.cs == segReg 0x43 0x00409F4000000FFF && t.pc == 0x10 && t.cpl == 3) = true := by decide +kernel
/-- V38 -/
theorem test_jmp_rpl : faults (step (env0 [] (code [0xEA, 0, 0, 0, 0, 0x0B, 0]))) (.exception .gp (.selector 0x0B) 0x10000) = true := by
  decide +kernel
/-- Program P2, step 3: the far pointer is read through SS. -/
theorem test_jmp_mem : after (step (withRegs (env0 [] (cells 0x7FF8 [0x07, 0, 0x01, 0, 0x08, 0, 0, 0] ++ code [0xFF, 0x2C, 0x24])) 0 0 0x7FF8 0))
    (fun t => t.pc == 0x10007 && t.mem.read 0x100D == 0x9B && t.regs.esp == 0x7FF8) = true := by decide +kernel
/-- V36 -/
theorem test_jmp_system_descriptor : refuses (step (env0 [] (code [0xEA, 0, 0, 0, 0, 0x28, 0]))) .gateOrSystemDescriptor = true := by decide +kernel
/-- V39, the second step -/
theorem test_fetch_beyond_limit : faults (step { env0 [] [] with pc := 0x1000, segs := { (env0 [] []).segs with cs := segReg 0x20 0x00409B4000000FFF } })
    (.exception .gp .zero 0x1000) = true := by decide +kernel
/-- V80 to V86 -/
theorem test_undescribed : refuses (step (env0 [] (code [0xCB]))) .retFarNotInSource &&
    refuses (step (env0 [] (code [0xCA, 4, 0]))) .retFarNotInSource && refuses (step (env0 [] (code [0xCF]))) .iretNotInSource &&
    refuses (step (env0 [] (code [0xCD, 0x80]))) .intNNotInSource && refuses (step (env0 [] (code [0xCC]))) .int3NotInSource &&
    refuses (step (env0 [] (code [0xCE]))) .intoNotInSource && refuses (step (env0 [] (code [0x0F, 0x34]))) .sysenterNotInSource &&
    refuses (step (env0 [] (code [0x0F, 0x35]))) .sysexitNotInSource = true := by decide +kernel
/-- V70 -/
theorem test_sgdt : after (step { env0 [] (code [0x0F, 0x01, 0x05, 0x02, 0x20, 0, 0]) with gdtr := ⟨0x1000, 0x27⟩ }) (fun t =>
    peek t 0x2002 6 == [0x27, 0, 0, 0x10, 0, 0] && t.pc == 0x10007) = true := by decide +kernel
/-- V153 -/
theorem test_sidt : after (step (withRegs (env0 [] (code [0x0F, 0x01, 0x0B])) 0 0x2012 0x8000 0)) (fun t =>
    peek t 0x2012 6 == [0xFF, 0x07, 0, 0x30, 0, 0] && t.pc == 0x10003) = true := by decide +kernel
/-- V79 -/
theorem test_sldt : after (step (withRegs (env0 [] (code [0x66, 0x0F, 0x00, 0xC3])) 0 0xAAAAAAAA 0x8000 0)) (fun t =>
    t.regs.ebx == 0xAAAA0028 && t.pc == 0x10004) = true := by decide +kernel
/-- V150 -/
theorem test_sldt_mem : after (step (env0 [] (code [0x0F, 0x00, 0x05, 0x00, 0x21, 0, 0]))) (fun t =>
    peek t 0x2100 2 == [0x28, 0] && t.pc == 0x10007) = true := by decide +kernel
/-- V152, the two bytes the spec fixes, through memory -/
theorem test_str_mem : after (step (env0 [] (code [0x0F, 0x00, 0x0D, 0x00, 0x21, 0, 0]))) (fun t => peek t 0x2100 2 == [0x30, 0]) = true := by
  decide +kernel
/-- V71 -/
theorem test_lgdt : after (step { env0 (cells 0x2002 [0x27, 0, 0, 0x10, 0, 0]) (code [0x0F, 0x01, 0x15, 0x02, 0x20, 0, 0]) with gdtr := ⟨0, 0⟩ })
    (fun t => t.gdtr == ⟨0x1000, 0x27⟩ && t.pc == 0x10007) = true := by decide +kernel
/-- V73 -/
theorem test_lgdt_privilege : faults (step (env3 [] (code [0x0F, 0x01, 0x15, 0x02, 0x20, 0, 0]))) (.exception .gp .zero 0x10000) = true := by
  decide +kernel
/-- V72 -/
theorem test_lldt : after (step (withRegs { env0 [] (code [0x0F, 0x00, 0xD0]) with ldtr := segReg 0 0 } 0x28 0 0x8000 0)) (fun t =>
    t.ldtr == segReg 0x28 0x0000820030000017 && t.mem == (env0 [] (code [0x0F, 0x00, 0xD0])).mem && t.pc == 0x10003) = true := by
  decide +kernel
/-- V76 -/
theorem test_lldt_data : faults (step (withRegs (env0 [] (code [0x0F, 0x00, 0xD0])) 0x10 0 0x8000 0)) (.exception .gp (.selector 0x10) 0x10000) = true := by
  decide +kernel
/-- V89 -/
theorem test_address_size : refuses (step (env0 [] (code [0x67, 0x8E, 0x18]))) (.undecodable .addressSize16) = true := by decide +kernel
/-- The placed word is the next instruction. -/
theorem test_with_fetch_word : after (step (State.reset.withFetchWord 24 0xDB8C66)) (fun t => t.regs.ebx == 0x10 && t.pc == 0xFFF3) = true := by
  decide +kernel

/-! ## States that meet the hypotheses of the statements

Each is named after its statement. `W` reads selector 10H from EAX, the far pointer 0010H:00001000H at [EBX] and selector 10H from the stack; entry 2 of
the GDT at 1010H is the descriptor `flatData`, its accessed bit clear. -/

def W : State := withRegs (env0 (cells 0x2000 [0, 0x10, 0, 0, 0x10, 0]) (cells 0x7FFC [0x10] ++ code [0x8E, 0xD8])) 0x10 0x2000 0x7FFC 0

/-- `W` in 16-bit operand size: [EBX] holds 0010H:1000H in four bytes. -/
def W16 : State := { withRegs (env0 (cells 0x2000 [0, 0x10, 0x10, 0]) (cells 0x7FFC [0x10] ++ code [0x8E, 0xD8])) 0x10 0x2000 0x7FFC 0 with
  pfx := ⟨true, false, none, 1⟩ }

/-- `W` with null selectors in the same places. -/
def WNull : State := withRegs (env0 (cells 0x2000 [0, 0x10, 0, 0, 0x03, 0]) (cells 0x7FFC [0x03] ++ code [0x8E, 0xD8])) 3 0x2000 0x7FFC 0

/-- `W` with selector 20H, a code segment, at [EBX]. -/
def WCode : State := withRegs (env0 (cells 0x2000 [0x40, 0, 0, 0, 0x20, 0]) (code [0xFF, 0x1B])) 0 0x2000 0x8000 0

/-- `W` with page 1000H to 1FFFH in ROM. -/
def WRom : State := { W with params := { W.params with physMap := [⟨0x1000, 0x1000, .rom⟩, ⟨0, 0x800000, .ram⟩] } }

abbrev flatData : BitVec 64 := 0x00CF92000000FFFF
abbrev code20 : BitVec 64 := 0x00409A4000000FFF

/-- The accessed bit's byte lies in RAM. -/
theorem ram5 {s : State} {a : Word} (d : BitVec 64) (h : translate s (a + 5) .write = .ok (a + 5).toNat) (hr : s.params.physClass (a + 5).toNat = .ram) :
    AccessedBitCanBeSet s a d := .inr ⟨_, h, hr⟩

theorem witness_DecodeEncodeRoundTrip : Instr.wf true (.sgdt (.sib32 1 .esi .ebp 4)) = true ∧
    Instr.wf false (.callPtr (.off16 0x40) 8) = true ∧ Instr.wf true (.jmpPtr (.off32 0x40) 8) = true := by decide

theorem witness_DecodedBytesAreTheEncoding :
    decode false true [0xEA, 0x34, 0x12, 0x08, 0, 0xCC] = .ok (.jmpPtr (.off16 0x1234) 8, [0xCC]) ∧
    decode true false [0x0F, 0x00, 0xD0, 0xCC] = .ok (.lldt (.reg .eax), [0xCC]) := by decide

theorem fetchWindow_W : fetchWindow W = (0x8E :: 0xD8 :: List.replicate 13 0, .refused .overlong) := by decide +kernel

theorem witness_StepRunsTheDecodedInstruction :
    fetchWindow W = (0x8E :: 0xD8 :: List.replicate 13 0, .refused .overlong) ∧ W.segs.cs.attr.db = true ∧
    decode true true (0x8E :: 0xD8 :: List.replicate 13 0) = .ok (.movToSreg .ds (.reg .eax), List.replicate 13 0) ∧
    Instr.wf true (.movToSreg .ds (.reg .eax)) = true ∧ (Instr.movToSreg .ds (.reg .eax)).isPrefixByte = false :=
  ⟨fetchWindow_W, by decide, by decide, by decide, rfl⟩

/-- Four prefix bytes before `MOV EBX, DS`: 66H, CS override, 66H, FS override. -/
def prefixes4 : List Instr := [.opSizeByte, .segOverrideByte .cs, .opSizeByte, .segOverrideByte .fs]
def WPrefix : State := env0 [] (code [0x66, 0x2E, 0x66, 0x64, 0x8C, 0xDB])

theorem witness_StepRunsAPrefixedInstruction :
    fetchWindow WPrefix = (prefixes4.flatMap encode ++ 0x8C :: 0xDB :: List.replicate 9 0, .refused .overlong) ∧
    WPrefix.segs.cs.attr.db = true ∧ (∀ x ∈ prefixes4, x.isPrefixByte = true) ∧
    decode (!decide (.opSizeByte ∈ prefixes4)) (!decide (.addrSizeByte ∈ prefixes4)) (0x8C :: 0xDB :: List.replicate 9 0) =
      .ok (.movFromSreg (.reg .ebx) .ds, List.replicate 9 0) ∧
    (Instr.movFromSreg (.reg .ebx) .ds).isPrefixByte = false ∧ latchOf prefixes4 = ⟨true, false, some .fs, 4⟩ :=
  ⟨by decide +kernel, by decide, by decide, by decide, rfl, by decide⟩

/-- No prefix byte. -/
theorem witness_StepRunsAPrefixedInstruction_none :
    fetchWindow W = (([] : List Instr).flatMap encode ++ 0x8E :: 0xD8 :: List.replicate 13 0, .refused .overlong) ∧
    decode (!decide (Instr.opSizeByte ∈ ([] : List Instr))) (!decide (Instr.addrSizeByte ∈ ([] : List Instr))) (0x8E :: 0xD8 :: List.replicate 13 0) =
      .ok (.movToSreg .ds (.reg .eax), List.replicate 13 0) := ⟨fetchWindow_W, by decide⟩

/-- A refused form after a prefix byte, R109 (d). -/
theorem witness_StepRunsAPrefixedInstruction_refused : let s := env0 [] (code [0x66, 0x90])
    fetchWindow s = (([.opSizeByte] : List Instr).flatMap encode ++ 0x90 :: List.replicate 13 0, .refused .overlong) ∧
    s.segs.cs.attr.db = true ∧ decode false true (0x90 :: List.replicate 13 0) = .error .noRow := by decide +kernel

/-- R104 with log 15: of two overrides the last counts; ES, the first, holds a null selector. -/
theorem test_last_override : after (step (withRegs (env0 (cells 0x2000 [0, 0x10, 0, 0, 0x10, 0]) (code [0x26, 0x3E, 0xC5, 0x33])) 0 0x2000 0x8000 0))
    (fun t => t.regs.esi == 0x1000 && t.pc == 0x10004) = true := by decide +kernel

theorem witness_StepRunsTheEncodedInstruction : ∀ (k : Nat) (b : Byte),
    (encode (.movToSreg .ds (.reg .eax)))[k]? = some b → fetchByte W k = .ok b := by
  intro k b h
  match k, h with
  | 0, h => cases h; decide +kernel
  | 1, h => cases h; decide +kernel
  | k + 2, h => simp [encode, RM.encode] at h

/-- The first offset beyond the limit 0FFFH. -/
theorem witness_FetchBeyondTheLimitTakesGP :
    isNull (segReg 0x20 0x00409B4000000FFF).sel = false ∧ (segReg 0x20 0x00409B4000000FFF).attr.type.getLsbD 3 = true ∧
    (effLimit (segReg 0x20 0x00409B4000000FFF).limit (segReg 0x20 0x00409B4000000FFF).attr.g).toNat < (0x1000 : Word).toNat := by decide

/-- V126 and a form with a prefix byte: code at the last offsets of the segment 20H, whose limit is 0FFFH. -/
def WEdge (pc : Word) (bs : List Byte) : State :=
  { env0 [] (cells (0x400000 + pc.toNat) bs) with pc := pc, segs := { (env0 [] []).segs with cs := segReg 0x20 0x00409B4000000FFF } }

theorem witness_FetchBeyondTheLimitTakesGP_crossing :
    (WEdge 0xFFF [0x8E]).segs.cs.attr.db = true ∧
    (effLimit (WEdge 0xFFF [0x8E]).segs.cs.limit (WEdge 0xFFF [0x8E]).segs.cs.attr.g).toNat + 1 = (WEdge 0xFFF [0x8E]).pc.toNat + 1 ∧
    fetchByte (WEdge 0xFFF [0x8E]) 0 = .ok 0x8E ∧ decode true true [0x8E] = .error (.truncated 1) ∧
    (WEdge 0xFFE [0x66, 0x8E]).pc.toNat + (([.opSizeByte] : List Instr).flatMap encode ++ [0x8E]).length = 0xFFF + 1 ∧
    fetchByte (WEdge 0xFFE [0x66, 0x8E]) 0 = .ok 0x66 ∧ fetchByte (WEdge 0xFFE [0x66, 0x8E]) 1 = .ok 0x8E ∧
    decode false true [0x8E] = .error (.truncated 1) ∧
    fetchByte (WEdge 0xFFE [0x66, 0x8E]) 2 = .error (.fault (.exception .gp .zero 0xFFE)) := by decide +kernel

/-- R178, D25: of `JMP ptr16:32`, seven bytes long, only the first is readable: the page fault of the second is taken from FF9H, the last
place where all seven lie within the limit, and #GP(0) from FFAH. -/
theorem test_limit_before_page_fault :
    let run (pc : Word) := runBytes exec (.fault (.exception .pf (.linear (0x400001 + pc)) pc)) 16 [0xEA] (WEdge pc [0xEA])
    faults (run 0xFF9) (.exception .pf (.linear 0x400FFA) 0xFF9) = true ∧ faults (run 0xFFA) (.exception .gp .zero 0xFFA) = true := by
  decide +kernel

/-- V126 -/
theorem test_fetch_across_limit : faults (step (WEdge 0xFFF [0x8E])) (.exception .gp .zero 0xFFF) = true := by decide +kernel

/-- Log 30: at the last byte of the code segment a bad `reg` of 8E with a displacement beyond the limit takes the fetch fault, LIDT is refused. -/
theorem test_refusal_or_fetch_fault : faults (step (WEdge 0xFFE [0x8E, 0x35])) (.exception .gp .zero 0xFFE) = true ∧
    refuses (step (WEdge 0xFFD [0x0F, 0x01, 0x1D])) (.undecodable .lidtLtrNotInSource) = true := by decide +kernel

def WCode16 : State := { W with segs := { W.segs with cs := segReg 0x08 0x008F9B000000FFFF } }

theorem witness_SixteenBitCodeSegmentIsRefused : WCode16.segs.cs.attr.db = false ∧ fetchByte WCode16 0 = .ok 0x8E := by decide +kernel

theorem witness_ExceptionNamesTheInstructionPc : step (env0 [] (code [0x8E, 0xD0])) = .fault (.exception .gp .zero 0x10000) :=
  fault_of_faults test_mov_ss_null

theorem witness_DescriptorFieldsReadBack : (0x12DAD0345678BCDE : BitVec 64) =
    (0x12345678 : Word).extractLsb' 24 8 ++ BitVec.ofBool true ++ BitVec.ofBool true ++ BitVec.ofBool false ++ BitVec.ofBool true ++
      (0xABCDE : BitVec 20).extractLsb' 16 4 ++ BitVec.ofBool true ++ (2 : BitVec 2) ++ BitVec.ofBool true ++ (0 : BitVec 4) ++
      (0x12345678 : Word).extractLsb' 0 24 ++ (0xABCDE : BitVec 20).extractLsb' 0 16 := by decide

/-- V24, V101 and the last entries within each table's limit; V119. -/
theorem witness_DescriptorAddress :
    isNull 0x48 = false ∧ descAddr (env0 [] []) 0x48 = .ok 0x1048 ∧
    descAddr (env0 [] []) 0x50 = .error (.fault (exceptionAt (env0 [] []) .gp (.selector 0x50))) ∧
    isNull 0x14 = false ∧ descAddr (env0 [] []) 0x14 = .ok 0x3010 ∧
    descAddr (env0 [] []) 0x1C = .error (.fault (exceptionAt (env0 [] []) .gp (.selector 0x1C))) ∧
    descAddr { env0 [] [] with ldtr := segReg 0 0 } 0x04 =
      .error (.fault (exceptionAt { env0 [] [] with ldtr := segReg 0 0 } .gp (.selector 0x04))) := by decide +kernel

def withDs (d : BitVec 64) : State := { env0 [] [] with segs := { (env0 [] []).segs with ds := segReg 0x10 d } }
def withSs (d : BitVec 64) : State := { env0 [] [] with segs := { (env0 [] []).segs with ss := segReg 0x10 d } }

/-- V40 and V41: the last offset and the first beyond it. -/
theorem witness_ExpandUpLimit :
    isNull ((withDs 0x004093100000FFFF).seg .ds).sel = false ∧ typeAllows .read ((withDs 0x004093100000FFFF).seg .ds).attr = true ∧
    ((withDs 0x004093100000FFFF).seg .ds).attr.type.getLsbD 2 = false ∧
    segAccess (withDs 0x004093100000FFFF) .ds 0xFFFF 1 .read = .ok 0x10FFFF ∧
    segAccess (withDs 0x004093100000FFFF) .ds 0xFFFF 2 .read = .error (.fault (.exception .gp .zero 0x10000)) := by decide +kernel

/-- V47, V48, V50, V51, V53, V54: both bounds, with B = 1 and B = 0. -/
theorem witness_ExpandDownLimit :
    isNull ((withSs 0x004097200000EFFF).seg .ss).sel = false ∧ typeAllows .write ((withSs 0x004097200000EFFF).seg .ss).attr = true ∧
    ((withSs 0x004097200000EFFF).seg .ss).attr.type.getLsbD 3 = false ∧ ((withSs 0x004097200000EFFF).seg .ss).attr.type.getLsbD 2 = true ∧
    segAccess (withSs 0x004097200000EFFF) .ss 0xF000 4 .write = .ok 0x20F000 ∧
    segAccess (withSs 0x004097200000EFFF) .ss 0xEFFF 1 .read = .error (.fault (.exception .ss .zero 0x10000)) ∧
    segAccess (withSs 0x004097200000EFFF) .ss 0xFFFFFFFC 4 .write = .ok 0x1FFFFC ∧
    segAccess (withSs 0x004097200000EFFF) .ss 0xFFFFFFFD 4 .write = .error (.fault (.exception .ss .zero 0x10000)) ∧
    segAccess (withSs 0x000097200000EFFF) .ss 0xFFFC 4 .write = .ok 0x20FFFC ∧
    segAccess (withSs 0x000097200000EFFF) .ss 0xFFFD 4 .write = .error (.fault (.exception .ss .zero 0x10000)) := by decide +kernel

/-- V130, through each of the three registers that hold a null selector. -/
theorem witness_NullRegisterAccessTakesGP : ∀ sr ∈ [SReg.es, .fs, .gs], isNull ((env0 [] []).seg sr).sel = true := by decide

/-- V121, V123, V128. -/
theorem witness_ForbiddenAccessTakesGP : ((withDs 0x004091100000FFFF).seg .ds).attr.type.getLsbD 1 = false ∧
    ((withDs 0x00409B4000000FFF).seg .ds).attr.type.getLsbD 3 = true ∧
    ((withDs 0x0040994000000FFF).seg .ds).attr.type.getLsbD 3 = true ∧ ((withDs 0x0040994000000FFF).seg .ds).attr.type.getLsbD 1 = false := by decide

theorem witness_PagingOffIsTheIdentity : State.reset.params.pagingEnabled = false := rfl

theorem witness_PagingOnTranslatesEachByteOrFaults :
    ({ State.reset with params := { State.reset.params with pagingEnabled := true } } : State).params.pagingEnabled = true := rfl

/-- Four bytes at FFFFFFFEH, two of them past the wrap. -/
theorem witness_ReadAfterWriteInRam : State.reset.params.pagingEnabled = false ∧
    (∀ i < 4, State.reset.params.physClass (((0xFFFFFFFE : Word).toNat + i) % 4294967296) = .ram) ∧
    memWrite State.reset 0xFFFFFFFE [1, 2, 3, 4] = .ok [(0xFFFFFFFE, 1), (0xFFFFFFFF, 2), (0, 3), (1, 4)] := by decide +kernel

theorem witness_WritesOutsideRamAreDropped :
    ∀ w ∈ [(0x1005, (0x93 : Byte)), (0x800000, 1)], WRom.params.physClass w.1 ≠ .ram := by decide +kernel

/-- MOV, POP and LGS of selector 10H. -/
theorem segLoadTo_mov : SegLoadTo W (.movToSreg .ds (.reg .eax)) .ds 0x10 := .inl ⟨_, rfl, by decide, by decide +kernel⟩
theorem segLoadTo_pop : SegLoadTo W .popSS .ss 0x10 := .inr (.inl ⟨[0x10, 0, 0, 0], by decide, by decide +kernel, by decide⟩)
theorem segLoadTo_far : SegLoadTo W (.lgs .esi (.base .ebx)) .gs 0x10 :=
  .inr (.inr ⟨.esi, .base .ebx, ⟨0x1000, 0x10⟩, by decide, by decide +kernel, rfl⟩)

theorem witness_RomAccessedBitCompletesOrHangs : SegLoadTo WRom (.movToSreg .ds (.reg .eax)) .ds 0x10 ∧ SegLoadTo WRom .popSS .ss 0x10 ∧
    SegLoadTo WRom (.lgs .esi (.base .ebx)) .gs 0x10 ∧ SegLoadable WRom .ds 0x10 0x1010 flatData ∧ SegLoadable WRom .ss 0x10 0x1010 flatData ∧
    SegLoadable WRom .gs 0x10 0x1010 flatData ∧ AccessedBitOutsideRam WRom 0x1010 flatData :=
  ⟨.inl ⟨_, rfl, by decide, by decide +kernel⟩, .inr (.inl ⟨[0x10, 0, 0, 0], by decide, by decide +kernel, by decide⟩),
    .inr (.inr ⟨.esi, .base .ebx, ⟨0x1000, 0x10⟩, by decide, by decide +kernel, rfl⟩), by decide +kernel, by decide +kernel, by decide +kernel,
    by decide, 0x1015, by decide +kernel, by decide +kernel⟩

/-- `WCode` with page 1000H to 1FFFH in ROM. -/
def WRomCode : State := { WCode with params := WRom.params }

theorem witness_RomAccessedBitOfCsCompletesOrHangs : CsLoadable WRomCode 0x20 0x1020 code20 ∧ AccessedBitOutsideRam WRomCode 0x1020 code20 ∧
    JmpTo WRomCode (.jmpPtr (.off32 0x40) 0x20) ⟨0x40, 0x20⟩ ∧ CallTo WRomCode (.callMem (.base .ebx)) ⟨0x40, 0x20⟩ ∧
    spAfterPush WRomCode WRomCode.stackPtr = 0x7FFC ∧ spAfterPush WRomCode 0x7FFC = 0x7FF8 ∧
    segAccess WRomCode .ss 0x7FFC 4 .write = .ok 0x7FFC ∧ walk WRomCode 0x7FFC .write 4 = .ok [0x7FFC, 0x7FFD, 0x7FFE, 0x7FFF] ∧
    segAccess WRomCode .ss 0x7FF8 4 .write = .ok 0x7FF8 ∧ walk WRomCode 0x7FF8 .write 4 = .ok [0x7FF8, 0x7FF9, 0x7FFA, 0x7FFB] :=
  ⟨by decide +kernel, ⟨by decide, 0x1025, by decide +kernel, by decide +kernel⟩, .inl ⟨_, _, rfl, rfl⟩, .inr ⟨_, rfl, by decide +kernel⟩,
    by decide +kernel, by decide +kernel, by decide +kernel, by decide +kernel, by decide +kernel, by decide +kernel⟩

/-- A load of `sel` from EAX. -/
theorem segLoadTo_eax (s : State) (sr : SReg) (h : sr ≠ .cs) : SegLoadTo s (.movToSreg sr (.reg .eax)) sr (s.reg16 .eax) :=
  .inl ⟨_, rfl, h, rfl⟩

/-- V101 (table limit), V104 (S = 0), V25 (code into SS), V27 (execute-only code), V28 and V110 (privilege), V23 and V100 (P = 0); any selector
comes from EAX, by `segLoadTo_eax`, and 10H by each source. -/
theorem witness_LoadSegRegChecksInOrder :
    (SegLoadTo W (.movToSreg .ds (.reg .eax)) .ds 0x10 ∧ SegLoadTo W .popSS .ss 0x10 ∧ SegLoadTo W (.lgs .esi (.base .ebx)) .gs 0x10) ∧
    (isNull 0x50 = false ∧ selDesc W 0x50 = .error (.fault (exceptionAt W .gp (.selector 0x50)))) ∧
    (SegLoadable W .ds 0x10 0x1010 flatData ∧ SegLoadable W .ss 0x10 0x1010 flatData ∧ (descAttr flatData).accessed = false) ∧
    (descAddr W 0x28 = .ok 0x1028 ∧ readDesc W 0x1028 = .ok 0x0000820030000017 ∧ (descAttr 0x0000820030000017).s = false) ∧
    (readDesc W 0x1008 = .ok 0x00CF9A000000FFFF ∧ (descAttr 0x00CF9A000000FFFF).s = true ∧ (descAttr 0x00CF9A000000FFFF).type = 10) ∧
    (readDesc W 0x1038 = .ok 0x0040984000000FFF ∧ (descAttr 0x0040984000000FFF).type = 8) ∧
    (readDesc (env3 [] []) 0x1010 = .ok flatData ∧ (descAttr flatData).dpl.toNat < (env3 [] []).cpl.toNat) ∧
    (readDesc W 0x1048 = .ok 0x00CFF2000000FFFF ∧ selRPL 0x49 ≠ W.cpl) ∧
    (readDesc W 0x1030 = .ok 0x004012100000FFFF ∧ (descAttr 0x004012100000FFFF).p = false ∧ (descAttr 0x004012100000FFFF).type = 2 ∧
      (descAttr 0x004012100000FFFF).s = true ∧ (descAttr 0x004012100000FFFF).dpl = W.cpl ∧ selRPL 0x30 = W.cpl) :=
  ⟨⟨segLoadTo_mov, segLoadTo_pop, segLoadTo_far⟩, by decide +kernel, ⟨by decide +kernel, by decide +kernel, by decide⟩, by decide +kernel, by decide +kernel, by decide +kernel,
    by decide +kernel, by decide +kernel, by decide +kernel⟩

/-- Selector 3, the largest null selector, from each source. -/
theorem witness_NullSelectorIntoSsTakesGP :
    readRM16 WNull (.reg .eax) = .ok 3 ∧ isNull 3 = true ∧
    segRead WNull .stack .ss WNull.stackPtr WNull.opBytes = .ok [3, 0, 0, 0] ∧ isNull (le16 ([3, 0, 0, 0].take 2)) = true ∧
    readFarPtr WNull (.base .ebx) = .ok ⟨0x1000, 3⟩ := by decide +kernel

theorem witness_NullSelectorLoadsQuietly :
    readRM16 WNull (.reg .eax) = .ok 3 ∧ segRead WNull .stack .ss WNull.stackPtr WNull.opBytes = .ok [3, 0, 0, 0] ∧
    readFarPtr WNull (.base .ebx) = .ok ⟨0x1000, 3⟩ ∧ isNull 3 = true ∧ isNull (le16 ([3, 0, 0, 0].take 2)) = true ∧
    (Instr.popGS, SReg.gs) ∈ popForms ∧ (Instr.les .edi (.base .ebx), SReg.es) ∈ farLoadForms .edi (.base .ebx) := by decide +kernel

theorem witness_MovToSregLoadsTheSegment : SReg.ds ≠ .cs ∧ readRM16 W (.reg .eax) = .ok 0x10 ∧ SegLoadable W .ds 0x10 0x1010 flatData ∧
    SegLoadable W .ss 0x10 0x1010 flatData ∧ AccessedBitCanBeSet W 0x1010 flatData :=
  ⟨by decide, by decide +kernel, by decide +kernel, by decide +kernel, ram5 _ (by decide +kernel) (by decide +kernel)⟩

/-- The boundary of the privilege rule: DPL = max(CPL, RPL). -/
theorem witness_MovToSregLoadsTheSegment_ldt : SegLoadable { W with cpl := 2 } .gs 0x16 0x3010 0x12DAD0345678BCDE := by decide +kernel

theorem witness_PopSregLoadsAndAdvancesTheStack : segRead W .stack .ss W.stackPtr W.opBytes = .ok [0x10, 0, 0, 0] ∧
    le16 ([0x10, 0, 0, 0].take 2) = 0x10 ∧ (∀ f ∈ popForms, SegLoadable W f.2 0x10 0x1010 flatData) ∧ AccessedBitCanBeSet W 0x1010 flatData :=
  ⟨by decide +kernel, by decide, by decide +kernel, ram5 _ (by decide +kernel) (by decide +kernel)⟩

/-- SP = FFFEH with B = 0 and OpSize 16: the last word below the wrap. -/
def WSmallStack : State := { withRegs (withSmallStack (env0 [] (code [0x07] ++ cells 0x20FFFE [0x10]))) 0 0 0x1234FFFE 0 with
  pfx := ⟨true, false, none, 1⟩ }

theorem witness_PopSregLoadsAndAdvancesTheStack_wrap :
    segRead WSmallStack .stack .ss WSmallStack.stackPtr WSmallStack.opBytes = .ok [0x10, 0] ∧ WSmallStack.segs.ss.attr.db = false ∧
    SegLoadable WSmallStack .es 0x10 0x1010 flatData ∧
    after (exec .popES WSmallStack) (fun t => t.regs.esp == 0x12340000) = true := by decide +kernel

theorem witness_FarPointerLoads : readFarPtr W (.base .ebx) = .ok ⟨0x1000, 0x10⟩ ∧ readFarPtr W16 (.base .ebx) = .ok ⟨0x1000, 0x10⟩ ∧
    (∀ f ∈ farLoadForms .esi (.base .ebx), SegLoadable W f.2 0x10 0x1010 flatData) ∧ SegLoadable W16 .gs 0x10 0x1010 flatData ∧
    AccessedBitCanBeSet W 0x1010 flatData :=
  ⟨by decide +kernel, by decide +kernel, by decide +kernel, by decide +kernel, ram5 _ (by decide +kernel) (by decide +kernel)⟩

theorem witness_FarPointerLayout :
    segRead W .operand (operandSeg W (.base .ebx)) (effAddr W (.base .ebx)) 4 = .ok [0, 0x10, 0, 0] ∧
    segRead W .selector (operandSeg W (.base .ebx)) (effAddr W (.base .ebx) + 4) 2 = .ok [0x10, 0] ∧ W.op32 = true ∧
    segRead W16 .operand (operandSeg W16 (.base .ebx)) (effAddr W16 (.base .ebx)) 2 = .ok [0, 0x10] ∧
    segRead W16 .selector (operandSeg W16 (.base .ebx)) (effAddr W16 (.base .ebx) + 2) 2 = .ok [0x10, 0] ∧ W16.op32 = false := by
  decide +kernel

/-- A data and a stack segment, by MOV, POP and a far-pointer load. -/
theorem witness_LoadedSegmentIsPrivileged :
    after (exec (.movToSreg .ds (.reg .eax)) W) (fun t => !isNull (t.seg .ds).sel) = true ∧
    after (exec .popSS W) (fun t => !isNull (t.seg .ss).sel) = true ∧
    after (exec (.lgs .esi (.base .ebx)) W) (fun t => !isNull (t.seg .gs).sel) = true := by decide +kernel

theorem witness_SelectorStoredToRegister : (Instr.movFromSreg (.reg .ebx) .gs, W.segs.gs.sel) ∈ selStoreForms W (.reg .ebx) ∧
    (Instr.sldt (.reg .ebx), W.ldtr.sel) ∈ selStoreForms W (.reg .ebx) ∧ (Instr.str (.reg .ebx), W.trSel) ∈ selStoreForms W (.reg .ebx) := by
  decide +kernel

theorem witness_SelectorStoredToMemory : (Instr.str (.mem (.abs 0x2100)), W.trSel) ∈ selStoreForms W (.mem (.abs 0x2100)) ∧
    segAccess W (operandSeg W (.abs 0x2100)) (effAddr W (.abs 0x2100)) 2 .write = .ok 0x2100 ∧
    walk W 0x2100 .write 2 = .ok [0x2100, 0x2101] ∧ W.romDescriptor 0x2100 = false ∧ W.romDescriptor 0x2101 = false := by decide +kernel

/-- Bytes of descriptors in ROM, R206: of the GDT up to its limit 4FH, of the LDT in LDTR and, with LDTR null, of the LDT that entry 5 of the
GDT describes, up to its limit 17H; the store of MOV then falls on one. -/
theorem witness_SelectorStoredToMemory_rom :
    let map : List Region := [⟨0x1000, 0x3000, .rom⟩, ⟨0, 0x800000, .ram⟩]
    let s : State := { W with params := { W.params with physMap := map } }
    let t : State := { s with ldtr := segReg 0 0 }
    (s.romDescriptor 0x1000 && s.romDescriptor 0x104F && !s.romDescriptor 0x1050 && s.romDescriptor 0x3000 && s.romDescriptor 0x3017 &&
      !s.romDescriptor 0x3018 && !s.romDescriptor 0x0FFF && t.romDescriptor 0x3017 && !t.romDescriptor 0x3018) = true ∧
    walk s 0x1016 .write 2 = .ok [0x1016, 0x1017] ∧ s.romDescriptor 0x1016 = true := by decide +kernel

theorem witness_PseudoDescriptorStored : (Instr.sgdt (.abs 0x2002), W.gdtr) ∈ tableStoreForms W (.abs 0x2002) ∧
    (Instr.sidt (.abs 0x2002), W.idtr) ∈ tableStoreForms W (.abs 0x2002) ∧
    segAccess W (operandSeg W (.abs 0x2002)) (effAddr W (.abs 0x2002)) 6 .write = .ok 0x2002 ∧
    walk W 0x2002 .write 6 = .ok [0x2002, 0x2003, 0x2004, 0x2005, 0x2006, 0x2007] ∧
    ∀ pa ∈ [0x2002, 0x2003, 0x2004, 0x2005, 0x2006, 0x2007], W.romDescriptor pa = false := by decide +kernel

theorem witness_LgdtLoadsGdtr : W.cpl = 0 ∧
    segAccess W (operandSeg W (.base .ebx)) (effAddr W (.base .ebx)) 6 .read = .ok 0x2000 ∧
    segRead W .operand (operandSeg W (.base .ebx)) (effAddr W (.base .ebx)) 2 = .ok [0, 0x10] ∧
    segRead W .tableBase (operandSeg W (.base .ebx)) (effAddr W (.base .ebx) + 2) 4 = .ok [0, 0, 0x10, 0] := by decide +kernel

/-- V72 and V74. -/
theorem witness_LldtLoadsLdtr : W.cpl = 0 ∧ readRM16 { W with regs := { W.regs with eax := 0x28 } } (.reg .eax) = .ok 0x28 ∧
    isNull 0x28 = false ∧ (0x28 : Sel).getLsbD 2 = false ∧ descAddr W 0x28 = .ok 0x1028 ∧ readDesc W 0x1028 = .ok 0x0000820030000017 ∧
    (descAttr 0x0000820030000017).s = false ∧ (descAttr 0x0000820030000017).type = 2 ∧ (descAttr 0x0000820030000017).p = true ∧
    readRM16 WNull (.reg .eax) = .ok 3 := by decide +kernel

/-- V75, V76, V77. -/
theorem witness_LldtChecksTheDescriptor : W.cpl = 0 ∧ readRM16 W (.reg .eax) = .ok 0x10 ∧ isNull 0x10 = false ∧ descAddr W 0x10 = .ok 0x1010 ∧
    readDesc W 0x1010 = .ok flatData ∧ (descAttr flatData).s = true ∧ (0x2C : Sel).getLsbD 2 = true ∧ isNull 0x2C = false ∧
    (descAttr 0x0000020030000017).s = false ∧ (descAttr 0x0000020030000017).type = 2 ∧ (descAttr 0x0000020030000017).p = false ∧
    readDesc { W with mem := cells 0x1010 [0x17, 0, 0, 0x30, 0, 0x02, 0, 0] } 0x1010 = .ok 0x0000020030000017 ∧
    isNull 0x50 = false ∧ (0x50 : Sel).getLsbD 2 = false ∧ selDesc W 0x50 = .error (.fault (exceptionAt W .gp (.selector 0x50))) := by decide +kernel

theorem witness_TableLoadsNeedLevelZero : (env3 [] []).cpl ≠ 0 := by decide

theorem witness_FarJmpLoadsCs : JmpTo WCode (.jmpMem (.base .ebx)) ⟨0x40, 0x20⟩ ∧ JmpTo WCode (.jmpPtr (.off32 0x40) 0x20) ⟨0x40, 0x20⟩ ∧
    CsLoadable WCode 0x20 0x1020 code20 ∧ AccessedBitCanBeSet WCode 0x1020 code20 :=
  ⟨.inr ⟨_, rfl, by decide +kernel⟩, .inl ⟨_, _, rfl, rfl⟩, by decide +kernel, ram5 _ (by decide +kernel) (by decide +kernel)⟩

/-- V32: a conforming target at CPL 3. -/
theorem witness_FarJmpLoadsCs_conforming : CsLoadable (env3 [] []) 0x43 0x1040 0x00409E4000000FFF := by decide +kernel

theorem witness_FarCallPushesAndLoadsCs : CallTo WCode (.callMem (.base .ebx)) ⟨0x40, 0x20⟩ ∧ CallTo WCode (.callPtr (.off32 0x40) 0x20) ⟨0x40, 0x20⟩ ∧
    CsLoadable WCode 0x20 0x1020 code20 ∧ AccessedBitCanBeSet WCode 0x1020 code20 ∧
    segAccess WCode .ss 0x7FFC 4 .write = .ok 0x7FFC ∧ walk WCode 0x7FFC .write 4 = .ok [0x7FFC, 0x7FFD, 0x7FFE, 0x7FFF] ∧
    segAccess WCode .ss 0x7FF8 4 .write = .ok 0x7FF8 ∧ walk WCode 0x7FF8 .write 4 = .ok [0x7FF8, 0x7FF9, 0x7FFA, 0x7FFB] ∧
    ∀ pa ∈ [0x7FFC, 0x7FFD, 0x7FFE, 0x7FFF, 0x7FF8, 0x7FF9, 0x7FFA, 0x7FFB], WCode.romDescriptor pa = false :=
  ⟨.inr ⟨_, rfl, by decide +kernel⟩, .inl ⟨_, _, rfl, rfl⟩, by decide +kernel, ram5 _ (by decide +kernel) (by decide +kernel),
    by decide +kernel, by decide +kernel, by decide +kernel, by decide +kernel, by decide +kernel⟩

/-- V35 (null), the table limit, V36 (S = 0), V34 (data), V33 and V38 (privilege), V37 (P = 0). -/
theorem witness_FarTransferChecksInOrder : JmpTo WNull (.jmpMem (.base .ebx)) ⟨0x1000, 3⟩ ∧ isNull 3 = true ∧
    (isNull 0x50 = false ∧ selDesc W 0x50 = .error (.fault (exceptionAt W .gp (.selector 0x50)))) ∧
    (descAddr W 0x28 = .ok 0x1028 ∧ readDesc W 0x1028 = .ok 0x0000820030000017 ∧ (descAttr 0x0000820030000017).s = false) ∧
    (descAddr W 0x10 = .ok 0x1010 ∧ readDesc W 0x1010 = .ok flatData ∧ (descAttr flatData).s = true ∧ (descAttr flatData).type.getLsbD 3 = false) ∧
    (descAddr W 0x23 = .ok 0x1020 ∧ readDesc W 0x1020 = .ok code20 ∧ (descAttr code20).type.getLsbD 2 = false ∧ W.cpl.toNat < (selRPL 0x23).toNat) ∧
    (readDesc { W with mem := cells 0x1020 [0xFF, 0x0F, 0, 0, 0x40, 0x1A, 0x40, 0] } 0x1020 = .ok 0x00401A4000000FFF ∧
      (descAttr 0x00401A4000000FFF).type.getLsbD 3 = true ∧ (descAttr 0x00401A4000000FFF).dpl = W.cpl ∧ (descAttr 0x00401A4000000FFF).p = false) :=
  ⟨.inr ⟨_, rfl, by decide +kernel⟩, by decide, by decide +kernel, by decide +kernel, by decide +kernel, by decide +kernel, by decide +kernel⟩

theorem witness_FarTransferChecksInOrder_accessed : CsLoadable WCode 0x20 0x1020 code20 ∧ (descAttr code20).accessed = false ∧
    JmpTo WCode (.jmpPtr (.off32 0x40) 0x20) ⟨0x40, 0x20⟩ ∧ CallTo WCode (.callMem (.base .ebx)) ⟨0x40, 0x20⟩ ∧
    storeAddrs WCode .ss (spAfterPush WCode WCode.stackPtr) 4 = .ok [0x7FFC, 0x7FFD, 0x7FFE, 0x7FFF] ∧
    storeAddrs WCode .ss (spAfterPush WCode (spAfterPush WCode WCode.stackPtr)) 4 = .ok [0x7FF8, 0x7FF9, 0x7FFA, 0x7FFB] :=
  ⟨by decide +kernel, by decide, .inl ⟨_, _, rfl, rfl⟩, .inr ⟨_, rfl, by decide +kernel⟩, by decide +kernel, by decide +kernel⟩

/-- An operand beyond the limit 0FFFFH of DS: bytes 0FFFEH to 10003H of the 6-byte forms, 0FFFFH of the 2-byte forms. -/
def WShortDs (ebx : Word) : State := withRegs (withDs 0x004093100000FFFF) 0 ebx 0x8000 0
/-- ESP at the upper end of the expand-down stack 18H with B = 1, and in its hole. -/
def WStackEnd : State := withRegs (withSs 0x004097200000EFFF) 0 0 0xFFFFFFFE 0
/-- `WCode` on the stack 18H with B = 0, whose offsets are F000H to FFFFH. -/
def WCodeSmall (esp : Word) : State := withRegs (withSmallStack WCode) 0 0x2000 esp 0

theorem witness_OperandFaultsEndTheInstruction_mem :
    readRM16 (WShortDs 0xFFFF) (.mem (.base .ebx)) = .error (.fault (exceptionAt (WShortDs 0xFFFF) .gp .zero)) ∧ (WShortDs 0xFFFF).cpl = 0 ∧
    segRead WStackEnd .stack .ss WStackEnd.stackPtr WStackEnd.opBytes = .error (.fault (exceptionAt WStackEnd .ss .zero)) ∧
    readFarPtr (WShortDs 0xFFFC) (.base .ebx) = .error (.fault (exceptionAt (WShortDs 0xFFFC) .gp .zero)) ∧
    (let s := WShortDs 0xFFFF
     storeAddrs s (operandSeg s (.base .ebx)) (effAddr s (.base .ebx)) 2 = .error (.fault (exceptionAt s .gp .zero))) ∧
    (let s := WShortDs 0xFFFB
     storeAddrs s (operandSeg s (.base .ebx)) (effAddr s (.base .ebx)) 6 = .error (.fault (exceptionAt s .gp .zero)) ∧
     segRead s .operand (operandSeg s (.base .ebx)) (effAddr s (.base .ebx)) 2 = .ok [0, 0] ∧
     (do let _ ← segAccess s (operandSeg s (.base .ebx)) (effAddr s (.base .ebx)) 6 .read
         segRead s .tableBase (operandSeg s (.base .ebx)) (effAddr s (.base .ebx) + 2) 4) = .error (.fault (exceptionAt s .gp .zero))) ∧
    segRead (WShortDs 0xFFFF) .operand (operandSeg (WShortDs 0xFFFF) (.base .ebx)) (effAddr (WShortDs 0xFFFF) (.base .ebx)) 2 =
      .error (.fault (exceptionAt (WShortDs 0xFFFF) .gp .zero)) := by decide +kernel

/-- R164 and log 18: EA = FFFFFFFEH in a flat segment, where EA + 2 wraps to a readable offset, takes the exception of a 6-byte read. -/
theorem test_lgdt_wrap : faults (exec (.lgdt (.base .ebx)) (withRegs (env0 [] []) 0 0xFFFFFFFE 0x8000 0)) (.exception .gp .zero 0x10000) = true := by
  decide +kernel

/-- The first push crosses the lower bound from SP = F003H, the second from F004H (V53). -/
theorem witness_OperandFaultsEndTheInstruction_call :
    CallTo (WCodeSmall 0x1234F003) (.callPtr (.off32 0x40) 0x20) ⟨0x40, 0x20⟩ ∧ CsLoadable (WCodeSmall 0x1234F003) 0x20 0x1020 code20 ∧
    spAfterPush (WCodeSmall 0x1234F003) (WCodeSmall 0x1234F003).stackPtr = 0xEFFF ∧
    storeAddrs (WCodeSmall 0x1234F003) .ss 0xEFFF 4 = .error (.fault (exceptionAt (WCodeSmall 0x1234F003) .ss .zero)) ∧
    CallTo (WCodeSmall 0x1234F004) (.callMem (.base .ebx)) ⟨0x40, 0x20⟩ ∧ CsLoadable (WCodeSmall 0x1234F004) 0x20 0x1020 code20 ∧
    spAfterPush (WCodeSmall 0x1234F004) (WCodeSmall 0x1234F004).stackPtr = 0xF000 ∧
    storeAddrs (WCodeSmall 0x1234F004) .ss 0xF000 4 = .ok [0x20F000, 0x20F001, 0x20F002, 0x20F003] ∧
    spAfterPush (WCodeSmall 0x1234F004) 0xF000 = 0xEFFC ∧
    storeAddrs (WCodeSmall 0x1234F004) .ss 0xEFFC 4 = .error (.fault (exceptionAt (WCodeSmall 0x1234F004) .ss .zero)) :=
  ⟨.inl ⟨_, _, rfl, rfl⟩, by decide +kernel, by decide +kernel, by decide +kernel, .inr ⟨_, rfl, by decide +kernel⟩, by decide +kernel,
    by decide +kernel, by decide +kernel, by decide +kernel, by decide +kernel⟩

/-- R141 on the stack with B = 0: the pushes from SP = 0000H wrap to FFFCH. -/
theorem witness_FarCallPushesAndLoadsCs_small : (WCodeSmall 0x12340000).segs.ss.attr.db = false ∧
    CallTo (WCodeSmall 0x12340000) (.callMem (.base .ebx)) ⟨0x40, 0x20⟩ ∧ CsLoadable (WCodeSmall 0x12340000) 0x20 0x1020 code20 ∧
    AccessedBitCanBeSet (WCodeSmall 0x12340000) 0x1020 code20 ∧ spAfterPush (WCodeSmall 0x12340000) 0 = 0xFFFC ∧
    spAfterPush (WCodeSmall 0x12340000) 0xFFFC = 0xFFF8 ∧
    segAccess (WCodeSmall 0x12340000) .ss 0xFFFC 4 .write = .ok 0x20FFFC ∧
    walk (WCodeSmall 0x12340000) 0x20FFFC .write 4 = .ok [0x20FFFC, 0x20FFFD, 0x20FFFE, 0x20FFFF] ∧
    segAccess (WCodeSmall 0x12340000) .ss 0xFFF8 4 .write = .ok 0x20FFF8 ∧
    walk (WCodeSmall 0x12340000) 0x20FFF8 .write 4 = .ok [0x20FFF8, 0x20FFF9, 0x20FFFA, 0x20FFFB] :=
  ⟨by decide, .inr ⟨_, rfl, by decide +kernel⟩, by decide +kernel, ram5 _ (by decide +kernel) (by decide +kernel), by decide +kernel,
    by decide +kernel, by decide +kernel, by decide +kernel, by decide +kernel, by decide +kernel⟩

/-- R141 with B = 0: the upper half of ESP is kept. -/
theorem test_call_small_stack : after (exec (.callMem (.base .ebx)) (WCodeSmall 0x12340000)) (fun t =>
    t.regs.esp == 0x1234FFF8 && peek t 0x20FFF8 8 == [0x02, 0, 0x01, 0, 0x08, 0, 0, 0] && t.pc == 0x40) = true := by decide +kernel

theorem witness_MovToSregFrame : readRM16 W (.reg .eax) = .ok 0x10 ∧ ∃ t, exec (.movToSreg .ds (.reg .eax)) W = .next t :=
  ⟨by decide +kernel, next_of_after (p := fun _ => true) (by decide +kernel)⟩

theorem witness_PopSregFrame : (Instr.popSS, SReg.ss) ∈ popForms ∧ segRead W .stack .ss W.stackPtr W.opBytes = .ok [0x10, 0, 0, 0] ∧
    ∃ t, exec .popSS W = .next t :=
  ⟨by decide, by decide +kernel, next_of_after (p := fun _ => true) (by decide +kernel)⟩

theorem witness_FarPointerLoadFrame : (Instr.lss .esi (.base .ebx), SReg.ss) ∈ farLoadForms .esi (.base .ebx) ∧
    readFarPtr W (.base .ebx) = .ok ⟨0x1000, 0x10⟩ ∧ ∃ t, exec (.lss .esi (.base .ebx)) W = .next t :=
  ⟨by decide, by decide +kernel, next_of_after (p := fun _ => true) (by decide +kernel)⟩

theorem witness_SelectorStoreFrame :
    ((Instr.sldt (.reg .ebx), W16.ldtr.sel) ∈ selStoreForms W16 (.reg .ebx) ∧ ∃ t, exec (.sldt (.reg .ebx)) W16 = .next t) ∧
    ((Instr.str (.mem (.abs 0x2100)), W.trSel) ∈ selStoreForms W (.mem (.abs 0x2100)) ∧ ∃ t, exec (.str (.mem (.abs 0x2100))) W = .next t) :=
  ⟨⟨by decide +kernel, next_of_after (p := fun _ => true) (by decide +kernel)⟩,
    ⟨by decide +kernel, next_of_after (p := fun _ => true) (by decide +kernel)⟩⟩

theorem witness_PseudoDescriptorStoreFrame : (Instr.sidt (.abs 0x2002), W.idtr) ∈ tableStoreForms W (.abs 0x2002) ∧
    ∃ t, exec (.sidt (.abs 0x2002)) W = .next t :=
  ⟨by decide +kernel, next_of_after (p := fun _ => true) (by decide +kernel)⟩

theorem witness_TableLoadFrame : (∃ t, exec (.lgdt (.base .ebx)) W = .next t) ∧
    ∃ t, exec (.lldt (.reg .eax)) { W with regs := { W.regs with eax := 0x28 } } = .next t :=
  ⟨next_of_after (p := fun _ => true) (by decide +kernel), next_of_after (p := fun _ => true) (by decide +kernel)⟩

theorem witness_FarTransferFrame :
    (JmpTo WCode (.jmpMem (.base .ebx)) ⟨0x40, 0x20⟩ ∧ ∃ t, exec (.jmpMem (.base .ebx)) WCode = .next t) ∧
    (CallTo WCode (.callMem (.base .ebx)) ⟨0x40, 0x20⟩ ∧ ∃ t, exec (.callMem (.base .ebx)) WCode = .next t) :=
  ⟨⟨.inr ⟨_, rfl, by decide +kernel⟩, next_of_after (p := fun _ => true) (by decide +kernel)⟩,
    ⟨.inr ⟨_, rfl, by decide +kernel⟩, next_of_after (p := fun _ => true) (by decide +kernel)⟩⟩

theorem witness_OnlyTheirInstructionsWriteCsGdtrLdtr : Instr.wf true (.callMem (.base .ebx)) = true ∧ ∃ t, exec (.callMem (.base .ebx)) WCode = .next t :=
  ⟨by decide, next_of_after (p := fun _ => true) (by decide +kernel)⟩

theorem witness_StepKeepsCplParametersIdtrTr : ∃ t, step WCode = .next t := next_of_after (p := fun _ => true) (by decide +kernel)

theorem witness_TableRegistersArePrivileged : (env3 [] (code [0x8C, 0xDB])).cpl ≠ 0 ∧ ∃ t, step (env3 [] (code [0x8C, 0xDB])) = .next t :=
  ⟨by decide, next_of_after (p := fun _ => true) (by decide +kernel)⟩

theorem witness_StepKeepsTheInvariant : W.Inv ∧ ∃ t, step W = .next t :=
  ⟨by decide +kernel, next_of_after (p := fun _ => true) (by decide +kernel)⟩

theorem witness_RunEndsAtEndAddr :
    let s := { W with params := { W.params with endAddr := 0x10000 } }
    s.segs.cs.base + s.pc = s.params.endAddr := by decide

/-- A run elsewhere that goes on, ends in a fault, and in a refusal. -/
theorem witness_RunEndsAtEndAddr_elsewhere : (W.segs.cs.base + W.pc ≠ W.params.endAddr ∧ ∃ t, step W = .next t) ∧
    faults (step (env0 [] (code [0x8E, 0xD0]))) (.exception .gp .zero 0x10000) = true ∧
    refuses (step (env0 [] (code [0xCF]))) .iretNotInSource = true :=
  ⟨⟨by decide, next_of_after (p := fun _ => true) (by decide +kernel)⟩, test_mov_ss_null, by decide +kernel⟩

/-- R214: the run of `W` up to EndAddr 10002H makes one step. -/
theorem test_run_to_end : after (runToEnd 5 { W with params := { W.params with endAddr := 0x10002 } }) (fun t => t.pc == 0x10002 && t.clock == 1) = true := by
  decide +kernel

end Sys2Proof.Tests
end

/-! ## The fields of a selector, R14 and R15 -/

namespace Sys2Proof.Machine

section SelectorFields
variable (sel : Sel)

@[simp] theorem selIndex_toNat : (selIndex sel).toNat = sel.toNat / 8 := by
  simp only [selIndex, BitVec.extractLsb'_toNat, Nat.shiftRight_eq_div_pow]
  omega

@[simp] theorem selTI_toNat : (selTI sel).toNat = sel.toNat / 4 % 2 := by
  rw [selTI, BitVec.getLsbD, Nat.toNat_testBit]

@[simp] theorem selRPL_toNat : (selRPL sel).toNat = sel.toNat % 4 := by
  simp [selRPL, BitVec.extractLsb'_toNat]

theorem isNull_iff_toNat_le : isNull sel = true ↔ sel.toNat ≤ 3 := by
  simp only [isNull, beq_iff_eq, ← BitVec.toNat_inj, BitVec.extractLsb'_toNat, Nat.shiftRight_eq_div_pow,
    BitVec.ofNat_eq_ofNat, BitVec.toNat_ofNat]
  omega

end SelectorFields

end Sys2Proof.Machine

/-! ## The length of an instruction, and the pc after it, R24 -/

namespace Sys2Proof.Laws

open Sys2Proof.Machine

theorem encode_length (i : Instr) : (encode i).length = instrSize i := by
  cases i with
  | movToSreg sr src => exact LengthOfEncoding.movToSreg sr src
  | movFromSreg dst sr => exact LengthOfEncoding.movFromSreg dst sr
  | popES => exact LengthOfEncoding.popES
  | popSS => exact LengthOfEncoding.popSS
  | popDS => exact LengthOfEncoding.popDS
  | popFS => exact LengthOfEncoding.popFS
  | popGS => exact LengthOfEncoding.popGS
  | lds r m => exact LengthOfEncoding.lds r m
  | les r m => exact LengthOfEncoding.les r m
  | lss r m => exact LengthOfEncoding.lss r m
  | lfs r m => exact LengthOfEncoding.lfs r m
  | lgs r m => exact LengthOfEncoding.lgs r m
  | callPtr off sel => exact LengthOfEncoding.callPtr off sel
  | callMem m => exact LengthOfEncoding.callMem m
  | jmpPtr off sel => exact LengthOfEncoding.jmpPtr off sel
  | jmpMem m => exact LengthOfEncoding.jmpMem m
  | retFar => exact LengthOfEncoding.retFar
  | retFarImm imm => exact LengthOfEncoding.retFarImm imm
  | sysenter => exact LengthOfEncoding.sysenter
  | sysexit => exact LengthOfEncoding.sysexit
  | iret => exact LengthOfEncoding.iret
  | intN n => exact LengthOfEncoding.intN n
  | into => exact LengthOfEncoding.into
  | int3 => exact LengthOfEncoding.int3
  | sgdt m => exact LengthOfEncoding.sgdt m
  | sidt m => exact LengthOfEncoding.sidt m
  | sldt dst => exact LengthOfEncoding.sldt dst
  | str dst => exact LengthOfEncoding.str dst
  | lgdt m => exact LengthOfEncoding.lgdt m
  | lldt src => exact LengthOfEncoding.lldt src
  | opSizeByte => exact LengthOfEncoding.opSizeByte
  | addrSizeByte => exact LengthOfEncoding.addrSizeByte
  | segOverrideByte sr => exact LengthOfEncoding.segOverrideByte sr

theorem nextPc_instrSize (s : State) (i : Instr) : s.nextPc (instrSize i) = pcAfter s i := by
  rw [State.nextPc, pcAfter, encode_length]

end Sys2Proof.Laws

namespace Sys2Proof.Machine

open Sys2Proof.Laws

/-! ## Writes that reach no RAM, R28 -/

/-- A list of writes none of which reaches RAM leaves memory alone. -/
theorem storeMem_outside_ram (p : Params) (m : Memory) {ws : List (Nat × Byte)}
    (h : ∀ w ∈ ws, p.physClass w.1 ≠ .ram) : storeMem p m ws = m := by
  induction ws with
  | nil => rfl
  | cons w ws ih =>
    obtain ⟨hw, hws⟩ := List.forall_mem_cons.mp h
    rw [storeMem, if_neg hw, ih hws]

/-! ## The meaning of each instruction: the arms of `exec`, by the shared operation where several instructions have one -/

section Meanings
variable {s t : State}

theorem exec_movToSreg (s : State) (sr : SReg) (src : RM) :
    exec (.movToSreg sr src) s = outcome (do
      let sel ← readRM16 s src
      let ld ← loadSegReg s sr sel
      .ok ((s.applyLoad sr ld).advance (instrSize (.movToSreg sr src)))) := rfl

/-- All five POPs are one operation, R122. -/
theorem exec_popForm {i : Instr} {sr : SReg} (h : (i, sr) ∈ popForms) : exec i s = outcome (popSreg s sr (instrSize i)) := by
  simp only [popForms, List.mem_cons, Prod.mk.injEq, List.not_mem_nil, or_false] at h
  obtain ⟨rfl, rfl⟩ | ⟨rfl, rfl⟩ | ⟨rfl, rfl⟩ | ⟨rfl, rfl⟩ | ⟨rfl, rfl⟩ := h <;> rfl

/-- All five far-pointer loads are one operation, R123. -/
theorem exec_farLoadForm {i : Instr} {sr : SReg} {r : Reg} {m : Mem} (h : (i, sr) ∈ farLoadForms r m) :
    exec i s = outcome (loadFarPtr s sr r m (instrSize i)) := by
  simp only [farLoadForms, List.mem_cons, Prod.mk.injEq, List.not_mem_nil, or_false] at h
  obtain ⟨rfl, rfl⟩ | ⟨rfl, rfl⟩ | ⟨rfl, rfl⟩ | ⟨rfl, rfl⟩ | ⟨rfl, rfl⟩ := h <;> rfl

/-- MOV from a segment register, SLDT and STR are one operation, R121, R162, R163. -/
theorem exec_selStoreForm {i : Instr} {dst : RM} {v : Sel} (h : (i, v) ∈ selStoreForms s dst) :
    exec i s = outcome (do
      let t ← storeRM16 s dst v
      .ok (t.advance (instrSize i))) := by
  simp only [selStoreForms, List.mem_cons, Prod.mk.injEq, List.not_mem_nil, or_false] at h
  obtain ⟨rfl, rfl⟩ | ⟨rfl, rfl⟩ | ⟨rfl, rfl⟩ | ⟨rfl, rfl⟩ | ⟨rfl, rfl⟩ | ⟨rfl, rfl⟩ | ⟨rfl, rfl⟩ | ⟨rfl, rfl⟩ := h <;> rfl

theorem movFromSreg_mem_selStoreForms (s : State) (dst : RM) (sr : SReg) :
    (.movFromSreg dst sr, (s.seg sr).sel) ∈ selStoreForms s dst := by
  cases sr <;> simp [State.seg, SegFile.get]

/-- SGDT and SIDT are one operation, R160, R161. -/
theorem exec_tableStoreForm {i : Instr} {m : Mem} {v : TableReg} (h : (i, v) ∈ tableStoreForms s m) :
    exec i s = outcome (do
      let t ← storeTableReg s m v
      .ok (t.advance (instrSize i))) := by
  simp only [tableStoreForms, List.mem_cons, Prod.mk.injEq, List.not_mem_nil, or_false] at h
  obtain ⟨rfl, rfl⟩ | ⟨rfl, rfl⟩ := h <;> rfl

/-- R141: both forms of far CALL are one operation on their far pointer. -/
theorem exec_callTo {i : Instr} {p : FarPtr} (h : CallTo s i p) : exec i s = outcome (callFar s p (instrSize i)) := by
  obtain ⟨off, sel, rfl, rfl⟩ | ⟨m, rfl, hp⟩ := h
  · rfl
  · simp [exec, execCallMem, hp, instrSize]

/-- R142: both forms of far JMP are one operation on their far pointer. -/
theorem exec_jmpTo {i : Instr} {p : FarPtr} (h : JmpTo s i p) : exec i s = outcome (jmpFar s p) := by
  obtain ⟨off, sel, rfl, rfl⟩ | ⟨m, rfl, hp⟩ := h
  · rfl
  · simp [exec, execJmpMem, hp]

/-- A far CALL through memory completes only where its far pointer can be read. -/
theorem callTo_of_exec_callMem {m : Mem} (h : exec (.callMem m) s = .next t) : ∃ p, CallTo s (.callMem m) p := by
  simp only [exec, execCallMem, outcome_next, bind_ok] at h
  obtain ⟨p, hp, -⟩ := h
  exact ⟨p, .inr ⟨m, rfl, hp⟩⟩

/-- A far JMP through memory completes only where its far pointer can be read. -/
theorem jmpTo_of_exec_jmpMem {m : Mem} (h : exec (.jmpMem m) s = .next t) : ∃ p, JmpTo s (.jmpMem m) p := by
  simp only [exec, execJmpMem, outcome_next, bind_ok] at h
  obtain ⟨p, hp, -⟩ := h
  exact ⟨p, .inr ⟨m, rfl, hp⟩⟩

/-- R164: LGDT completes at CPL 0 with the pseudo-descriptor in GDTR. -/
theorem exec_lgdt_next {m : Mem} :
    exec (.lgdt m) s = .next t ↔
      s.cpl = 0 ∧ ∃ v, readTableReg s m = .ok v ∧ t = (s.setGdtr v).advance (instrSize (.lgdt m)) := by
  simp [exec, execLgdt, instrSize, eq_comm (a := t)]

/-- R165: LLDT completes at CPL 0 with what `loadLdtr` makes of its selector in LDTR. -/
theorem exec_lldt_next {src : RM} :
    exec (.lldt src) s = .next t ↔
      s.cpl = 0 ∧ ∃ sel v, readRM16 s src = .ok sel ∧ loadLdtr s sel = .ok v ∧
        t = (s.setLdtr v).advance (instrSize (.lldt src)) := by
  simp [exec, execLldt, instrSize, eq_comm (a := t)]

/-- R102 to R104: an instruction of `isPrefixByte` changes the latch alone. -/
theorem exec_prefixByte_frame {i : Instr} (hi : i.isPrefixByte = true) (h : exec i s = .next t) : t = { s with pfx := t.pfx } := by
  cases i with
  | opSizeByte => cases h; rfl
  | addrSizeByte => cases h; rfl
  | segOverrideByte sr => cases h; rfl
  | _ => cases hi

theorem ne_cs_of_popForm {i : Instr} {sr : SReg} (h : (i, sr) ∈ popForms) : sr ≠ .cs := by
  rintro rfl
  simp at h

theorem ne_cs_of_farLoadForm {i : Instr} {sr : SReg} {r : Reg} {m : Mem} (h : (i, sr) ∈ farLoadForms r m) : sr ≠ .cs := by
  rintro rfl
  simp at h

end Meanings

/-! ## What an instruction that loads a segment register leaves, given what `LoadSegReg` gives it -/

section Loads
variable {s : State} {sr : SReg} {sel : Sel} {ld : SegLoad}

theorem SegFile.cs_set_other (f : SegFile) {sr : SReg} (v : SegReg) (h : sr ≠ .cs) : (f.set sr v).cs = f.cs :=
  SegFile.get_set_other f v h.symm

/-- The operand size is CS's, which no direct load changes, R102. -/
theorem applyLoad_op32 (s : State) (ld : SegLoad) (h : sr ≠ .cs) : (s.applyLoad sr ld).op32 = s.op32 := by
  simp [State.op32, SegFile.cs_set_other, h]

/-- R70 step 1: a null selector passes for every register but SS, and nothing is written. -/
theorem loadSegReg_null (hsr : sr ≠ .ss) (hnull : isNull sel = true) :
    loadSegReg s sr sel = .ok ⟨nullLoaded s sel, []⟩ :=
  loadSegReg_ok.mpr (.inl ⟨hnull, hsr, rfl⟩)

/-- Adding within 16 bits, as `stackAdd` does it on a zero-extended SP. -/
theorem low16_add_mask (x : BitVec 16) (d : Word) :
    ((x.zeroExtend 32 + d) &&& 0xFFFF).extractLsb' 0 16 = x + d.extractLsb' 0 16 := by
  have hmask : (0xFFFF : Word).toNat = 2 ^ 16 - 1 := rfl
  apply BitVec.eq_of_toNat_eq
  simp only [BitVec.extractLsb'_toNat, BitVec.toNat_and, hmask, Nat.and_two_pow_sub_one_eq_mod, BitVec.toNat_add,
    BitVec.toNat_setWidth, Nat.shiftRight_zero]
  omega

theorem extractLsb'_low16_ofNat (n : Nat) : (BitVec.ofNat 32 n).extractLsb' 0 16 = BitVec.ofNat 16 n := by
  apply BitVec.eq_of_toNat_eq
  simp only [BitVec.extractLsb'_toNat, BitVec.toNat_ofNat, Nat.shiftRight_zero]
  omega

/-- The stack pointer a POP writes, R23 and R122. -/
theorem esp_after_pop {u : State} (h : u.regs = s.regs) :
    (u.setStackPtr s.segs.ss.attr.db (s.stackAdd s.stackPtr (BitVec.ofNat 32 s.opBytes))).reg .esp = espAfterPop s := by
  simp only [State.reg, setStackPtr_fields, Gprs.get_set_self, h, State.stackPtr, State.stackAdd, espAfterPop]
  split
  · rfl
  · rw [low16_add_mask, extractLsb'_low16_ofNat]
    rfl

theorem exec_movToSreg_of_load {src : RM} (hsel : readRM16 s src = .ok sel) (hld : loadSegReg s sr sel = .ok ld) :
    ∃ t, exec (.movToSreg sr src) s = .next t ∧ t.seg sr = ld.seg ∧ t.mem = storeMem s.params s.mem ld.writes ∧
      t.pc = pcAfter s (.movToSreg sr src) := by
  refine ⟨(s.applyLoad sr ld).advance (instrSize (.movToSreg sr src)), ?_, ?_, ?_, ?_⟩
  · simp [exec_movToSreg, hsel, hld, instrSize]
  · simp [State.seg]
  · simp
  · exact nextPc_instrSize s _

theorem exec_popForm_of_load {i : Instr} {v : List Byte} (hi : (i, sr) ∈ popForms)
    (hv : segRead s .stack .ss s.stackPtr s.opBytes = .ok v) (hld : loadSegReg s sr (le16 (v.take 2)) = .ok ld) :
    ∃ t, exec i s = .next t ∧ t.seg sr = ld.seg ∧ t.mem = storeMem s.params s.mem ld.writes ∧
      t.reg .esp = espAfterPop s ∧ t.pc = pcAfter s i := by
  refine ⟨_, by rw [exec_popForm hi, outcome_next, popSreg_ok]; exact ⟨v, ld, hv, hld, rfl⟩, ?_, ?_, ?_, ?_⟩
  · simp [State.seg]
  · simp
  · exact esp_after_pop (u := s.applyLoad sr ld) rfl
  · rw [← nextPc_instrSize]
    simp [State.nextPc]

theorem exec_farLoadForm_of_load {i : Instr} {r : Reg} {m : Mem} {p : FarPtr} (hi : (i, sr) ∈ farLoadForms r m)
    (hp : readFarPtr s m = .ok p) (hld : loadSegReg s sr p.sel = .ok ld) :
    ∃ t, exec i s = .next t ∧ t.seg sr = ld.seg ∧ t.mem = storeMem s.params s.mem ld.writes ∧
      t.reg r = regAfterFarLoad s r p.off ∧ t.pc = pcAfter s i := by
  refine ⟨_, by rw [exec_farLoadForm hi, outcome_next, loadFarPtr_ok]; exact ⟨p, ld, hp, hld, rfl⟩, ?_, ?_, ?_, ?_⟩
  · simp [State.seg]
  · simp
  · simp only [State.reg, advance_fields, setRegOff_fields, Gprs.get_set_self, applyLoad_fields,
      applyLoad_op32 s ld (ne_cs_of_farLoadForm hi)]
    rfl
  · rw [← nextPc_instrSize]
    simp [State.nextPc]

end Loads

/-! ## Which registers of the system an instruction keeps: CS, GDTR, LDTR -/

/-- CS, GDTR and LDTR of `t` are those of `s`. -/
structure SystemRegsKept (s t : State) : Prop where
  cs : t.segs.cs = s.segs.cs
  gdtr : t.gdtr = s.gdtr
  ldtr : t.ldtr = s.ldtr

section Kept
variable {s t : State}

theorem SystemRegsKept.or_else {P Q R : Prop} (h : SystemRegsKept s t) :
    (t.segs.cs = s.segs.cs ∨ P) ∧ (t.gdtr = s.gdtr ∨ Q) ∧ (t.ldtr = s.ldtr ∨ R) :=
  ⟨.inl h.cs, .inl h.gdtr, .inl h.ldtr⟩

/-- A selector is stored to a general register or to memory. -/
theorem storeRM16_frame {dst : RM} {v : Sel} (h : storeRM16 s dst v = .ok t) : t = { s with regs := t.regs, mem := t.mem } := by
  obtain ⟨r, -, rfl⟩ | ⟨m, ws, -, -, hst⟩ := storeRM16_ok.mp h
  · unfold State.setRegSel
    split <;> rfl
  · obtain ⟨-, rfl⟩ := storeBySoftware_ok.mp hst
    rfl

/-- A pseudo-descriptor is stored to memory. -/
theorem storeTableReg_frame {m : Mem} {v : TableReg} (h : storeTableReg s m v = .ok t) : t = { s with mem := t.mem } := by
  obtain ⟨ws, -, hst⟩ := storeTableReg_ok.mp h
  obtain ⟨-, rfl⟩ := storeBySoftware_ok.mp hst
  rfl

theorem movToSreg_keeps_systemRegs {sr : SReg} {src : RM} (hsr : sr ≠ .cs) (h : exec (.movToSreg sr src) s = .next t) :
    SystemRegsKept s t := by
  simp only [exec_movToSreg, outcome_next, bind_ok, Except.ok.injEq] at h
  obtain ⟨sel, -, ld, -, rfl⟩ := h
  constructor <;> simp [SegFile.cs_set_other, hsr]

theorem popForm_keeps_systemRegs {i : Instr} {sr : SReg} (hi : (i, sr) ∈ popForms)
    (h : exec i s = .next t) : SystemRegsKept s t := by
  rw [exec_popForm hi, outcome_next, popSreg_ok] at h
  obtain ⟨v, ld, -, -, rfl⟩ := h
  constructor <;> simp [SegFile.cs_set_other, ne_cs_of_popForm hi]

theorem farLoadForm_keeps_systemRegs {i : Instr} {sr : SReg} {r : Reg} {m : Mem} (hi : (i, sr) ∈ farLoadForms r m)
    (h : exec i s = .next t) : SystemRegsKept s t := by
  rw [exec_farLoadForm hi, outcome_next, loadFarPtr_ok] at h
  obtain ⟨p, ld, -, -, rfl⟩ := h
  constructor <;> simp [SegFile.cs_set_other, ne_cs_of_farLoadForm hi]

theorem selStoreForm_keeps_systemRegs {i : Instr} {dst : RM} {v : Sel} (hi : (i, v) ∈ selStoreForms s dst)
    (h : exec i s = .next t) : SystemRegsKept s t := by
  simp only [exec_selStoreForm hi, outcome_next, bind_ok, Except.ok.injEq] at h
  obtain ⟨u, hu, rfl⟩ := h
  rw [storeRM16_frame hu]
  exact ⟨rfl, rfl, rfl⟩

theorem tableStoreForm_keeps_systemRegs {i : Instr} {m : Mem} {v : TableReg} (hi : (i, v) ∈ tableStoreForms s m)
    (h : exec i s = .next t) : SystemRegsKept s t := by
  simp only [exec_tableStoreForm hi, outcome_next, bind_ok, Except.ok.injEq] at h
  obtain ⟨u, hu, rfl⟩ := h
  rw [storeTableReg_frame hu]
  exact ⟨rfl, rfl, rfl⟩

theorem prefixByte_keeps_systemRegs {i : Instr} (hi : i.isPrefixByte = true) (h : exec i s = .next t) : SystemRegsKept s t := by
  rw [exec_prefixByte_frame hi h]
  exact ⟨rfl, rfl, rfl⟩

/-- A far JMP writes no table register. -/
theorem jmpTo_keeps_tableRegs {i : Instr} {p : FarPtr} (hi : JmpTo s i p) (h : exec i s = .next t) :
    t.gdtr = s.gdtr ∧ t.ldtr = s.ldtr := by
  rw [exec_jmpTo hi, outcome_next, jmpFar_ok] at h
  obtain ⟨c, ld, -, -, rfl⟩ := h
  simp

/-- A far CALL writes no table register. -/
theorem callTo_keeps_tableRegs {i : Instr} {p : FarPtr} (hi : CallTo s i p) (h : exec i s = .next t) :
    t.gdtr = s.gdtr ∧ t.ldtr = s.ldtr := by
  rw [exec_callTo hi, outcome_next, callFar_ok] at h
  obtain ⟨c, p1, p2, ld, u, -, -, -, -, hu, rfl⟩ := h
  obtain ⟨-, rfl⟩ := storeBySoftware_ok.mp hu
  simp

/-- LGDT writes neither CS nor LDTR. -/
theorem lgdt_keeps_cs_ldtr {m : Mem} (h : exec (.lgdt m) s = .next t) : t.segs.cs = s.segs.cs ∧ t.ldtr = s.ldtr := by
  obtain ⟨-, v, -, rfl⟩ := exec_lgdt_next.mp h
  simp

/-- LLDT writes neither CS nor GDTR. -/
theorem lldt_keeps_cs_gdtr {src : RM} (h : exec (.lldt src) s = .next t) : t.segs.cs = s.segs.cs ∧ t.gdtr = s.gdtr := by
  obtain ⟨-, sel, v, -, -, rfl⟩ := exec_lldt_next.mp h
  simp

end Kept

end Sys2Proof.Machine

/-! ## The statements -/

namespace Sys2Proof.Proofs

open Sys2Proof Sys2Proof.Machine

/-- Settles O11: the fields as quotients and remainders of the selector. -/
theorem selectorFields : Obligations.SelectorFields := by
  intro sel
  refine ⟨?_, isNull_iff_toNat_le sel⟩
  rw [selIndex_toNat, selTI_toNat, selRPL_toNat]
  omega

/-- Settles O22, by induction on the list of writes. -/
theorem writesOutsideRamAreDropped : Obligations.WritesOutsideRamAreDropped :=
  fun s _ h => storeMem_outside_ram s.params s.mem h

/-- Settles O28: `LoadSegReg` gives a null selector no write, and each of the three shapes of load completes with what it gives. -/
theorem nullSelectorLoadsQuietly : Obligations.NullSelectorLoadsQuietly := by
  intro s
  refine ⟨?mov, ?pop, ?far⟩
  case mov =>
    intro sr src sel hss _ hsel hnull
    obtain ⟨t, hexec, hseg, hmem, hpc⟩ := exec_movToSreg_of_load hsel (loadSegReg_null hss hnull)
    exact ⟨t, hexec, congrArg SegReg.sel hseg, hmem, hpc⟩
  case pop =>
    rintro ⟨i, sr⟩ hi v hss hv hnull
    obtain ⟨t, hexec, hseg, hmem, hesp, hpc⟩ := exec_popForm_of_load hi hv (loadSegReg_null hss hnull)
    exact ⟨t, hexec, congrArg SegReg.sel hseg, hmem, hesp, hpc⟩
  case far =>
    rintro r m ⟨i, sr⟩ hi p hss hp hnull
    obtain ⟨t, hexec, hseg, hmem, hreg, hpc⟩ := exec_farLoadForm_of_load hi hp (loadSegReg_null hss hnull)
    exact ⟨t, hexec, congrArg SegReg.sel hseg, hmem, hreg, hpc⟩

/-- Settles O54: by the shapes of instruction, each of which keeps what it is not named for; `wf` shuts out MOV to CS. -/
theorem onlyTheirInstructionsWriteCsGdtrLdtr : Obligations.OnlyTheirInstructionsWriteCsGdtrLdtr := by
  intro s t i op32 hwf h
  cases i with
  | movToSreg sr src =>
    have hsr : sr ≠ .cs := by simpa using (Bool.and_eq_true_iff.mp hwf).1
    exact (movToSreg_keeps_systemRegs hsr h).or_else
  | popES => exact (popForm_keeps_systemRegs (sr := .es) (by simp) h).or_else
  | popSS => exact (popForm_keeps_systemRegs (sr := .ss) (by simp) h).or_else
  | popDS => exact (popForm_keeps_systemRegs (sr := .ds) (by simp) h).or_else
  | popFS => exact (popForm_keeps_systemRegs (sr := .fs) (by simp) h).or_else
  | popGS => exact (popForm_keeps_systemRegs (sr := .gs) (by simp) h).or_else
  | lds r m => exact (farLoadForm_keeps_systemRegs (sr := .ds) (r := r) (m := m) (by simp) h).or_else
  | les r m => exact (farLoadForm_keeps_systemRegs (sr := .es) (r := r) (m := m) (by simp) h).or_else
  | lss r m => exact (farLoadForm_keeps_systemRegs (sr := .ss) (r := r) (m := m) (by simp) h).or_else
  | lfs r m => exact (farLoadForm_keeps_systemRegs (sr := .fs) (r := r) (m := m) (by simp) h).or_else
  | lgs r m => exact (farLoadForm_keeps_systemRegs (sr := .gs) (r := r) (m := m) (by simp) h).or_else
  | movFromSreg dst sr => exact (selStoreForm_keeps_systemRegs (movFromSreg_mem_selStoreForms s dst sr) h).or_else
  | sldt dst => exact (selStoreForm_keeps_systemRegs (dst := dst) (v := s.ldtr.sel) (by simp) h).or_else
  | str dst => exact (selStoreForm_keeps_systemRegs (dst := dst) (v := s.trSel) (by simp) h).or_else
  | sgdt m => exact (tableStoreForm_keeps_systemRegs (m := m) (v := s.gdtr) (by simp) h).or_else
  | sidt m => exact (tableStoreForm_keeps_systemRegs (m := m) (v := s.idtr) (by simp) h).or_else
  | opSizeByte | addrSizeByte | segOverrideByte _ => exact (prefixByte_keeps_systemRegs rfl h).or_else
  | callPtr off sel =>
    obtain ⟨hgdtr, hldtr⟩ := callTo_keeps_tableRegs (.inl ⟨off, sel, rfl, rfl⟩) h
    exact ⟨.inr (.inl ⟨off, sel, .inl rfl⟩), .inl hgdtr, .inl hldtr⟩
  | callMem m =>
    obtain ⟨p, hp⟩ := callTo_of_exec_callMem h
    obtain ⟨hgdtr, hldtr⟩ := callTo_keeps_tableRegs hp h
    exact ⟨.inr (.inr ⟨m, .inl rfl⟩), .inl hgdtr, .inl hldtr⟩
  | jmpPtr off sel =>
    obtain ⟨hgdtr, hldtr⟩ := jmpTo_keeps_tableRegs (.inl ⟨off, sel, rfl, rfl⟩) h
    exact ⟨.inr (.inl ⟨off, sel, .inr rfl⟩), .inl hgdtr, .inl hldtr⟩
  | jmpMem m =>
    obtain ⟨p, hp⟩ := jmpTo_of_exec_jmpMem h
    obtain ⟨hgdtr, hldtr⟩ := jmpTo_keeps_tableRegs hp h
    exact ⟨.inr (.inr ⟨m, .inr rfl⟩), .inl hgdtr, .inl hldtr⟩
  | lgdt m =>
    obtain ⟨hcs, hldtr⟩ := lgdt_keeps_cs_ldtr h
    exact ⟨.inl hcs, .inr ⟨m, rfl⟩, .inl hldtr⟩
  | lldt src =>
    obtain ⟨hcs, hgdtr⟩ := lldt_keeps_cs_gdtr h
    exact ⟨.inl hcs, .inl hgdtr, .inr ⟨src, rfl⟩⟩
  | retFar | retFarImm _ | sysenter | sysexit | iret | intN _ | into | int3 => cases h

end Sys2Proof.Proofs

/-! ## Limits, the fields of a descriptor, and where a selector's descriptor lies, R49, R50, R61 -/

namespace Sys2Proof.Machine

section Descriptors

@[simp] theorem effLimit_byte (limit : BitVec 20) : (effLimit limit false).toNat = limit.toNat := by
  simp only [effLimit, Bool.false_eq_true, if_false, BitVec.toNat_setWidth]
  omega

/-- With G = 1 the twelve low bits of the limit are ones, R61. -/
@[simp] theorem effLimit_page (limit : BitVec 20) : (effLimit limit true).toNat = limit.toNat * 4096 + 4095 := by
  have hlt : limit.toNat < 2 ^ 20 := limit.isLt
  have hones : (0xFFF : Word).toNat < 2 ^ 12 := by decide
  simp only [effLimit, if_true, BitVec.toNat_or, BitVec.toNat_shiftLeft, BitVec.toNat_setWidth]
  rw [Nat.mod_eq_of_lt (a := limit.toNat) (by omega), Nat.mod_eq_of_lt (by rw [Nat.shiftLeft_eq]; omega),
    ← Nat.shiftLeft_add_eq_or_of_lt hones, Nat.shiftLeft_eq]
  rfl

@[simp] theorem selOffset_toNat (sel : Sel) : (selOffset sel).toNat = sel.toNat / 8 * 8 := by
  have hlt : sel.toNat < 2 ^ 16 := sel.isLt
  simp only [selOffset, BitVec.toNat_mul, BitVec.toNat_setWidth, selIndex_toNat, BitVec.ofNat_eq_ofNat, BitVec.toNat_ofNat]
  omega

theorem selOffset_eq_ofNat (sel : Sel) : selOffset sel = BitVec.ofNat 32 (sel.toNat / 8 * 8) := by
  rw [← selOffset_toNat, BitVec.ofNat_toNat, BitVec.setWidth_eq]

/-- The layout of R50's table, high bits first: 64 bits. -/
def packDesc (base : Word) (limit : BitVec 20) (a : Attr) : BitVec (8 + 1 + 1 + 1 + 1 + 4 + 1 + 2 + 1 + 4 + 24 + 16) :=
  base.extractLsb' 24 8 ++ BitVec.ofBool a.g ++ BitVec.ofBool a.db ++ BitVec.ofBool a.l ++ BitVec.ofBool a.avl ++
    limit.extractLsb' 16 4 ++ BitVec.ofBool a.p ++ a.dpl ++ BitVec.ofBool a.s ++ a.type ++ base.extractLsb' 0 24 ++
    limit.extractLsb' 0 16

/-- A bit above the low part is a bit of the high part. -/
theorem getLsbD_append_of_le {v w i : Nat} (hi : BitVec v) (lo : BitVec w) (h : w ≤ i) :
    (hi ++ lo).getLsbD i = hi.getLsbD (i - w) := by
  rw [BitVec.getLsbD_append, if_neg (by omega)]

/-- A bit of a one-bit field, the fields below it taken off. -/
theorem getLsbD_append_ofBool {v i : Nat} (hi : BitVec v) (b : Bool) (h : i = 0) :
    (hi ++ BitVec.ofBool b).getLsbD i = b := by
  subst h
  rw [BitVec.getLsbD_append, if_pos Nat.one_pos]
  cases b <;> rfl

section
variable (base : Word) (limit : BitVec 20) (a : Attr)

theorem descBase_packDesc : descBase (packDesc base limit a) = base := by
  have hhi : (packDesc base limit a).extractLsb' 56 8 = base.extractLsb' 24 8 := by
    simp (disch := decide) only [packDesc, BitVec.extractLsb'_append_eq_of_le]
    exact BitVec.extractLsb'_eq_self
  have hlo : (packDesc base limit a).extractLsb' 16 24 = base.extractLsb' 0 24 := by
    simp (disch := decide) only [packDesc, BitVec.extractLsb'_append_eq_of_le, BitVec.extractLsb'_append_eq_of_add_le]
    exact BitVec.extractLsb'_eq_self
  exact halves_append (n := 8) (m := 24) base _ _ hhi.symm hlo.symm

theorem descLimit_packDesc : descLimit (packDesc base limit a) = limit := by
  have hhi : (packDesc base limit a).extractLsb' 48 4 = limit.extractLsb' 16 4 := by
    simp (disch := decide) only [packDesc, BitVec.extractLsb'_append_eq_of_le, BitVec.extractLsb'_append_eq_of_add_le]
    exact BitVec.extractLsb'_eq_self
  have hlo : (packDesc base limit a).extractLsb' 0 16 = limit.extractLsb' 0 16 := by
    simp (disch := decide) only [packDesc, BitVec.extractLsb'_append_eq_of_add_le]
    exact BitVec.extractLsb'_eq_self
  exact halves_append (n := 4) (m := 16) limit _ _ hhi.symm hlo.symm

theorem descAttr_packDesc : descAttr (packDesc base limit a) = a := by
  have htype : (packDesc base limit a).extractLsb' 40 4 = a.type := by
    simp (disch := decide) only [packDesc, BitVec.extractLsb'_append_eq_of_le, BitVec.extractLsb'_append_eq_of_add_le]
    exact BitVec.extractLsb'_eq_self
  have hdpl : (packDesc base limit a).extractLsb' 45 2 = a.dpl := by
    simp (disch := decide) only [packDesc, BitVec.extractLsb'_append_eq_of_le, BitVec.extractLsb'_append_eq_of_add_le]
    exact BitVec.extractLsb'_eq_self
  have hs : (packDesc base limit a).getLsbD 44 = a.s := by
    simp (disch := decide) only [packDesc, getLsbD_append_of_le, getLsbD_append_ofBool]
  have hp : (packDesc base limit a).getLsbD 47 = a.p := by
    simp (disch := decide) only [packDesc, getLsbD_append_of_le, getLsbD_append_ofBool]
  have havl : (packDesc base limit a).getLsbD 52 = a.avl := by
    simp (disch := decide) only [packDesc, getLsbD_append_of_le, getLsbD_append_ofBool]
  have hl : (packDesc base limit a).getLsbD 53 = a.l := by
    simp (disch := decide) only [packDesc, getLsbD_append_of_le, getLsbD_append_ofBool]
  have hdb : (packDesc base limit a).getLsbD 54 = a.db := by
    simp (disch := decide) only [packDesc, getLsbD_append_of_le, getLsbD_append_ofBool]
  have hg : (packDesc base limit a).getLsbD 55 = a.g := by
    simp (disch := decide) only [packDesc, getLsbD_append_of_le, getLsbD_append_ofBool]
  exact (Attr.mk.injEq ..).mpr ⟨htype, hs, hdpl, hp, havl, hl, hdb, hg⟩

end

/-- R49: `DescAddr` reads its two table limits as numbers. -/
theorem descAddr_eq (s : State) (sel : Sel) :
    descAddr s sel =
      if selTI sel = false then
        if s.gdtr.limit.toNat < sel.toNat / 8 * 8 + 7 then raise s .gp (.selector sel)
        else .ok (s.gdtr.base + selOffset sel)
      else if isNull s.ldtr.sel = true then raise s .gp (.selector sel)
      else if (effLimit s.ldtr.limit s.ldtr.attr.g).toNat < sel.toNat / 8 * 8 + 7 then raise s .gp (.selector sel)
      else .ok (s.ldtr.base + selOffset sel) := by
  unfold descAddr
  cases selTI sel with
  | false =>
    by_cases hlim : s.gdtr.limit.toNat < sel.toNat / 8 * 8 + 7 <;> simp [raiseIf, raise, hlim]
  | true =>
    cases isNull s.ldtr.sel with
    | true => simp [raiseIf, raise]
    | false =>
      by_cases hlim : (effLimit s.ldtr.limit s.ldtr.attr.g).toNat < sel.toNat / 8 * 8 + 7 <;> simp [raiseIf, raise, hlim]

end Descriptors

/-! ## What `SegAccess` answers where a check fails, R73 to R76 -/

section Accesses
variable {s : State} {sr : SReg} {off : Word} {n : Nat} {k : Access}

theorem segAccess_null (h : isNull (s.seg sr).sel = true) : segAccess s sr off n k = raise s .gp .zero := by
  simp [segAccess, raiseIf, raise, h]

/-- R75 step 2: only an execute access can be refused first. -/
theorem segAccess_forbidden (hk : k ≠ .execute) (h : typeAllows k (s.seg sr).attr = false) :
    segAccess s sr off n k = raise s .gp .zero := by
  cases hnull : isNull (s.seg sr).sel with
  | true => exact segAccess_null hnull
  | false => simp [segAccess, raiseIf, refuseIf, raise, hnull, hk, h]

/-- R75 step 3: where the register and the type pass, the offsets decide. -/
theorem segAccess_eq_of_allowed (hnull : isNull (s.seg sr).sel = false) (hk : k = .execute → sr = .cs)
    (hty : typeAllows k (s.seg sr).attr = true) :
    segAccess s sr off n k =
      if offsetsValid (s.seg sr) off n = true then .ok ((s.seg sr).base + off) else raise s (limitExc sr) .zero := by
  have hrefuse : (k == .execute && sr != .cs) = false := by simpa using hk
  cases hv : offsetsValid (s.seg sr) off n <;> simp [segAccess, raiseIf, refuseIf, raise, hnull, hrefuse, hty, hv]

/-- R73: code and expand-up data. -/
theorem offsetsValid_expandUp {r : SegReg} (h : r.attr.type.getLsbD 3 = true ∨ r.attr.type.getLsbD 2 = false) :
    offsetsValid r off n = true ↔ off.toNat + n - 1 ≤ (effLimit r.limit r.attr.g).toNat := by
  have hup : (r.attr.isCode || !r.attr.expandDown) = true := by simpa [Attr.isCode, Attr.expandDown] using h
  simp [offsetsValid, hup]

/-- R74: expand-down data. -/
theorem offsetsValid_expandDown {r : SegReg} (hdata : r.attr.type.getLsbD 3 = false) (hdown : r.attr.type.getLsbD 2 = true) :
    offsetsValid r off n = true ↔
      (effLimit r.limit r.attr.g).toNat < off.toNat ∧ off.toNat + n - 1 ≤ if r.attr.db then 0xFFFFFFFF else 0xFFFF := by
  have hup : (r.attr.isCode || !r.attr.expandDown) = false := by
    simp only [Attr.isCode, Attr.expandDown, hdata, hdown, Bool.not_true, Bool.or_false]
  simp [offsetsValid, hup]

end Accesses

/-! ## The bytes of an access, R40, R80, R82 -/

section Paging
variable {s : State} {la : Word} {k : Access} {n : Nat}

theorem translate_on (h : s.params.pagingEnabled = true) (la : Word) (k : Access) :
    translate s la k =
      match Config.pageWalk s.mem la k s.cpl with
      | some pa => .ok (pa % 2 ^ s.params.physBits)
      | none => raise s .pf (.linear la) :=
  if_pos h

/-- An address translates, or takes its page fault: no walk is refused. -/
theorem translate_cases (s : State) (la : Word) (k : Access) :
    (∃ pa, translate s la k = .ok pa) ∨ translate s la k = raise s .pf (.linear la) := by
  cases hpg : s.params.pagingEnabled with
  | false => exact .inl ⟨_, translate_off hpg la k⟩
  | true =>
    rw [translate_on hpg]
    cases Config.pageWalk s.mem la k s.cpl with
    | none => exact .inr rfl
    | some pa => exact .inl ⟨_, rfl⟩

theorem add_one_add_ofNat (la : Word) (i : Nat) : la + 1 + BitVec.ofNat 32 i = la + BitVec.ofNat 32 (i + 1) := by
  rw [BitVec.add_assoc, Nat.add_comm, BitVec.ofNat_add]
  rfl

/-- The page walk of byte `i` of an access at `la`. -/
abbrev walkOfByte (s : State) (la : Word) (k : Access) (i : Nat) : Option Nat :=
  Config.pageWalk s.mem (la + BitVec.ofNat 32 i) k s.cpl

/-- With paging on an access of `n` bytes gives each byte's walk, or the fault of the first byte that has none. -/
theorem walk_on (h : s.params.pagingEnabled = true) (la : Word) (k : Access) (n : Nat) :
    (∃ ps, walk s la k n = .ok ps ∧ ps.length = n ∧
      ∀ i < n, ∃ pa, walkOfByte s la k i = some pa ∧ ps[i]? = some (pa % 2 ^ s.params.physBits)) ∨
    ∃ j < n, (∀ i < j, (walkOfByte s la k i).isSome = true) ∧ walkOfByte s la k j = none ∧
      walk s la k n = raise s .pf (.linear (la + BitVec.ofNat 32 j)) := by
  induction n generalizing la with
  | zero => exact .inl ⟨[], rfl, rfl, by simp⟩
  | succ n ih =>
    have hnext (i : Nat) : walkOfByte s (la + 1) k i = walkOfByte s la k (i + 1) := by
      rw [walkOfByte, add_one_add_ofNat]
    have hfirst : walkOfByte s la k 0 = Config.pageWalk s.mem la k s.cpl := by simp [walkOfByte]
    cases hpw : Config.pageWalk s.mem la k s.cpl with
    | none =>
      refine .inr ⟨0, by omega, by simp, hfirst.trans hpw, ?_⟩
      simp [walk, translate_on h, hpw, raise]
    | some pa =>
      have hwalk : walk s la k (n + 1) = (walk s (la + 1) k n).map (pa % 2 ^ s.params.physBits :: ·) := by
        simp only [walk, translate_on h, hpw, ok_bind]
        cases walk s (la + 1) k n <;> rfl
      rcases ih (la + 1) with ⟨ps, hps, hlen, hbytes⟩ | ⟨j, hj, hbefore, hnone, hfault⟩
      · refine .inl ⟨pa % 2 ^ s.params.physBits :: ps, by rw [hwalk, hps]; rfl, by simp [hlen], fun i hi => ?_⟩
        cases i with
        | zero => exact ⟨pa, hfirst.trans hpw, rfl⟩
        | succ i => rw [← hnext]; exact hbytes i (by omega)
      · refine .inr ⟨j + 1, by omega, fun i hi => ?_, by rw [← hnext]; exact hnone, ?_⟩
        · cases i with
          | zero => simp [hfirst, hpw]
          | succ i => rw [← hnext]; exact hbefore i (by omega)
        · rw [hwalk, hfault, add_one_add_ofNat]; rfl

/-- The addresses of an access with paging off: those of R80. -/
theorem walk_off_mod (h : s.params.pagingEnabled = false) (la : Word) (k : Access) (n : Nat) :
    walk s la k n = .ok ((List.range n).map fun i => (la.toNat + i) % 4294967296) := by
  rw [walk_off h]
  refine congrArg Except.ok (List.map_congr_left fun i _ => ?_)
  rw [BitVec.toNat_add, BitVec.toNat_ofNat]
  omega

/-- At most 2^32 bytes do not meet each other, across the wrap too. -/
theorem nodup_wrapped_range (a : Nat) (h : n ≤ 4294967296) : ((List.range n).map fun i => (a + i) % 4294967296).Nodup := by
  refine List.nodup_range.map_on fun i hi j hj heq => ?_
  rw [List.mem_range] at hi hj
  omega

/-- A byte that is not absent is read from memory. -/
theorem bytesAt_present (tag : DrawTag) (i : Nat) {ps : List Nat} (h : ∀ pa ∈ ps, s.params.physClass pa ≠ .absent) :
    s.bytesAt tag i ps = ps.map s.mem.read := by
  induction ps generalizing i with
  | nil => rfl
  | cons pa ps ih =>
    obtain ⟨hpa, hps⟩ := List.forall_mem_cons.mp h
    simp [State.bytesAt, State.byteAt, hpa, ih (i + 1) hps]

/-- Bytes written to distinct addresses of RAM are read back. -/
theorem read_storeMem_zip {p : Params} (m : Memory) {ps : List Nat} {bs : List Byte} (hlen : ps.length = bs.length)
    (hdistinct : ps.Nodup) (hram : ∀ pa ∈ ps, p.physClass pa = .ram) : ps.map (storeMem p m (ps.zip bs)).read = bs := by
  induction ps generalizing m bs with
  | nil => simpa using hlen.symm
  | cons pa ps ih =>
    obtain _ | ⟨b, bs⟩ := bs
    · simp at hlen
    obtain ⟨hnew, hdistinct⟩ := List.nodup_cons.mp hdistinct
    obtain ⟨hpa, hps⟩ := List.forall_mem_cons.mp hram
    have hlen : ps.length = bs.length := by simpa using hlen
    have hkeys : pa ∉ (ps.zip bs).map Prod.fst := by rwa [List.map_fst_zip hlen.le]
    rw [List.zip_cons_cons, storeMem, if_pos hpa, List.map_cons, storeMem_read_other _ _ _ hkeys, Memory.read_write_self,
      ih _ hlen hdistinct hps]

end Paging

end Sys2Proof.Machine

namespace Sys2Proof.Proofs

open Sys2Proof Sys2Proof.Machine

/-- Settles O12: both limits as numbers, limit and limit * 4096 + 4095, compared by `omega`. -/
theorem effectiveLimitScalesByGranularity : Obligations.EffectiveLimitScalesByGranularity := by
  intro limit
  refine ⟨rfl, rfl, by simp, ?size, fun off => ?compare, by decide⟩
  case size => rw [effLimit_page]; omega
  case compare =>
    have hlt : off.toNat < 2 ^ 32 := off.isLt
    rw [effLimit_page, BitVec.extractLsb'_toNat, Nat.shiftRight_eq_div_pow]
    omega

/-- Settles O13. -/
theorem descriptorFieldsReadBack : Obligations.DescriptorFieldsReadBack := by
  rintro base limit a d rfl
  exact ⟨descBase_packDesc base limit a, descLimit_packDesc base limit a, descAttr_packDesc base limit a⟩

/-- Settles O14. -/
theorem descriptorAddress : Obligations.DescriptorAddress := by
  intro s sel _
  rw [descAddr_eq, selOffset_eq_ofNat]
  rfl

/-- Settles O15: the offset check alone decides. -/
theorem expandUpLimit : Obligations.ExpandUpLimit := by
  intro s sr off n k _ hnull hty hk hup
  rw [segAccess_eq_of_allowed hnull hk hty]
  simp only [offsetsValid_expandUp hup]
  rfl

/-- Settles O16: the offset check alone decides. -/
theorem expandDownLimit : Obligations.ExpandDownLimit := by
  intro s sr off n k _ hnull hty hk hdata hdown
  rw [segAccess_eq_of_allowed hnull hk hty]
  simp only [offsetsValid_expandDown hdata hdown]
  rfl

/-- Settles O17. -/
theorem nullRegisterAccessTakesGP : Obligations.NullRegisterAccessTakesGP :=
  fun _ _ _ _ _ hnull => segAccess_null hnull

/-- Settles O18, by the two kinds of access a type can forbid. -/
theorem forbiddenAccessTakesGP : Obligations.ForbiddenAccessTakesGP := by
  rintro s sr off n k (⟨rfl, hty⟩ | ⟨rfl, hcode, hread⟩)
  · refine segAccess_forbidden (by decide) ?_
    rcases hty with hcode | hro
    · simp only [typeAllows, Attr.isCode, hcode, Bool.not_true, Bool.false_and]
    · simp only [typeAllows, Attr.writable, hro, Bool.and_false]
  · exact segAccess_forbidden (by decide) (by
      simp only [typeAllows, Attr.isCode, Attr.readable, hcode, hread, Bool.not_true, Bool.or_false])

/-- Settles O19. -/
theorem pagingOffIsTheIdentity : Obligations.PagingOffIsTheIdentity :=
  fun _ la k n h => walk_off_mod h la k n

/-- Settles O20, by induction on the number of bytes (`walk_on`). -/
theorem pagingOnTranslatesEachByteOrFaults : Obligations.PagingOnTranslatesEachByteOrFaults :=
  fun _ la k n h => walk_on h la k n

/-- Settles O21: the write and the read walk to the same distinct addresses of RAM. -/
theorem readAfterWriteInRam : Obligations.ReadAfterWriteInRam := by
  intro s tag la bs ws hoff hlen hram hws
  obtain ⟨ps, hps, rfl⟩ := memWrite_ok.mp hws
  rw [walk_off_mod hoff, Except.ok.injEq] at hps
  have hclass : ∀ pa ∈ ps, s.params.physClass pa = .ram := by
    subst hps
    simpa using hram
  have hdistinct : ps.Nodup := hps ▸ nodup_wrapped_range la.toNat hlen
  have hcount : ps.length = bs.length := by simp [← hps]
  rw [memRead_ok]
  refine ⟨ps, by rw [walk_off_mod (s := s.store _) hoff, hps], ?_⟩
  rw [bytesAt_present tag 0 fun pa hpa => by simp [hclass pa hpa]]
  exact (read_storeMem_zip s.mem hcount hdistinct hclass).symm

end Sys2Proof.Proofs

/-! ## The checks of a descriptor before it is loaded, R70 and R71 -/

namespace Sys2Proof.Machine

section Checks
variable {s : State} {sr : SReg} {sel : Sel} {a : Word} {d : BitVec 64} {e : Stop}

/-- R70 step 5. -/
theorem loadTypeOk_eq_false {sr : SReg} {t : Attr} :
    loadTypeOk sr t = false ↔ t.s = false ∨
      (if sr = .ss then t.type.getLsbD 3 = true ∨ t.type.getLsbD 1 = false
        else t.type.getLsbD 3 = true ∧ t.type.getLsbD 1 = false) := by
  unfold loadTypeOk Attr.isCode Attr.writable Attr.readable
  split <;> simp only [Bool.and_eq_false_iff, Bool.or_eq_false_iff, Bool.not_eq_false']

/-- R70 step 6. -/
theorem loadPrivOk_eq_false {cpl : BitVec 2} {sr : SReg} {sel : Sel} {t : Attr} :
    loadPrivOk cpl sr sel t = false ↔
      if sr = .ss then selRPL sel ≠ cpl ∨ t.dpl ≠ cpl
      else ¬(t.type.getLsbD 3 = true ∧ t.type.getLsbD 2 = true) ∧
        (t.dpl.toNat < cpl.toNat ∨ t.dpl.toNat < (selRPL sel).toNat) := by
  unfold loadPrivOk Attr.isCode Attr.conforming
  split
  · simp only [Bool.and_eq_false_iff, beq_eq_false_iff_ne]
  · rw [Bool.or_eq_false_iff, decide_eq_false_iff_not, not_le, lt_max_iff, ← Bool.not_eq_true, Bool.and_eq_true]

/-- R71 step 5. -/
theorem csPrivOk_eq_false {cpl : BitVec 2} {sel : Sel} {t : Attr} :
    csPrivOk cpl sel t = false ↔
      if t.type.getLsbD 2 = true then cpl.toNat < t.dpl.toNat
      else t.dpl ≠ cpl ∨ cpl.toNat < (selRPL sel).toNat := by
  unfold csPrivOk Attr.conforming
  split
  · simp only [decide_eq_false_iff_not, not_le]
  · simp only [Bool.and_eq_false_iff, beq_eq_false_iff_ne, decide_eq_false_iff_not, not_le]

/-- R70 step 7: #NP, but #SS for SS where the parameter says so. -/
theorem notPresentExc_eq (s : State) (sr : SReg) :
    notPresentExc s sr = if sr = .ss ∧ s.params.ssNotPresent = .ss then .ss else .np := by
  unfold notPresentExc
  by_cases hss : sr = .ss
  · cases hp : s.params.ssNotPresent <;> simp [hss]
  · simp [hss]

/-- `DescAddr` or the descriptor's read gives no descriptor: the two ways `selDesc` fails. -/
theorem selDesc_error (h : selDesc s sel = .error e) :
    descAddr s sel = .error e ∨ ∃ a, descAddr s sel = .ok a ∧ readDesc s a = .error e := by
  unfold selDesc at h
  cases ha : descAddr s sel with
  | error _ => rw [ha, error_bind] at h; cases h; exact .inl rfl
  | ok a => rw [ha, ok_bind] at h; exact .inr ⟨a, rfl, h⟩

/-- R70 step 1: a null selector is no stack segment. -/
theorem loadSegReg_ss_null (hnull : isNull sel = true) : loadSegReg s .ss sel = raise s .gp .zero := by
  simp [loadSegReg, hnull, raiseIf, raise]

/-- R70 steps 2 and 3. -/
theorem loadSegReg_of_selDesc_error (hnull : isNull sel = false) (h : selDesc s sel = .error e) :
    loadSegReg s sr sel = .error e := by
  rcases selDesc_error h with ha | ⟨a, ha, hd⟩
  · simp [loadSegReg, hnull, ha]
  · simp [loadSegReg, hnull, ha, hd]

/-- R70 steps 5 to 9: what `LoadSegReg` makes of the descriptor it has read. -/
theorem loadSegReg_of_desc (hnull : isNull sel = false) (ha : descAddr s sel = .ok a) (hd : readDesc s a = .ok d) :
    loadSegReg s sr sel =
      if loadTypeOk sr (descAttr d) = false then raise s .gp (.selector sel)
      else if loadPrivOk s.cpl sr sel (descAttr d) = false then raise s .gp (.selector sel)
      else if (descAttr d).p = false then raise s (notPresentExc s sr) (.selector sel)
      else (accessedBitWrite s a d).map fun ws => ⟨loadedReg sel d, ws⟩ := by
  simp only [loadSegReg, hnull, Bool.false_eq_true, if_false, ha, hd, ok_bind]
  cases loadTypeOk sr (descAttr d) with
  | false => rfl
  | true =>
    cases loadPrivOk s.cpl sr sel (descAttr d) with
    | false => rfl
    | true =>
      cases (descAttr d).p with
      | false => rfl
      | true => rfl

/-- A loadable selector leaves only the accessed bit to write, R70 step 8. -/
theorem loadSegReg_of_segLoadable (h : SegLoadable s sr sel a d) :
    loadSegReg s sr sel = (accessedBitWrite s a d).map fun ws => ⟨loadedReg sel d, ws⟩ := by
  obtain ⟨hnull, ha, hd, hs, hss, hother, hp⟩ := h
  have htype : loadTypeOk sr (descAttr d) ≠ false := by
    rw [ne_eq, loadTypeOk_eq_false]
    split_ifs with hsr
    · obtain ⟨hdata, hwr, -, -⟩ := hss hsr
      simp only [hs, hdata, hwr]; decide
    · rintro (hsys | ⟨hcode, hexec⟩)
      · exact absurd hsys (by simp [hs])
      · rw [(hother hsr).1 hcode] at hexec; cases hexec
  have hpriv : loadPrivOk s.cpl sr sel (descAttr d) ≠ false := by
    rw [ne_eq, loadPrivOk_eq_false]
    split_ifs with hsr
    · obtain ⟨-, -, hrpl, hdpl⟩ := hss hsr
      simp [hrpl, hdpl]
    · rintro ⟨hconf, hbad⟩
      obtain ⟨hcpl, hrpl⟩ := (hother hsr).2 (by rwa [← Bool.not_eq_true, Bool.and_eq_true])
      omega
  rw [loadSegReg_of_desc hnull ha hd, if_neg htype, if_neg hpriv, if_neg (by simp [hp])]

/-- R71 step 1. -/
theorem checkCS_null (hnull : isNull sel = true) : checkCS s sel = raise s .gp .zero := by
  simp [checkCS, hnull, raiseIf, raise]

/-- R71 steps 2 and 3. -/
theorem checkCS_of_selDesc_error (hnull : isNull sel = false) (h : selDesc s sel = .error e) : checkCS s sel = .error e := by
  rcases selDesc_error h with ha | ⟨a, ha, hd⟩
  · simp [checkCS, hnull, raiseIf, ha]
  · simp [checkCS, hnull, raiseIf, ha, hd]

/-- R71 steps 4 to 6: the checks on the descriptor that has been read. -/
theorem checkCS_of_desc (hnull : isNull sel = false) (ha : descAddr s sel = .ok a) (hd : readDesc s a = .ok d) :
    checkCS s sel =
      if (descAttr d).s = false then .error (.refused .gateOrSystemDescriptor)
      else if (descAttr d).isCode = false then raise s .gp (.selector sel)
      else if csPrivOk s.cpl sel (descAttr d) = false then raise s .gp (.selector sel)
      else if (descAttr d).p = false then raise s .np (.selector sel)
      else .ok ⟨a, d⟩ := by
  simp only [checkCS, hnull, ha, hd, ok_bind]
  cases (descAttr d).s with
  | false => rfl
  | true =>
    cases (descAttr d).isCode with
    | false => rfl
    | true =>
      cases csPrivOk s.cpl sel (descAttr d) with
      | false => rfl
      | true =>
        cases (descAttr d).p with
        | false => rfl
        | true => rfl

theorem checkCS_of_csLoadable (h : CsLoadable s sel a d) : checkCS s sel = .ok ⟨a, d⟩ := by
  obtain ⟨hnull, ha, hd, hs, hcode, hconf, hnonconf, hp⟩ := h
  refine checkCS_ok.mpr ⟨hnull, ha, hd, hs, hcode, ?_, hp⟩
  rw [← Bool.not_eq_false, csPrivOk_eq_false]
  split_ifs with hc
  · exact not_lt.mpr (hconf hc)
  · obtain ⟨hdpl, hrpl⟩ := hnonconf (Bool.not_eq_true _ ▸ hc)
    simp only [hdpl, ne_eq, not_true, false_or, not_lt]
    exact hrpl

/-! The write of the accessed bit, R64, R72 -/

/-- Where A is clear and its byte has an address, the byte is written, or outside RAM the processor may hang. -/
theorem accessedBitWrite_clear {pa : Nat} (hclear : (descAttr d).accessed = false) (hpa : translate s (a + 5) .write = .ok pa) :
    (accessedBitWrite s a d = .error (.fault .hang) ∧ s.params.physClass pa ≠ .ram) ∨
      accessedBitWrite s a d = .ok [(pa, accessedByte d)] := by
  simp only [accessedBitWrite, hclear, Bool.false_eq_true, if_false, hpa, ok_bind]
  split_ifs with hc
  · exact .inl ⟨rfl, by simpa using (Bool.and_eq_true_iff.mp hc).1⟩
  · exact .inr rfl

theorem accessedBitWrite_error (hclear : (descAttr d).accessed = false) (h : translate s (a + 5) .write = .error e) :
    accessedBitWrite s a d = .error e := by
  simp only [accessedBitWrite, hclear, Bool.false_eq_true, if_false, h, error_bind]

/-- The accessed bit's outcome, by whether its byte has an address: no walk is refused. -/
theorem accessedBitOutcome_of {stored : List Nat} {o : Host.Outcome State Fault Refusal}
    (hfault : ∀ f, translate s (a + 5) .write = .error (.fault f) → o = .fault f)
    (hok : ∀ pa, translate s (a + 5) .write = .ok pa →
      (o = .fault .hang ∧ (s.params.physClass pa ≠ .ram ∨ ∃ q ∈ stored, s.romDescriptor q = true)) ∨ ∃ t, o = .next t) :
    AccessedBitOutcome s a stored o := by
  unfold AccessedBitOutcome
  rcases translate_cases s (a + 5) .write with ⟨pa, hpa⟩ | hpf
  · rw [hpa]; exact hok pa hpa
  · rw [hpf]; exact hfault _ hpf

end Checks

/-! ## MOV, POP and the far-pointer loads as one kind of instruction -/

section SegLoads
variable {s t : State} {i : Instr} {sr : SReg} {sel : Sel} {ld : SegLoad} {e : Stop}

/-- A far-pointer load names its general register and its memory operand. -/
theorem farLoadForm_operands_unique {r r' : Reg} {m m' : Mem} (h : (i, sr) ∈ farLoadForms r m) (h' : (i, sr) ∈ farLoadForms r' m') :
    r = r' ∧ m = m' := by
  simp only [farLoadForms, List.mem_cons, Prod.mk.injEq, List.not_mem_nil, or_false] at h
  obtain ⟨rfl, rfl⟩ | ⟨rfl, rfl⟩ | ⟨rfl, rfl⟩ | ⟨rfl, rfl⟩ | ⟨rfl, rfl⟩ := h <;>
    simpa [eq_comm] using h'

theorem popForm_not_farLoadForm {r : Reg} {m : Mem} (h : (i, sr) ∈ popForms) : (i, sr) ∉ farLoadForms r m := by
  simp only [popForms, List.mem_cons, Prod.mk.injEq, List.not_mem_nil, or_false] at h
  obtain ⟨rfl, rfl⟩ | ⟨rfl, rfl⟩ | ⟨rfl, rfl⟩ | ⟨rfl, rfl⟩ | ⟨rfl, rfl⟩ := h <;> simp

/-- Where `LoadSegReg` stops, the instruction that calls it stops so. -/
theorem exec_segLoadTo_of_error (h : SegLoadTo s i sr sel) (he : loadSegReg s sr sel = .error e) : exec i s = outcome (.error e) := by
  obtain ⟨src, rfl, -, hsel⟩ | ⟨v, hi, hv, rfl⟩ | ⟨r, m, p, hi, hp, rfl⟩ := h
  · simp [exec_movToSreg, hsel, he]
  · simp [exec_popForm hi, popSreg, hv, he]
  · simp [exec_farLoadForm hi, loadFarPtr, hp, he]

/-- Where `LoadSegReg` answers, the instruction that calls it completes. -/
theorem exec_segLoadTo_of_load (h : SegLoadTo s i sr sel) (hld : loadSegReg s sr sel = .ok ld) :
    ∃ t, exec i s = .next t ∧ t.seg sr = ld.seg ∧ t.mem = storeMem s.params s.mem ld.writes ∧
      ((i, sr) ∈ popForms → t.reg .esp = espAfterPop s) ∧
      (∀ r m p, (i, sr) ∈ farLoadForms r m → readFarPtr s m = .ok p → t.reg r = regAfterFarLoad s r p.off) ∧
      t.pc = pcAfter s i := by
  obtain ⟨src, rfl, -, hsel⟩ | ⟨v, hi, hv, rfl⟩ | ⟨r, m, p, hi, hp, rfl⟩ := h
  · obtain ⟨t, hexec, hseg, hmem, hpc⟩ := exec_movToSreg_of_load hsel hld
    exact ⟨t, hexec, hseg, hmem, by simp, by simp, hpc⟩
  · obtain ⟨t, hexec, hseg, hmem, hesp, hpc⟩ := exec_popForm_of_load hi hv hld
    exact ⟨t, hexec, hseg, hmem, fun _ => hesp, fun r m p hfar => absurd hfar (popForm_not_farLoadForm hi), hpc⟩
  · obtain ⟨t, hexec, hseg, hmem, hreg, hpc⟩ := exec_farLoadForm_of_load hi hp hld
    refine ⟨t, hexec, hseg, hmem, fun hpop => absurd hi (popForm_not_farLoadForm hpop), fun r' m' p' hi' hp' => ?_, hpc⟩
    obtain ⟨rfl, rfl⟩ := farLoadForm_operands_unique hi hi'
    rw [hp, Except.ok.injEq] at hp'
    exact hp' ▸ hreg

/-- A segment load that completes leaves what `LoadSegReg` gave it for some selector. -/
theorem exec_segLoad_next {r : Reg} {m : Mem} {src : RM}
    (hi : i = .movToSreg sr src ∧ sr ≠ .cs ∨ (i, sr) ∈ popForms ∨ (i, sr) ∈ farLoadForms r m) (h : exec i s = .next t) :
    ∃ sel ld, loadSegReg s sr sel = .ok ld ∧ t.seg sr = ld.seg ∧ t.cpl = s.cpl := by
  obtain ⟨rfl, -⟩ | hi | hi := hi
  · simp only [exec_movToSreg, outcome_next, bind_ok, Except.ok.injEq] at h
    obtain ⟨sel, -, ld, hld, rfl⟩ := h
    exact ⟨sel, ld, hld, by simp [State.seg], by simp⟩
  · rw [exec_popForm hi, outcome_next, popSreg_ok] at h
    obtain ⟨v, ld, -, hld, rfl⟩ := h
    exact ⟨_, ld, hld, by simp [State.seg], by simp⟩
  · rw [exec_farLoadForm hi, outcome_next, loadFarPtr_ok] at h
    obtain ⟨p, ld, -, hld, rfl⟩ := h
    exact ⟨_, ld, hld, by simp [State.seg], by simp⟩

/-- Setting A leaves the type's other bits alone. -/
theorem getLsbD_type_or_one (ty : BitVec 4) {j : Nat} (hj : j ≠ 0) : (ty ||| 1).getLsbD j = ty.getLsbD j := by
  simp [BitVec.getLsbD_or, hj]

end SegLoads

end Sys2Proof.Machine

namespace Sys2Proof.Proofs

open Sys2Proof Sys2Proof.Machine

/-- Settles O24: the write of the accessed bit hangs or is dropped. -/
theorem romAccessedBitCompletesOrHangs : Obligations.RomAccessedBitCompletesOrHangs := by
  intro s i sr sel a d hi hload ⟨hclear, pa, hpa, hrom⟩
  rcases accessedBitWrite_clear hclear hpa with ⟨hhang, -⟩ | hwrite
  · have hld : loadSegReg s sr sel = .error (.fault .hang) := by rw [loadSegReg_of_segLoadable hload, hhang]; rfl
    exact .inl (exec_segLoadTo_of_error hi hld)
  · have hld : loadSegReg s sr sel = .ok ⟨loadedReg sel d, [(pa, accessedByte d)]⟩ := by
      rw [loadSegReg_of_segLoadable hload, hwrite]; rfl
    obtain ⟨t, hexec, hseg, hmem, hrest⟩ := exec_segLoadTo_of_load hi hld
    rw [storeMem_outside_ram s.params s.mem (by simpa using hrom)] at hmem
    exact .inr ⟨t, hexec, hseg, hmem, hrest⟩

/-- Settles O26, check by check in the order of R70. -/
theorem loadSegRegChecksInOrder : Obligations.LoadSegRegChecksInOrder := by
  intro s i sr sel hi hnull
  refine ⟨fun e he => ?desc, fun a d hload hclear => ?accessed, fun a d ha hd => ?checks⟩
  case desc => exact exec_segLoadTo_of_error hi (loadSegReg_of_selDesc_error hnull he)
  case accessed =>
    have hload := loadSegReg_of_segLoadable hload
    refine accessedBitOutcome_of (fun f hf => ?_) (fun pa hpa => ?_)
    · rw [accessedBitWrite_error hclear hf] at hload
      exact exec_segLoadTo_of_error hi hload
    · rcases accessedBitWrite_clear hclear hpa with ⟨hhang, hrom⟩ | hwrite
      · rw [hhang] at hload
        exact .inl ⟨exec_segLoadTo_of_error hi hload, .inl hrom⟩
      · rw [hwrite] at hload
        obtain ⟨t, hexec, -⟩ := exec_segLoadTo_of_load hi hload
        exact .inr ⟨t, hexec⟩
  case checks =>
    have hload := loadSegReg_of_desc (sr := sr) hnull ha hd
    simp only [loadTypeOk_eq_false, loadPrivOk_eq_false] at hload
    refine ⟨fun htype => ?_, fun htype hpriv => ?_, fun htype hpriv hp => ?_⟩
    · rw [if_pos htype] at hload
      exact exec_segLoadTo_of_error hi hload
    · rw [if_neg htype, if_pos hpriv] at hload
      exact exec_segLoadTo_of_error hi hload
    · rw [if_neg htype, if_neg hpriv, if_pos hp, notPresentExc_eq] at hload
      exact exec_segLoadTo_of_error hi hload

/-- Settles O27, for the three forms that load SS. -/
theorem nullSelectorIntoSsTakesGP : Obligations.NullSelectorIntoSsTakesGP := by
  intro s
  refine ⟨fun src sel hsel hnull => ?mov, fun v hv hnull => ?pop, fun r m p hp hnull => ?far⟩
  case mov =>
    have hi : SegLoadTo s (.movToSreg .ss src) .ss sel := .inl ⟨src, rfl, by decide, hsel⟩
    exact exec_segLoadTo_of_error hi (loadSegReg_ss_null hnull)
  case pop =>
    have hi : SegLoadTo s .popSS .ss (le16 (v.take 2)) := .inr (.inl ⟨v, by simp, hv, rfl⟩)
    exact exec_segLoadTo_of_error hi (loadSegReg_ss_null hnull)
  case far =>
    have hi : SegLoadTo s (.lss r m) .ss p.sel := .inr (.inr ⟨r, m, p, by simp, hp, rfl⟩)
    exact exec_segLoadTo_of_error hi (loadSegReg_ss_null hnull)

/-- Settles O33: a load that completes has passed the privilege check of R70 step 6. -/
theorem loadedSegmentIsPrivileged : Obligations.LoadedSegmentIsPrivileged := by
  intro s t i sr r m src hi h hnull
  obtain ⟨sel, ld, hld, hseg, hcpl⟩ := exec_segLoad_next hi h
  rw [hseg] at hnull ⊢
  rw [hcpl]
  obtain ⟨hsel, -, rfl⟩ | ⟨-, a, d, ws, -, -, -, hpriv, -, -, rfl⟩ := loadSegReg_ok.mp hld
  · exact absurd hsel (Bool.eq_false_iff.mp hnull)
  · rw [← Bool.not_eq_false, loadPrivOk_eq_false] at hpriv
    simp only [SegReg.setAccessed, segFrom, getLsbD_type_or_one _ (show 3 ≠ 0 by decide),
      getLsbD_type_or_one _ (show 2 ≠ 0 by decide)]
    split_ifs at hpriv ⊢ with hss
    · tauto
    · by_cases hconf : (descAttr d).type.getLsbD 3 = true ∧ (descAttr d).type.getLsbD 2 = true
      · exact .inl hconf
      · right; constructor <;> (by_contra hlt; exact hpriv ⟨hconf, by omega⟩)

end Sys2Proof.Proofs

/-! ## Stores and pushes through the addresses they store to, R75, R82, R141 -/

namespace Sys2Proof.Machine

open Sys2Proof.Laws

section Stores
variable {s : State} {sr : SReg} {off : Word} {bs : List Byte} {e : Stop}

/-- A store plans its bytes at the addresses of `storeAddrs`, or stops as `storeAddrs` does. -/
theorem segWrite_eq (s : State) (sr : SReg) (off : Word) (bs : List Byte) :
    segWrite s sr off bs = (storeAddrs s sr off bs.length).map fun ps => ps.zip bs := by
  unfold segWrite storeAddrs memWrite
  cases segAccess s sr off bs.length .write with
  | error _ => rfl
  | ok la => simp only [ok_bind]; cases walk s la .write bs.length <;> rfl

theorem segWrite_of_storeAddrs_error (h : storeAddrs s sr off bs.length = .error e) : segWrite s sr off bs = .error e := by
  rw [segWrite_eq, h]; rfl

theorem storeAddrs_of_walk {la : Word} {n : Nat} {ps : List Nat} (hla : segAccess s sr off n .write = .ok la)
    (hps : walk s la .write n = .ok ps) : storeAddrs s sr off n = .ok ps := by
  rw [storeAddrs, hla]; exact hps

/-- Four bytes down within the width of the stack pointer, R23, R141. -/
theorem stackAdd_neg_four (s : State) (sp : Word) : s.stackAdd sp (-4) = spAfterPush s sp := by
  have hmask : (0xFFFF : Word).toNat = 2 ^ 16 - 1 := rfl
  have hneg : (-4 : Word).toNat = 4294967292 := rfl
  unfold State.stackAdd spAfterPush
  split_ifs
  · exact (BitVec.sub_eq_add_neg sp 4).symm
  · apply BitVec.eq_of_toNat_eq
    rw [BitVec.toNat_and, hmask, Nat.and_two_pow_sub_one_eq_mod, BitVec.toNat_add, hneg, BitVec.toNat_ofNat]
    omega

/-- A push stores four bytes at the new stack pointer, or stops as the store's addresses do, R141. -/
theorem push32_eq (s : State) (sp v : Word) :
    push32 s sp v = (storeAddrs s .ss (spAfterPush s sp) 4).map fun ps => ⟨spAfterPush s sp, ps.zip (put32 v)⟩ := by
  unfold push32
  rw [stackAdd_neg_four, segWrite_eq, show (put32 v).length = 4 from rfl]
  cases storeAddrs s .ss (spAfterPush s sp) 4 <;> rfl

/-- The little-endian bytes of a doubleword are those of its number. -/
theorem put32_eq_bytesOfNat (v : Word) : put32 v = bytesOfNat 4 v.toNat := by
  simp only [put32, bytesOfNat, List.cons.injEq, and_true, ← BitVec.toNat_inj, BitVec.extractLsb'_toNat, BitVec.toNat_ofNat,
    Nat.shiftRight_eq_div_pow]
  exact ⟨by omega, trivial, by omega, by omega⟩

end Stores

/-! ## The pseudo-descriptor of LGDT, R164 -/

section TableReads
variable {s : State} {m : Mem}

/-- After the limit word LGDT stops where the 6-byte check or the base doubleword stops. -/
theorem readTableReg_of_base_error {v : List Byte} {e : Stop} (hv : segRead s .operand (operandSeg s m) (effAddr s m) 2 = .ok v)
    (h : (do let _ ← segAccess s (operandSeg s m) (effAddr s m) 6 .read
             segRead s .tableBase (operandSeg s m) (effAddr s m + 2) 4) = .error e) : readTableReg s m = .error e := by
  rw [readTableReg, hv, ok_bind]
  cases hla : segAccess s (operandSeg s m) (effAddr s m) 6 .read with
  | error f => rw [hla, error_bind] at h; cases h; rfl
  | ok la => rw [hla, ok_bind] at h; rw [ok_bind, h, error_bind]

theorem exec_lgdt_of_readTableReg_error {f : Fault} (hcpl : s.cpl = 0) (h : readTableReg s m = .error (.fault f)) :
    exec (.lgdt m) s = .fault f := by
  simp [exec, execLgdt, raiseIf, hcpl, h]

end TableReads

/-! ## The far transfers, R141 and R142 -/

section FarTransfers
variable {s : State} {i : Instr} {p : FarPtr} {a : Word} {d : BitVec 64} {e : Stop} {ps1 ps2 : List Nat} {len : Nat}

/-- Both transfers begin with the checks of `LoadCS`, and stop where these do. -/
theorem exec_farTransfer_of_checkCS_error (h : JmpTo s i p ∨ CallTo s i p) (he : checkCS s p.sel = .error e) :
    exec i s = outcome (.error e) := by
  rcases h with hjmp | hcall
  · rw [exec_jmpTo hjmp, jmpFar, he, error_bind]
  · rw [exec_callTo hcall, callFar, he, error_bind]

/-- R71 steps 7 and 8: the accessed bit, and CS with CPL in its RPL field. -/
theorem loadCS_eq (s : State) (sel : Sel) (a : Word) (d : BitVec 64) :
    loadCS s sel ⟨a, d⟩ = (accessedBitWrite s a d).map fun ws => ⟨loadedReg (sel.extractLsb' 2 14 ++ s.cpl) d, ws⟩ := by
  unfold loadCS
  cases accessedBitWrite s a d <;> rfl

/-- A far JMP to a loadable target has only the accessed bit left to write. -/
theorem jmpFar_of_csLoadable (h : CsLoadable s p.sel a d) :
    jmpFar s p = (loadCS s p.sel ⟨a, d⟩).map fun ld => (s.applyLoad .cs ld).finishAt p.off := by
  rw [jmpFar, checkCS_of_csLoadable h, ok_bind]
  cases loadCS s p.sel ⟨a, d⟩ <;> rfl

theorem callFar_of_first_push_error (h : CsLoadable s p.sel a d)
    (he : storeAddrs s .ss (spAfterPush s s.stackPtr) 4 = .error e) : callFar s p len = .error e := by
  rw [callFar, checkCS_of_csLoadable h, ok_bind, push32_eq, he]; rfl

theorem callFar_of_second_push_error (h : CsLoadable s p.sel a d)
    (h1 : storeAddrs s .ss (spAfterPush s s.stackPtr) 4 = .ok ps1)
    (he : storeAddrs s .ss (spAfterPush s (spAfterPush s s.stackPtr)) 4 = .error e) : callFar s p len = .error e := by
  rw [callFar, checkCS_of_csLoadable h, ok_bind, push32_eq, h1]
  simp only [Except.map, ok_bind, push32_eq, he]
  rfl

/-- The byte writes of the two pushes: the old CS selector at `ps1`, the return offset at `ps2`, R141. -/
def pushWrites (s : State) (len : Nat) (ps1 ps2 : List Nat) : List (Nat × Byte) :=
  ps1.zip (put32 ((s.seg .cs).sel.zeroExtend 32)) ++ ps2.zip (put32 (s.nextPc len))

/-- A far CALL to a loadable target whose pushes have addresses has the accessed bit and the pushes left to write. -/
theorem callFar_of_pushes (h : CsLoadable s p.sel a d) (h1 : storeAddrs s .ss (spAfterPush s s.stackPtr) 4 = .ok ps1)
    (h2 : storeAddrs s .ss (spAfterPush s (spAfterPush s s.stackPtr)) 4 = .ok ps2) :
    callFar s p len = loadCS s p.sel ⟨a, d⟩ >>= fun ld =>
      (storeBySoftware s (pushWrites s len ps1 ps2)).map fun u =>
        ((u.applyLoad .cs ld).setStackPtr s.segs.ss.attr.db (spAfterPush s (spAfterPush s s.stackPtr))).finishAt p.off := by
  rw [callFar, checkCS_of_csLoadable h, ok_bind, push32_eq, h1]
  simp only [Except.map, ok_bind, push32_eq, h2]
  cases loadCS s p.sel ⟨a, d⟩ with
  | error _ => rfl
  | ok ld => simp only [ok_bind, pushWrites]; cases storeBySoftware s _ <;> rfl

/-- A store by software is made, or hangs on a descriptor in ROM, R206. -/
theorem storeBySoftware_cases (s : State) (ws : List (Nat × Byte)) :
    storeBySoftware s ws = .ok (s.store ws) ∨
      storeBySoftware s ws = .error (.fault .hang) ∧ ∃ w ∈ ws, s.romDescriptor w.1 = true := by
  cases h : storeBySoftware s ws with
  | ok u => exact .inl (congrArg Except.ok (storeBySoftware_ok.mp h).2)
  | error e => obtain ⟨rfl, hrom⟩ := storeBySoftware_error h; exact .inr ⟨rfl, hrom⟩

theorem fst_mem_of_mem_pushWrites {w : Nat × Byte} (h : w ∈ pushWrites s len ps1 ps2) : w.1 ∈ ps1 ++ ps2 := by
  rcases List.mem_append.mp h with h | h
  · exact List.mem_append_left _ (List.of_mem_zip h).1
  · exact List.mem_append_right _ (List.of_mem_zip h).1

/-- Memory after the pushes of a far CALL. -/
theorem storeMem_pushWrites (s : State) (i : Instr) (ps1 ps2 : List Nat) :
    storeMem s.params s.mem (pushWrites s (instrSize i) ps1 ps2) = memAfterPushes s i ps1 ps2 := by
  have hsel : ((s.seg .cs).sel.zeroExtend 32).toNat = s.segs.cs.sel.toNat := by
    rw [BitVec.zeroExtend, BitVec.toNat_setWidth_of_le (by decide)]; rfl
  rw [pushWrites, storeMem_append, put32_eq_bytesOfNat, put32_eq_bytesOfNat, hsel, nextPc_instrSize]

/-- ESP after the pushes, R141. -/
theorem esp_after_pushes {u : State} (h : u.regs = s.regs) (sp : Word) :
    (u.setStackPtr s.segs.ss.attr.db sp).reg .esp = espAfterPush s sp := by
  rw [State.reg, (setStackPtr_fields u _ sp).1, Gprs.get_set_self, h]
  rfl

/-- The pushes of a far CALL, where it is one, have the addresses `ps1` and `ps2`. -/
abbrev PushesAt (s : State) (ps1 ps2 : List Nat) : Prop :=
  storeAddrs s .ss (spAfterPush s s.stackPtr) 4 = .ok ps1 ∧
    storeAddrs s .ss (spAfterPush s (spAfterPush s s.stackPtr)) 4 = .ok ps2

/-- No instruction is both transfers. -/
theorem jmpTo_not_callTo (h : JmpTo s i p) : ¬CallTo s i p := by
  obtain ⟨off, sel, rfl, -⟩ | ⟨m, rfl, -⟩ := h <;> simp [CallTo]

/-- After its checks and pushes a transfer stops where the accessed bit's write stops. -/
theorem exec_farTransfer_of_loadCS_error (hi : JmpTo s i p ∨ CallTo s i p) (h : CsLoadable s p.sel a d)
    (hpush : CallTo s i p → PushesAt s ps1 ps2) (he : loadCS s p.sel ⟨a, d⟩ = .error e) : exec i s = outcome (.error e) := by
  rcases hi with hjmp | hcall
  · rw [exec_jmpTo hjmp, jmpFar_of_csLoadable h, he]; rfl
  · obtain ⟨hps1, hps2⟩ := hpush hcall
    rw [exec_callTo hcall, callFar_of_pushes h hps1 hps2, he]; rfl

/-- A far JMP whose load of CS is `ld` completes. -/
theorem exec_jmpTo_of_load {ld : SegLoad} (hi : JmpTo s i p) (h : CsLoadable s p.sel a d) (hld : loadCS s p.sel ⟨a, d⟩ = .ok ld) :
    exec i s = .next ((s.applyLoad .cs ld).finishAt p.off) := by
  rw [exec_jmpTo hi, jmpFar_of_csLoadable h, hld]; rfl

/-- A far CALL whose load of CS is `ld` completes, or hangs on a push to a descriptor in ROM, R206. -/
theorem exec_callTo_of_load {ld : SegLoad} (hi : CallTo s i p) (h : CsLoadable s p.sel a d) (hpush : PushesAt s ps1 ps2)
    (hld : loadCS s p.sel ⟨a, d⟩ = .ok ld) :
    (exec i s = .fault .hang ∧ ∃ q ∈ ps1 ++ ps2, s.romDescriptor q = true) ∨
    exec i s = .next ((((s.store (pushWrites s (instrSize i) ps1 ps2)).applyLoad .cs ld).setStackPtr s.segs.ss.attr.db
      (spAfterPush s (spAfterPush s s.stackPtr))).finishAt p.off) := by
  rw [exec_callTo hi, callFar_of_pushes h hpush.1 hpush.2, hld, ok_bind]
  rcases storeBySoftware_cases s (pushWrites s (instrSize i) ps1 ps2) with hstore | ⟨hhang, w, hw, hrom⟩
  · rw [hstore]; exact .inr rfl
  · rw [hhang]; exact .inl ⟨rfl, w.1, fst_mem_of_mem_pushWrites hw, hrom⟩

end FarTransfers

end Sys2Proof.Machine

namespace Sys2Proof.Proofs

open Sys2Proof Sys2Proof.Machine Sys2Proof.Laws

/-- Settles O25: the write of the accessed bit hangs or is dropped, and so may a push hang. -/
theorem romAccessedBitOfCsCompletesOrHangs : Obligations.RomAccessedBitOfCsCompletesOrHangs := by
  intro s i p a d hload ⟨hclear, pa, hpa, hrom⟩
  have hnoRam : ∀ w ∈ [(pa, accessedByte d)], s.params.physClass w.1 ≠ .ram := by simpa using hrom
  have hld := loadCS_eq s p.sel a d
  refine ⟨fun hjmp => ?jmp, fun la1 la2 ps1 ps2 hcall hla1 hps1 hla2 hps2 => ?call⟩
  case jmp =>
    rcases accessedBitWrite_clear hclear hpa with ⟨hhang, -⟩ | hwrite
    · rw [hhang] at hld
      exact .inl (exec_farTransfer_of_loadCS_error (ps1 := []) (ps2 := []) (.inl hjmp) hload
        (fun hcall => absurd hcall (jmpTo_not_callTo hjmp)) hld)
    · rw [hwrite] at hld
      exact .inr ⟨_, exec_jmpTo_of_load hjmp hload hld, rfl, storeMem_outside_ram s.params s.mem hnoRam, rfl, rfl⟩
  case call =>
    have hpush : PushesAt s ps1 ps2 := ⟨storeAddrs_of_walk hla1 hps1, storeAddrs_of_walk hla2 hps2⟩
    rcases accessedBitWrite_clear hclear hpa with ⟨hhang, -⟩ | hwrite
    · rw [hhang] at hld
      exact .inl (exec_farTransfer_of_loadCS_error (.inr hcall) hload (fun _ => hpush) hld)
    · rw [hwrite] at hld
      rcases exec_callTo_of_load hcall hload hpush hld with ⟨hhang, -⟩ | hexec
      · exact .inl hhang
      · refine .inr ⟨_, hexec, by simp [SegFile.set], ?mem,
          esp_after_pushes (u := (s.store _).applyLoad .cs _) rfl _, by simp, by simp⟩
        rw [← storeMem_pushWrites]
        simp [storeMem_outside_ram _ _ hnoRam]

/-- Settles O44, check by check in the order of R71. -/
theorem farTransferChecksInOrder : Obligations.FarTransferChecksInOrder := by
  intro s i p hi
  refine ⟨fun hnull => ?null, fun e hnull he => ?desc, fun a d ps1 ps2 hload hclear hpush => ?accessed,
    fun a d hnull ha hd => ?checks⟩
  case null => exact exec_farTransfer_of_checkCS_error hi (checkCS_null hnull)
  case desc => exact exec_farTransfer_of_checkCS_error hi (checkCS_of_selDesc_error hnull he)
  case accessed =>
    have hld := loadCS_eq s p.sel a d
    refine accessedBitOutcome_of (fun f hf => ?_) (fun pa hpa => ?_)
    · rw [accessedBitWrite_error hclear hf] at hld
      exact exec_farTransfer_of_loadCS_error hi hload hpush hld
    · rcases accessedBitWrite_clear hclear hpa with ⟨hhang, hrom⟩ | hwrite
      · rw [hhang] at hld
        exact .inl ⟨exec_farTransfer_of_loadCS_error hi hload hpush hld, .inl hrom⟩
      · rw [hwrite] at hld
        rcases hi with hjmp | hcall
        · exact .inr ⟨_, exec_jmpTo_of_load hjmp hload hld⟩
        · rcases exec_callTo_of_load hcall hload (hpush hcall) hld with ⟨hhang, hrom⟩ | hexec
          · exact .inl ⟨hhang, .inr hrom⟩
          · exact .inr ⟨_, hexec⟩
  case checks =>
    have hcheck := checkCS_of_desc hnull ha hd
    simp only [csPrivOk_eq_false] at hcheck
    refine ⟨fun hs => ?_, fun hs hbad => ?_, fun hs hcode hpriv hp => ?_⟩
    · rw [if_pos hs] at hcheck
      exact exec_farTransfer_of_checkCS_error hi hcheck
    · rw [if_neg (by simp [hs])] at hcheck
      by_cases hcode : (descAttr d).isCode = false
      · rw [if_pos hcode] at hcheck
        exact exec_farTransfer_of_checkCS_error hi hcheck
      · rw [if_neg hcode, if_pos (hbad.resolve_left hcode)] at hcheck
        exact exec_farTransfer_of_checkCS_error hi hcheck
    · rw [if_neg (by simp [hs]), if_neg (Bool.not_eq_false _ ▸ hcode), if_neg hpriv, if_pos hp] at hcheck
      exact exec_farTransfer_of_checkCS_error hi hcheck

/-- Settles O34: an access comes first in each instruction, or after checks that the statement grants. -/
theorem operandFaultsEndTheInstruction : Obligations.OperandFaultsEndTheInstruction := by
  intro s e m r sr
  refine ⟨fun h => ⟨?mov, fun hcpl => ?lldt⟩, fun h f hf => ?pop, fun h => ⟨fun f hf => ?far, ?callMem, ?jmpMem⟩,
    fun h f hf => ?selStore, fun h f hf => ?tableStore, fun hcpl => ⟨fun h => ?lgdtWord, fun v hv h => ?lgdtRest⟩,
    fun i p a d hi hload => ⟨fun h => ?push1, fun ps hps h => ?push2⟩⟩
  case mov => rw [exec_movToSreg, h]; rfl
  case lldt => simp [exec, execLldt, raiseIf, hcpl, h]
  case pop => rw [exec_popForm hf, popSreg, h]; rfl
  case far => rw [exec_farLoadForm hf, loadFarPtr, h]; rfl
  case callMem => simp [exec, execCallMem, h]
  case jmpMem => simp [exec, execJmpMem, h]
  case selStore => rw [exec_selStoreForm hf, storeRM16, segWrite_of_storeAddrs_error (bs := put16 f.2) h]; rfl
  case tableStore => rw [exec_tableStoreForm hf, storeTableReg, segWrite_of_storeAddrs_error (bs := pseudoDesc f.2) h]; rfl
  case lgdtWord => exact exec_lgdt_of_readTableReg_error hcpl (by rw [readTableReg, h, error_bind])
  case lgdtRest => exact exec_lgdt_of_readTableReg_error hcpl (readTableReg_of_base_error hv h)
  case push1 => rw [exec_callTo hi, callFar_of_first_push_error hload h]; rfl
  case push2 => rw [exec_callTo hi, callFar_of_second_push_error hload hps h]; rfl

end Sys2Proof.Proofs

/-! ## Decoding an encoding, R101 to R108 -/

namespace Sys2Proof

section Decoding

/-- The ModRM byte of a memory operand carries `reg` and introduces the operand, R106. -/
theorem mem_encode_decodes {m : Mem} (hwf : m.wf = true) (reg : BitVec 3) :
    ∃ b tl, m.encode reg = b :: tl ∧ regOf b = reg ∧ modOf b ≠ 3#2 ∧
      ∀ rest, decodeRM true b (tl ++ rest) = .ok (.mem m, rest) := by
  have h4 : Reg.ofBits 4#3 = .esp := rfl
  have h5 : Reg.ofBits 5#3 = .ebp := rfl
  cases m with
  | base r =>
    have hr : r ≠ .esp ∧ r ≠ .ebp := by simpa [Mem.wf] using hwf
    exact ⟨_, _, rfl, by simp, by simp, fun rest => by simp [decodeRM, hr]⟩
  | abs d => exact ⟨_, _, rfl, by simp, by simp, fun rest => by simp [decodeRM, h5, take32_put32, Except.map]⟩
  | base8 r d =>
    have hr : r ≠ .esp := by simpa [Mem.wf] using hwf
    exact ⟨_, _, rfl, by simp, by simp, fun rest => by simp [decodeRM, hr, Except.map]⟩
  | base32 r d =>
    have hr : r ≠ .esp := by simpa [Mem.wf] using hwf
    exact ⟨_, _, rfl, by simp, by simp, fun rest => by simp [decodeRM, hr, take32_put32, Except.map]⟩
  | sib sc x b =>
    have hb : b ≠ .ebp := by simpa [Mem.wf] using hwf
    exact ⟨_, _, rfl, by simp, by simp, fun rest => by simp [decodeRM, h4, decodeSib, hb, Except.map]⟩
  | sibAbs sc x d =>
    exact ⟨_, _, rfl, by simp, by simp, fun rest => by simp [decodeRM, h4, h5, decodeSib, take32_put32, Except.map]⟩
  | sib8 sc x b d => exact ⟨_, _, rfl, by simp, by simp, fun rest => by simp [decodeRM, h4, decodeSib, Except.map]⟩
  | sib32 sc x b d =>
    exact ⟨_, _, rfl, by simp, by simp, fun rest => by simp [decodeRM, h4, decodeSib, take32_put32, Except.map]⟩

theorem rm_encode_decodes {rm : RM} (hwf : rm.wf = true) (reg : BitVec 3) :
    ∃ b tl, rm.encode reg = b :: tl ∧ regOf b = reg ∧ ∀ rest, decodeRM true b (tl ++ rest) = .ok (rm, rest) := by
  cases rm with
  | reg r => exact ⟨_, _, rfl, by simp, fun rest => by simp [decodeRM]⟩
  | mem m =>
    obtain ⟨b, tl, henc, hreg, -, hdec⟩ := mem_encode_decodes (m := m) hwf reg
    exact ⟨b, tl, henc, hreg, hdec⟩

theorem memOnly_encode_decodes {m : Mem} (hwf : m.wf = true) (reg : BitVec 3) :
    ∃ b tl, m.encode reg = b :: tl ∧ regOf b = reg ∧ ∀ rest, decodeMem true b (tl ++ rest) = .ok (m, rest) := by
  obtain ⟨b, tl, henc, hreg, hmod, hdec⟩ := mem_encode_decodes hwf reg
  exact ⟨b, tl, henc, hreg, fun rest => by simp [decodeMem, hmod, hdec]⟩

theorem withRM_encode {rm : RM} (hwf : rm.wf = true) (reg : BitVec 3) (rest : List Byte)
    (k : BitVec 3 → RM → Except DecodeError Instr) :
    withRM true (rm.encode reg ++ rest) k = (k reg rm).map fun i => (i, rest) := by
  obtain ⟨b, tl, henc, hreg, hdec⟩ := rm_encode_decodes hwf reg
  simp [withRM, henc, hreg, hdec]

theorem withMem_encode {m : Mem} (hwf : m.wf = true) (reg : BitVec 3) (rest : List Byte) (k : BitVec 3 → Mem → Instr) :
    withMem true (m.encode reg ++ rest) k = .ok (k reg m, rest) := by
  obtain ⟨b, tl, henc, hreg, hdec⟩ := memOnly_encode_decodes hwf reg
  simp [withMem, henc, hreg, hdec, Except.map]

/-- The in-line far pointer of the operand size, R101, R107. -/
theorem takePtr_encode {op32 : Bool} {off : PtrOff} (hwf : off.wf op32 = true) (sel : Sel) (rest : List Byte) (k : PtrOff → Sel → Instr) :
    takePtr op32 (off.encode ++ put16 sel ++ rest) k = .ok (k off sel, rest) := by
  cases off with
  | off32 v =>
    have hop : op32 = true := hwf
    simp [takePtr, takeOff, hop, PtrOff.encode, take32_put32, take16_put16, Except.map]
  | off16 v =>
    have hop : op32 = false := by simpa [PtrOff.wf] using hwf
    simp [takePtr, takeOff, hop, PtrOff.encode, take16_put16, Except.map]

/-- A well-formed instruction is decoded from its encoding, by its opcode's row. -/
theorem decode_encode {op32 : Bool} {i : Instr} (hwf : i.wf op32 = true) (rest : List Byte) :
    decode op32 true (encode i ++ rest) = .ok (i, rest) := by
  cases i with
  | movToSreg sr src =>
    obtain ⟨hsr, hsrc⟩ := Bool.and_eq_true_iff.mp hwf
    refine (withRM_encode hsrc sr.toBits rest movToSregOf).trans ?_
    simp [movToSregOf, (bne_iff_ne.mp hsr), Except.map]
  | movFromSreg dst sr =>
    refine (withRM_encode hwf sr.toBits rest movFromSregOf).trans ?_
    simp [movFromSregOf, Except.map]
  | lds r m => exact (withMem_encode hwf r.toBits rest fun r m => .lds (Reg.ofBits r) m).trans (by simp)
  | les r m => exact (withMem_encode hwf r.toBits rest fun r m => .les (Reg.ofBits r) m).trans (by simp)
  | lss r m => exact (withMem_encode hwf r.toBits rest fun r m => .lss (Reg.ofBits r) m).trans (by simp)
  | lfs r m => exact (withMem_encode hwf r.toBits rest fun r m => .lfs (Reg.ofBits r) m).trans (by simp)
  | lgs r m => exact (withMem_encode hwf r.toBits rest fun r m => .lgs (Reg.ofBits r) m).trans (by simp)
  | callPtr off sel => exact takePtr_encode hwf sel rest .callPtr
  | jmpPtr off sel => exact takePtr_encode hwf sel rest .jmpPtr
  | callMem m =>
    obtain ⟨b, tl, henc, hreg, hdec⟩ := memOnly_encode_decodes hwf 3#3
    simp [encode, henc, decode, decodeFF, hreg, hdec, Except.map]
  | jmpMem m =>
    obtain ⟨b, tl, henc, hreg, hdec⟩ := memOnly_encode_decodes hwf 5#3
    simp [encode, henc, decode, decodeFF, hreg, hdec, Except.map]
  | retFarImm v => exact congrArg (Except.map fun x => (Instr.retFarImm x.1, x.2)) (take16_put16 v rest)
  | sgdt m =>
    obtain ⟨b, tl, henc, hreg, hdec⟩ := memOnly_encode_decodes hwf 0#3
    simp [encode, henc, decode, decode0F, decode0F01, hreg, hdec, Except.map]
  | sidt m =>
    obtain ⟨b, tl, henc, hreg, hdec⟩ := memOnly_encode_decodes hwf 1#3
    simp [encode, henc, decode, decode0F, decode0F01, hreg, hdec, Except.map]
  | lgdt m =>
    obtain ⟨b, tl, henc, hreg, hdec⟩ := memOnly_encode_decodes hwf 2#3
    simp [encode, henc, decode, decode0F, decode0F01, hreg, hdec, Except.map]
  | sldt rm =>
    obtain ⟨b, tl, henc, hreg, hdec⟩ := rm_encode_decodes hwf 0#3
    simp [encode, henc, decode, decode0F, decode0F00, hreg, hdec, Except.map]
  | str rm =>
    obtain ⟨b, tl, henc, hreg, hdec⟩ := rm_encode_decodes hwf 1#3
    simp [encode, henc, decode, decode0F, decode0F00, hreg, hdec, Except.map]
  | lldt rm =>
    obtain ⟨b, tl, henc, hreg, hdec⟩ := rm_encode_decodes hwf 2#3
    simp [encode, henc, decode, decode0F, decode0F00, hreg, hdec, Except.map]
  | segOverrideByte sr => cases sr <;> rfl
  | popES | popSS | popDS | popFS | popGS | retFar | sysenter | sysexit | iret | intN _ | into | int3 | opSizeByte | addrSizeByte => rfl

end Decoding

end Sys2Proof

/-! ## Fetching: the bytes read, and what a step does with them, R77, R101, R213 -/

namespace Sys2Proof.Machine

open Sys2Proof.Laws

section Fetching
variable {s : State} {l bs : List Byte} {stop : Stop}

/-- Bytes that can be fetched one by one stand at the front of what is fetched. -/
theorem fetchBytes_append {i : Nat} (n : Nat) (h : ∀ k b, l[k]? = some b → fetchByte s (i + k) = .ok b) :
    fetchBytes s i (l.length + n) = (l ++ (fetchBytes s (i + l.length) n).1, (fetchBytes s (i + l.length) n).2) := by
  induction l generalizing i with
  | nil => simp
  | cons b l ih =>
    have hb : fetchByte s i = .ok b := h 0 b rfl
    have hl : ∀ k c, l[k]? = some c → fetchByte s (i + 1 + k) = .ok c := fun k c hc => by
      rw [Nat.add_assoc, Nat.add_comm 1 k]; exact h (k + 1) c hc
    rw [List.length_cons, Nat.add_right_comm, fetchBytes, hb]
    simp only [ih hl, List.cons_append, Nat.add_assoc, Nat.add_comm 1]

/-- The bytes that can be fetched begin with `l`. -/
theorem fetchWindow_append (hlen : l.length ≤ Config.maxInstrBytes) (h : ∀ k b, l[k]? = some b → fetchByte s k = .ok b) :
    ∃ rest stop, fetchWindow s = (l ++ rest, stop) := by
  have happ := fetchBytes_append (i := 0) (Config.maxInstrBytes - l.length) fun k b hk => by rw [Nat.zero_add]; exact h k b hk
  rw [Nat.add_sub_of_le hlen] at happ
  exact ⟨_, _, happ⟩

/-- The bytes that can be fetched are `l`, where the byte after it cannot be. -/
theorem fetchWindow_of_stop (hlen : l.length < Config.maxInstrBytes) (h : ∀ k b, l[k]? = some b → fetchByte s k = .ok b)
    (hstop : fetchByte s l.length = .error stop) : fetchWindow s = (l, stop) := by
  obtain ⟨n, hn⟩ := Nat.exists_eq_add_of_lt hlen
  have happ := fetchBytes_append (i := 0) (n + 1) fun k b hk => by rw [Nat.zero_add]; exact h k b hk
  rw [fetchWindow, hn, Nat.add_assoc, happ, Nat.zero_add, fetchBytes, hstop, List.append_nil]

theorem step_of_no_byte (h : fetchWindow s = ([], stop)) : step s = outcome (.error stop) := by
  rw [step, runInstr, h]

theorem step_of_bytes (h : fetchWindow s = (l, stop)) (hl : l ≠ []) (hdb : s.segs.cs.attr.db = true) :
    step s = runBytes exec stop (Config.maxInstrBytes + 1) l s.begin := by
  obtain ⟨b, bs, rfl⟩ := List.exists_cons_of_ne_nil hl
  rw [step, runInstr, h]
  exact if_pos hdb

theorem runBytes_of_decode {i : Instr} {rest : List Byte} (n : Nat) (h : decode s.op32 s.addr32 bs = .ok (i, rest))
    (hi : i.isPrefixByte = false) : runBytes exec stop (n + 1) bs s = exec i s := by
  simp [runBytes, h, hi]

theorem runBytes_of_truncated {k : Nat} (n : Nat) (h : decode s.op32 s.addr32 bs = .error (.truncated k)) :
    runBytes exec stop (n + 1) bs s = outcome (.error (fetchStop s (s.pfx.count + bs.length + k) stop)) := by
  simp [runBytes, h]

/-! The bytes of `isPrefixByte`, R102 to R104 -/

theorem decode_prefixByte {x : Instr} (hx : x.isPrefixByte = true) (op32 addr32 : Bool) (bs : List Byte) :
    decode op32 addr32 (encode x ++ bs) = .ok (x, bs) := by
  cases x with
  | opSizeByte | addrSizeByte => rfl
  | segOverrideByte sr => cases sr <;> rfl
  | _ => cases hx

/-- `s` with the bytes `xs` of `isPrefixByte` latched. -/
def State.withLatch (s : State) (xs : List Instr) : State := { s with pfx := latchOf xs }

/-- One more such byte, executed, latches as `latchOf` says. -/
theorem exec_prefixByte_withLatch {x : Instr} (hx : x.isPrefixByte = true) (s : State) (xs : List Instr) :
    exec x (s.withLatch xs) = .next (s.withLatch (xs ++ [x])) := by
  cases x with
  | opSizeByte => simp [exec, execOpSizeByte, outcome, State.withLatch, latchOf, overrideOf]
  | addrSizeByte => simp [exec, execAddrSizeByte, outcome, State.withLatch, latchOf, overrideOf]
  | segOverrideByte sr => simp [exec, execSegOverrideByte, outcome, State.withLatch, latchOf, overrideOf]
  | _ => cases hx

theorem runBytes_of_prefixByte {t : State} {x : Instr} (n : Nat) (hx : x.isPrefixByte = true) (hexec : exec x s = .next t)
    (bs : List Byte) : runBytes exec stop (n + 1) (encode x ++ bs) s = runBytes exec stop n bs t := by
  simp [runBytes, decode_prefixByte hx, hx, hexec]

/-- All such bytes in front of `bs` are latched, and `bs` is run. -/
theorem runBytes_prefixBytes (n : Nat) (xs : List Instr) (hxs : ∀ x ∈ xs, x.isPrefixByte = true) (bs : List Byte) :
    runBytes exec stop (n + xs.length) (xs.flatMap encode ++ bs) s.begin = runBytes exec stop n bs (s.withLatch xs) := by
  induction xs using List.reverseRecOn generalizing n bs with
  | nil => rfl
  | append_singleton xs x ih =>
    have hx : x.isPrefixByte = true := hxs x (by simp)
    have hbytes : (xs ++ [x]).flatMap encode ++ bs = xs.flatMap encode ++ (encode x ++ bs) := by simp
    have hcount : n + (xs ++ [x]).length = n + 1 + xs.length := by rw [List.length_append, List.length_singleton]; omega
    rw [hbytes, hcount, ih (n + 1) (fun y hy => hxs y (by simp [hy])),
      runBytes_of_prefixByte n hx (exec_prefixByte_withLatch hx s xs)]

theorem flatMap_encode_length (xs : List Instr) (hxs : ∀ x ∈ xs, x.isPrefixByte = true) : (xs.flatMap encode).length = xs.length := by
  induction xs with
  | nil => rfl
  | cons x xs ih =>
    obtain ⟨hx, hxs⟩ := List.forall_mem_cons.mp hxs
    have hone : (encode x).length = 1 := by
      cases x with
      | opSizeByte | addrSizeByte | segOverrideByte _ => rfl
      | _ => cases hx
    rw [List.flatMap_cons, List.length_append, hone, ih hxs, List.length_cons, Nat.add_comm]

/-- The sizes the latched bytes select in a 32-bit code segment, R102, R103. -/
theorem withLatch_op32 (hdb : s.segs.cs.attr.db = true) (xs : List Instr) :
    (s.withLatch xs).op32 = !decide (.opSizeByte ∈ xs) := by
  simp [State.op32, State.withLatch, latchOf, hdb]

theorem withLatch_addr32 (hdb : s.segs.cs.attr.db = true) (xs : List Instr) :
    (s.withLatch xs).addr32 = !decide (.addrSizeByte ∈ xs) := by
  simp [State.addr32, State.withLatch, latchOf, hdb]

theorem mem_size_le (m : Mem) : m.size ≤ 6 := by cases m <;> simp [Mem.size]

theorem rm_size_le (rm : RM) : rm.size ≤ 6 := by
  cases rm with
  | reg r => exact Nat.one_le_ofNat
  | mem m => exact mem_size_le m

theorem ptrOff_size_le (off : PtrOff) : off.size ≤ 4 := by cases off <;> simp [PtrOff.size]

/-- One instruction is within the 15 bytes of R101: alone it has at most eight. -/
theorem encode_length_le (i : Instr) : (encode i).length ≤ Config.maxInstrBytes := by
  have hmem := mem_size_le
  have hrm := rm_size_le
  have hoff := ptrOff_size_le
  rw [encode_length, Config.maxInstrBytes]
  cases i with
  | movToSreg _ rm | movFromSreg rm _ | sldt rm | str rm | lldt rm => have := hrm rm; simp only [instrSize]; omega
  | lds _ m | les _ m | lss _ m | lfs _ m | lgs _ m | callMem m | jmpMem m | sgdt m | sidt m | lgdt m =>
    have := hmem m; simp only [instrSize]; omega
  | callPtr off _ | jmpPtr off _ => have := hoff off; simp only [instrSize]; omega
  | _ => simp [instrSize]

theorem encode_ne_nil (i : Instr) : encode i ≠ [] := by
  cases i <;> simp [encode]

end Fetching

/-! The limit of the code segment, R73, R77 -/

section CodeLimit
variable {s : State} {xs : List Instr} {bs : List Byte}

/-- CS holds a non-null selector of a code segment. -/
structure CodeSegPresent (s : State) : Prop where
  notNull : isNull s.segs.cs.sel = false
  code : s.segs.cs.attr.type.getLsbD 3 = true

/-- The scaled limit of CS. -/
abbrev codeLimit (s : State) : Nat := (effLimit s.segs.cs.limit s.segs.cs.attr.g).toNat

theorem segAccess_code (h : CodeSegPresent s) (off : Word) (n : Nat) :
    segAccess s .cs off n .execute =
      if codeLimit s < off.toNat + n - 1 then raise s .gp .zero else .ok (s.segs.cs.base + off) := by
  rw [segAccess_eq_of_allowed (sr := .cs) h.notNull (fun _ => rfl) rfl]
  simp only [offsetsValid_expandUp (r := s.seg .cs) (.inl h.code), ← not_lt, ite_not]
  rfl

theorem fetchByte_beyond (h : CodeSegPresent s) {i : Nat} (hi : codeLimit s < s.pc.toNat + i) : fetchByte s i = raise s .gp .zero := by
  rw [fetchByte, segAccess_code h, if_pos (by omega)]
  rfl

/-- R77, D25: the limit violation of a byte known to be needed precedes the fault of an earlier byte. -/
theorem fetchStop_code (h : CodeSegPresent s) (n : Nat) (stop : Stop) :
    fetchStop s n stop =
      if codeLimit s < s.pc.toNat + min n Config.maxInstrBytes - 1 then .fault (exceptionAt s .gp .zero) else stop := by
  rw [fetchStop, segAccess_code h]
  split_ifs <;> rfl

/-- The check does not depend on what is latched. -/
theorem fetchStop_withLatch (s : State) (xs : List Instr) (n : Nat) (stop : Stop) :
    fetchStop (s.withLatch xs) n stop = fetchStop s n stop := rfl

/-- A step over bytes that are no complete instruction. -/
theorem step_of_incomplete {k : Nat} {e : Fault} (h : CodeSegPresent s) (hdb : s.segs.cs.attr.db = true)
    (hxs : ∀ x ∈ xs, x.isPrefixByte = true) (hlen : (xs.flatMap encode ++ bs).length < Config.maxInstrBytes)
    (hbytes : ∀ (j : Nat) (b : Byte), (xs.flatMap encode ++ bs)[j]? = some b → fetchByte s j = .ok b)
    (hstop : fetchByte s (xs.flatMap encode ++ bs).length = .error (.fault e))
    (hdec : decode (!decide (.opSizeByte ∈ xs)) (!decide (.addrSizeByte ∈ xs)) bs = .error (.truncated k)) :
    step s = .fault (if codeLimit s < s.pc.toNat + min ((xs.flatMap encode ++ bs).length + k) Config.maxInstrBytes - 1
      then exceptionAt s .gp .zero else e) := by
  have hwindow := fetchWindow_of_stop hlen hbytes hstop
  by_cases hnil : xs.flatMap encode ++ bs = []
  · obtain ⟨hxs0, rfl⟩ := List.append_eq_nil_iff.mp hnil
    have hk : k = 1 := by
      have : decode (!decide (.opSizeByte ∈ xs)) (!decide (.addrSizeByte ∈ xs)) [] = .error (.truncated 1) := rfl
      simpa [this] using hdec.symm
    rw [hnil] at hwindow hstop ⊢
    rw [step_of_no_byte hwindow, hk]
    split_ifs with hlimit
    · have hgp := fetchByte_beyond h (i := 0) (by simpa [Config.maxInstrBytes] using hlimit)
      rw [List.length_nil, hgp] at hstop
      cases hstop; rfl
    · rfl
  · have hcount : (xs.flatMap encode ++ bs).length = xs.length + bs.length := by
      rw [List.length_append, flatMap_encode_length xs hxs]
    obtain ⟨n, hn⟩ : ∃ n, Config.maxInstrBytes + 1 = n + 1 + xs.length := ⟨Config.maxInstrBytes - xs.length, by omega⟩
    rw [← withLatch_op32 hdb, ← withLatch_addr32 hdb] at hdec
    rw [step_of_bytes hwindow hnil hdb, hn, runBytes_prefixBytes (n + 1) xs hxs, runBytes_of_truncated n hdec,
      show (s.withLatch xs).pfx.count = xs.length from rfl, fetchStop_withLatch, fetchStop_code h, hcount]
    split_ifs <;> rfl

end CodeLimit

end Sys2Proof.Machine

namespace Sys2Proof.Proofs

open Sys2Proof Sys2Proof.Machine

/-- Settles O7: the fetched bytes begin with the encoding, which decodes to the instruction. -/
theorem stepRunsTheEncodedInstruction : Obligations.StepRunsTheEncodedInstruction := by
  intro s i hwf hi hdb hbytes
  obtain ⟨rest, stop, hwindow⟩ := fetchWindow_append (encode_length_le i) hbytes
  have hop : s.begin.op32 = true := by simp [State.op32, hdb, PfxLatch.empty]
  have haddr : s.begin.addr32 = true := by simp [State.addr32, hdb, PfxLatch.empty]
  have hdec : decode s.begin.op32 s.begin.addr32 (encode i ++ rest) = .ok (i, rest) := by
    rw [hop, haddr]; exact decode_encode hwf rest
  rw [step_of_bytes hwindow (by simp [encode_ne_nil]) hdb, runBytes_of_decode _ hdec hi]

/-- Settles O8: a fetch beyond the limit takes #GP(0), and `step_of_incomplete` gives the two cases within an instruction. -/
theorem fetchBeyondTheLimitTakesGP : Obligations.FetchBeyondTheLimitTakesGP := by
  intro s hnull hcode
  have hcs : CodeSegPresent s := ⟨hnull, hcode⟩
  refine ⟨fun hbeyond => ?first, fun xs bs k hdb hxs hend hlen hbytes hdec => ?across,
    fun xs bs k e hdb hxs hlen hbytes hstop hdec => ?fault⟩
  case first =>
    have hstop : fetchByte s 0 = raise s .gp .zero := fetchByte_beyond hcs hbeyond
    exact step_of_no_byte (fetchWindow_of_stop (l := []) (by decide) (by simp) hstop)
  case across =>
    have hstop : fetchByte s (xs.flatMap encode ++ bs).length = raise s .gp .zero :=
      fetchByte_beyond hcs (by unfold codeLimit; omega)
    rw [step_of_incomplete hcs hdb hxs hlen hbytes hstop hdec, ite_self]
  case fault => exact step_of_incomplete hcs hdb hxs hlen hbytes hstop hdec

end Sys2Proof.Proofs

/-! ## The converse: what the decoder accepts is an encoding, R101 to R109 -/

namespace Sys2Proof

section DecodedBytes
variable {addr32 : Bool} {b : Byte} {bs rest : List Byte}

/-- A decoder that puts what it read into `k` has read it. -/
theorem decoded_of_map {α β : Type} {p : Decoded α} {k : α → β} {x : β}
    (h : (p.map fun (v, bs) => (k v, bs)) = .ok (x, rest)) : ∃ v, p = .ok (v, rest) ∧ k v = x := by
  cases p with
  | error e => cases h
  | ok r => cases h; exact ⟨r.1, rfl, rfl⟩

/-- The byte a row of the opcode table names. -/
theorem byte_eq_of_toNat {n : Nat} (h : b.toNat = n) : b = BitVec.ofNat 8 n := by
  rw [← h, BitVec.ofNat_toNat, BitVec.setWidth_eq]

/-! Little-endian fields -/

theorem put16_append (hi lo : Byte) : put16 (hi ++ lo) = [lo, hi] := by
  rw [put16, BitVec.extractLsb'_append_eq_right, BitVec.extractLsb'_append_eq_left]

theorem put32_append (b3 b2 b1 b0 : Byte) : put32 (b3 ++ b2 ++ b1 ++ b0) = [b0, b1, b2, b3] := by
  have h0 : (b3 ++ b2 ++ b1 ++ b0).extractLsb' 0 8 = b0 := BitVec.extractLsb'_append_eq_right
  have h1 : (b3 ++ b2 ++ b1 ++ b0).extractLsb' 8 8 = b1 :=
    (BitVec.extractLsb'_append_eq_of_le (by decide)).trans BitVec.extractLsb'_append_eq_right
  have h23 (i : Nat) : (b3 ++ b2 ++ b1 ++ b0).extractLsb' (i + 16) 8 = (b3 ++ b2).extractLsb' i 8 :=
    (BitVec.extractLsb'_append_eq_of_le (Nat.le_add_left 8 (i + 8))).trans (BitVec.extractLsb'_append_eq_of_le (Nat.le_add_left 8 i))
  have h2 := (h23 0).trans BitVec.extractLsb'_append_eq_right
  have h3 := (h23 8).trans BitVec.extractLsb'_append_eq_left
  rw [put32, h0, h1, h2, h3]

theorem take8_sound {v : Byte} (h : take8 bs = .ok (v, rest)) : bs = v :: rest := by
  match bs with
  | [] => cases h
  | _ :: _ => cases h; rfl

theorem take16_sound {v : BitVec 16} (h : take16 bs = .ok (v, rest)) : bs = put16 v ++ rest := by
  match bs with
  | [] | [_] => cases h
  | _ :: _ :: _ => cases h; rw [put16_append]; rfl

theorem take32_sound {v : Word} (h : take32 bs = .ok (v, rest)) : bs = put32 v ++ rest := by
  match bs with
  | [] | [_] | [_, _] | [_, _, _] => cases h
  | _ :: _ :: _ :: _ :: _ => cases h; rw [put32_append]; rfl

/-! Operands, R106 -/

theorem packByte_of_fields {m : BitVec 2} {r : Reg} (hm : modOf b = m) (hr : Reg.ofBits (rmOf b) = r) :
    packByte m (regOf b) r.toBits = b := by
  rw [← hm, ← hr, Reg.toBits_ofBits, packByte_fields]

theorem mod_eq_two {m : BitVec 2} (h3 : m ≠ 3) (h0 : m ≠ 0) (h1 : m ≠ 1) : m = 2 := by
  revert m; decide

theorem decodeSib_sound {m : BitVec 2} {mem : Mem} (hm : m ≠ 3) (reg : BitVec 3) (h : decodeSib m bs = .ok (mem, rest)) :
    packByte m reg 4 :: bs = mem.encode reg ++ rest ∧ mem.wf = true := by
  match bs with
  | [] => cases h
  | s :: bs =>
    have hsib : packByte (modOf s) (Reg.ofBits (regOf s)).toBits (Reg.ofBits (rmOf s)).toBits = s := by simp
    simp only [decodeSib, take8_cons] at h
    split_ifs at h with h0 hbase h1
    · obtain ⟨d, hd, rfl⟩ := decoded_of_map h
      rw [hbase] at hsib
      rw [take32_sound hd, h0]
      exact ⟨by simp only [Mem.encode]; rw [show (5 : BitVec 3) = Reg.ebp.toBits from rfl, hsib]; rfl, rfl⟩
    · cases h
      rw [h0]
      exact ⟨by simp only [Mem.encode, hsib]; rfl, bne_iff_ne.mpr hbase⟩
    · obtain ⟨d, hd, rfl⟩ := decoded_of_map h
      rw [take8_sound hd, h1]
      exact ⟨by simp only [Mem.encode, hsib]; rfl, rfl⟩
    · obtain ⟨d, hd, rfl⟩ := decoded_of_map h
      rw [take32_sound hd, mod_eq_two hm h0 h1]
      exact ⟨by simp only [Mem.encode, hsib]; rfl, rfl⟩

theorem decodeRM_sound {rm : RM} (h : decodeRM addr32 b bs = .ok (rm, rest)) :
    b :: bs = rm.encode (regOf b) ++ rest ∧ rm.wf = true := by
  unfold decodeRM at h
  dsimp only at h
  split_ifs at h with h3 haddr hsp h0 hbp h1
  · cases h
    exact ⟨by rw [RM.encode, packByte_of_fields h3 rfl]; rfl, rfl⟩
  · obtain ⟨m, hm, rfl⟩ := decoded_of_map h
    have hb : packByte (modOf b) (regOf b) 4 = b := packByte_of_fields rfl hsp
    have hsib := decodeSib_sound h3 (regOf b) hm
    rw [hb] at hsib
    exact hsib
  · obtain ⟨d, hd, rfl⟩ := decoded_of_map (k := fun d => RM.mem (.abs d)) h
    have hb : packByte 0 (regOf b) 5 = b := packByte_of_fields h0 hbp
    exact ⟨by rw [RM.encode, Mem.encode, hb, take32_sound hd]; rfl, rfl⟩
  · cases h
    exact ⟨by rw [RM.encode, Mem.encode, packByte_of_fields h0 rfl]; rfl, by simp [RM.wf, Mem.wf, hsp, hbp]⟩
  · obtain ⟨d, hd, rfl⟩ := decoded_of_map (k := fun d => RM.mem (.base8 _ d)) h
    exact ⟨by rw [RM.encode, Mem.encode, packByte_of_fields h1 rfl, take8_sound hd]; rfl, bne_iff_ne.mpr hsp⟩
  · obtain ⟨d, hd, rfl⟩ := decoded_of_map (k := fun d => RM.mem (.base32 _ d)) h
    exact ⟨by rw [RM.encode, Mem.encode, packByte_of_fields (mod_eq_two h3 h0 h1) rfl, take32_sound hd]; rfl, bne_iff_ne.mpr hsp⟩

theorem decodeMem_sound {m : Mem} (h : decodeMem addr32 b bs = .ok (m, rest)) :
    b :: bs = m.encode (regOf b) ++ rest ∧ m.wf = true := by
  unfold decodeMem at h
  split_ifs at h with h3
  cases hrm : decodeRM addr32 b bs with
  | error e => simp [hrm] at h
  | ok r =>
    obtain ⟨_ | m', bs'⟩ := r
    · simp [hrm] at h
    · simp only [hrm, Except.ok.injEq, Prod.mk.injEq] at h
      obtain ⟨rfl, rfl⟩ := h
      exact decodeRM_sound (rm := .mem _) hrm

/-! Rows with operands, R107 to R109 -/

theorem withRM_sound {k : BitVec 3 → RM → Except DecodeError Instr} {i : Instr} (h : withRM addr32 bs k = .ok (i, rest)) :
    ∃ reg rm, k reg rm = .ok i ∧ bs = rm.encode reg ++ rest ∧ rm.wf = true := by
  match bs with
  | [] => cases h
  | b :: bs =>
    simp only [withRM, take8_cons] at h
    cases hrm : decodeRM addr32 b bs with
    | error e => simp [hrm] at h
    | ok r =>
      simp only [hrm] at h
      cases hk : k (regOf b) r.1 with
      | error e => simp [hk, Except.map] at h
      | ok j =>
        rw [hk] at h
        cases h
        exact ⟨_, _, hk, decodeRM_sound hrm⟩

theorem withMem_sound {k : BitVec 3 → Mem → Instr} {i : Instr} (h : withMem addr32 bs k = .ok (i, rest)) :
    ∃ reg m, k reg m = i ∧ bs = m.encode reg ++ rest ∧ m.wf = true := by
  match bs with
  | [] => cases h
  | b :: bs =>
    obtain ⟨m, hm, hk⟩ := decoded_of_map (k := k (regOf b)) h
    exact ⟨_, m, hk, decodeMem_sound hm⟩

theorem movToSregOf_sound {reg : BitVec 3} {rm : RM} {i : Instr} (h : movToSregOf reg rm = .ok i) :
    ∃ sr, i = .movToSreg sr rm ∧ sr.toBits = reg ∧ sr ≠ .cs := by
  unfold movToSregOf at h
  split at h
  next => cases h
  next sr hsr =>
    split_ifs at h with hcs
    cases h
    exact ⟨sr, rfl, SReg.toBits_of_ofBits hsr, hcs⟩

theorem movFromSregOf_sound {reg : BitVec 3} {rm : RM} {i : Instr} (h : movFromSregOf reg rm = .ok i) :
    ∃ sr, i = .movFromSreg rm sr ∧ sr.toBits = reg := by
  unfold movFromSregOf at h
  split at h
  next => cases h
  next sr hsr =>
    cases h
    exact ⟨sr, rfl, SReg.toBits_of_ofBits hsr⟩

theorem takeOff_sound {op32 : Bool} {off : PtrOff} (h : takeOff op32 bs = .ok (off, rest)) :
    bs = off.encode ++ rest ∧ off.wf op32 = true := by
  unfold takeOff at h
  split_ifs at h with hop
  · obtain ⟨v, hv, rfl⟩ := decoded_of_map h
    exact ⟨take32_sound hv, hop⟩
  · obtain ⟨v, hv, rfl⟩ := decoded_of_map h
    exact ⟨take16_sound hv, by simp [PtrOff.wf, hop]⟩

theorem takePtr_sound {op32 : Bool} {k : PtrOff → Sel → Instr} {i : Instr} (h : takePtr op32 bs k = .ok (i, rest)) :
    ∃ off sel, k off sel = i ∧ bs = off.encode ++ put16 sel ++ rest ∧ off.wf op32 = true := by
  unfold takePtr at h
  cases hoff : takeOff op32 bs with
  | error e => simp [hoff] at h
  | ok r =>
    simp only [hoff] at h
    obtain ⟨sel, hsel, hk⟩ := decoded_of_map h
    obtain ⟨rfl, hwf⟩ := takeOff_sound hoff
    exact ⟨_, sel, hk, by rw [take16_sound hsel, List.append_assoc], hwf⟩

/-! Rows told apart by ModRM.reg or by a second opcode byte, R108 -/

variable {op32 : Bool} {i : Instr}

theorem decodeMem_row_sound {k : Mem → Instr} {reg : BitVec 3} (hreg : regOf b = reg)
    (h : ((decodeMem addr32 b bs).map fun (m, bs) => (k m, bs)) = .ok (i, rest)) :
    ∃ m, k m = i ∧ b :: bs = m.encode reg ++ rest ∧ m.wf = true := by
  obtain ⟨m, hm, hk⟩ := decoded_of_map h
  exact ⟨m, hk, hreg ▸ decodeMem_sound hm⟩

theorem decodeRM_row_sound {k : RM → Instr} {reg : BitVec 3} (hreg : regOf b = reg)
    (h : ((decodeRM addr32 b bs).map fun (rm, bs) => (k rm, bs)) = .ok (i, rest)) :
    ∃ rm, k rm = i ∧ b :: bs = rm.encode reg ++ rest ∧ rm.wf = true := by
  obtain ⟨rm, hrm, hk⟩ := decoded_of_map h
  exact ⟨rm, hk, hreg ▸ decodeRM_sound hrm⟩

theorem decodeFF_sound (h : decodeFF addr32 bs = .ok (i, rest)) : 0xFF :: bs = encode i ++ rest ∧ i.wf op32 = true := by
  match bs with
  | [] => cases h
  | b :: bs =>
    simp only [decodeFF, take8_cons] at h
    split_ifs at h with hreg hreg
    · obtain ⟨m, rfl, hbytes, hwf⟩ := decodeMem_row_sound hreg h
      exact ⟨congrArg (0xFF :: ·) hbytes, hwf⟩
    · obtain ⟨m, rfl, hbytes, hwf⟩ := decodeMem_row_sound hreg h
      exact ⟨congrArg (0xFF :: ·) hbytes, hwf⟩

theorem decode0F00_sound (h : decode0F00 addr32 bs = .ok (i, rest)) :
    0x0F :: 0x00 :: bs = encode i ++ rest ∧ i.wf op32 = true := by
  match bs with
  | [] => cases h
  | b :: bs =>
    simp only [decode0F00, take8_cons] at h
    split_ifs at h with hreg hreg hreg
    · obtain ⟨rm, rfl, hbytes, hwf⟩ := decodeRM_row_sound hreg h
      exact ⟨congrArg (0x0F :: 0x00 :: ·) hbytes, hwf⟩
    · obtain ⟨rm, rfl, hbytes, hwf⟩ := decodeRM_row_sound hreg h
      exact ⟨congrArg (0x0F :: 0x00 :: ·) hbytes, hwf⟩
    · obtain ⟨rm, rfl, hbytes, hwf⟩ := decodeRM_row_sound hreg h
      exact ⟨congrArg (0x0F :: 0x00 :: ·) hbytes, hwf⟩

theorem decode0F01_sound (h : decode0F01 addr32 bs = .ok (i, rest)) :
    0x0F :: 0x01 :: bs = encode i ++ rest ∧ i.wf op32 = true := by
  match bs with
  | [] => cases h
  | b :: bs =>
    simp only [decode0F01, take8_cons] at h
    split_ifs at h with hreg hreg hreg
    · obtain ⟨m, rfl, hbytes, hwf⟩ := decodeMem_row_sound hreg h
      exact ⟨congrArg (0x0F :: 0x01 :: ·) hbytes, hwf⟩
    · obtain ⟨m, rfl, hbytes, hwf⟩ := decodeMem_row_sound hreg h
      exact ⟨congrArg (0x0F :: 0x01 :: ·) hbytes, hwf⟩
    · obtain ⟨m, rfl, hbytes, hwf⟩ := decodeMem_row_sound hreg h
      exact ⟨congrArg (0x0F :: 0x01 :: ·) hbytes, hwf⟩

/-- A far-pointer load: ModRM.reg is the number of the general register. -/
theorem farLoad_sound {k : Reg → Mem → Instr} (h : withMem addr32 bs (fun r m => k (Reg.ofBits r) m) = .ok (i, rest)) :
    ∃ r m, k r m = i ∧ bs = m.encode r.toBits ++ rest ∧ m.wf = true := by
  obtain ⟨reg, m, hk, hbytes, hwf⟩ := withMem_sound h
  exact ⟨_, m, hk, by rw [Reg.toBits_ofBits, hbytes], hwf⟩

theorem decode0F_sound (h : decode0F addr32 bs = .ok (i, rest)) : 0x0F :: bs = encode i ++ rest ∧ i.wf op32 = true := by
  match bs with
  | [] => cases h
  | b :: bs =>
    simp only [decode0F, take8_cons] at h
    split at h
    case h_1 hb => rw [byte_eq_of_toNat hb]; exact decode0F00_sound h
    case h_2 hb => rw [byte_eq_of_toNat hb]; exact decode0F01_sound h
    case h_3 hb | h_4 hb | h_5 hb | h_6 hb =>
      cases h
      exact ⟨by rw [byte_eq_of_toNat hb]; rfl, rfl⟩
    case h_7 hb | h_8 hb | h_9 hb =>
      obtain ⟨r, m, rfl, rfl, hwf⟩ := farLoad_sound h
      exact ⟨by rw [byte_eq_of_toNat hb]; rfl, hwf⟩
    case h_10 => cases h

/-- Whatever the decoder accepts is the encoding of a well-formed instruction, row by row of the opcode table. -/
theorem decode_sound (h : decode op32 addr32 bs = .ok (i, rest)) : bs = encode i ++ rest ∧ i.wf op32 = true := by
  match bs with
  | [] => cases h
  | b :: bs =>
    simp only [decode, take8_cons] at h
    split at h
    -- the opcodes without operands, and the bytes of `isPrefixByte`
    case h_1 hb | h_3 hb | h_4 hb | h_5 hb | h_6 hb | h_7 hb | h_8 hb | h_9 hb | h_10 hb | h_11 hb | h_12 hb | h_19 hb | h_20 hb |
        h_22 hb | h_23 hb =>
      cases h
      exact ⟨by rw [byte_eq_of_toNat hb]; rfl, rfl⟩
    -- the escape 0F
    case h_2 hb => rw [byte_eq_of_toNat hb]; exact decode0F_sound h
    -- 8C
    case h_13 hb =>
      obtain ⟨reg, rm, hk, rfl, hwf⟩ := withRM_sound h
      obtain ⟨sr, rfl, rfl⟩ := movFromSregOf_sound hk
      exact ⟨by rw [byte_eq_of_toNat hb]; rfl, hwf⟩
    -- 8E
    case h_14 hb =>
      obtain ⟨reg, rm, hk, rfl, hwf⟩ := withRM_sound h
      obtain ⟨sr, rfl, rfl, hcs⟩ := movToSregOf_sound hk
      exact ⟨by rw [byte_eq_of_toNat hb]; rfl, Bool.and_eq_true_iff.mpr ⟨bne_iff_ne.mpr hcs, hwf⟩⟩
    -- 9A and EA: an in-line far pointer
    case h_15 hb | h_24 hb =>
      obtain ⟨off, sel, rfl, rfl, hwf⟩ := takePtr_sound h
      exact ⟨by rw [byte_eq_of_toNat hb]; rfl, hwf⟩
    -- C4 and C5: a far pointer in memory
    case h_16 hb | h_17 hb =>
      obtain ⟨r, m, rfl, rfl, hwf⟩ := farLoad_sound h
      exact ⟨by rw [byte_eq_of_toNat hb]; rfl, hwf⟩
    -- CA: a word
    case h_18 hb =>
      obtain ⟨v, hv, rfl⟩ := decoded_of_map h
      exact ⟨by rw [byte_eq_of_toNat hb, take16_sound hv]; rfl, rfl⟩
    -- CD: a byte
    case h_21 hb =>
      obtain ⟨v, hv, rfl⟩ := decoded_of_map h
      exact ⟨by rw [byte_eq_of_toNat hb, take8_sound hv]; rfl, rfl⟩
    -- the group FF
    case h_25 hb => rw [byte_eq_of_toNat hb]; exact decodeFF_sound h
    case h_26 => cases h

end DecodedBytes

/-! ## Memory operands with AddrSize 16, R103 -/

section SixteenBitAddresses
variable {m : Mem} {reg : BitVec 3} {rest : List Byte}

/-- Any memory operand, well-formed or not, begins with a ModRM byte of mod 00, 01 or 10 that carries `reg`. -/
theorem mem_encode_modRM (m : Mem) (reg : BitVec 3) : ∃ b tl, m.encode reg = b :: tl ∧ regOf b = reg ∧ modOf b ≠ 3#2 := by
  cases m <;> exact ⟨_, _, rfl, by simp, by simp⟩

/-- The bytes that begin with such an operand: their ModRM byte, which no decoder of operands passes. -/
theorem mem_encode_refused16 (m : Mem) (reg : BitVec 3) (rest : List Byte) :
    ∃ b tl, m.encode reg ++ rest = b :: tl ∧ regOf b = reg ∧
      decodeRM false b tl = .error .addressSize16 ∧ decodeMem false b tl = .error .addressSize16 := by
  obtain ⟨b, tl, henc, hreg, hmod⟩ := mem_encode_modRM m reg
  have hrm : decodeRM false b (tl ++ rest) = .error .addressSize16 := by simp [decodeRM, hmod]
  exact ⟨b, tl ++ rest, by rw [henc]; rfl, hreg, hrm, by simp [decodeMem, hmod, hrm]⟩

theorem withRM_refused16 (k : BitVec 3 → RM → Except DecodeError Instr) :
    withRM false (m.encode reg ++ rest) k = .error .addressSize16 := by
  obtain ⟨b, tl, henc, -, hrm, -⟩ := mem_encode_refused16 m reg rest
  simp [withRM, henc, hrm]

theorem withMem_refused16 (k : BitVec 3 → Mem → Instr) : withMem false (m.encode reg ++ rest) k = .error .addressSize16 := by
  obtain ⟨b, tl, henc, -, -, hmem⟩ := mem_encode_refused16 m reg rest
  simp [withMem, henc, hmem, Except.map]

theorem decodeFF_refused16 (hreg : reg = 3 ∨ reg = 5) : decodeFF false (m.encode reg ++ rest) = .error .addressSize16 := by
  obtain ⟨b, tl, henc, hb, -, hmem⟩ := mem_encode_refused16 m reg rest
  rw [decodeFF, henc]
  rcases hreg with h | h <;> simp [hb, h, hmem, Except.map]

theorem decode0F00_refused16 (hreg : reg = 0 ∨ reg = 1 ∨ reg = 2) :
    decode0F00 false (m.encode reg ++ rest) = .error .addressSize16 := by
  obtain ⟨b, tl, henc, hb, hrm, -⟩ := mem_encode_refused16 m reg rest
  rw [decode0F00, henc]
  rcases hreg with h | h | h <;> simp [hb, h, hrm, Except.map]

theorem decode0F01_refused16 (hreg : reg = 0 ∨ reg = 1 ∨ reg = 2) :
    decode0F01 false (m.encode reg ++ rest) = .error .addressSize16 := by
  obtain ⟨b, tl, henc, hb, -, hmem⟩ := mem_encode_refused16 m reg rest
  rw [decode0F01, henc]
  rcases hreg with h | h | h <;> simp [hb, h, hmem, Except.map]

end SixteenBitAddresses

end Sys2Proof

/-! ## A step over size and override bytes, and what they latch, R101 to R105 -/

namespace Sys2Proof.Machine

section PrefixedSteps
variable {s : State} {bs : List Byte} {stop : Stop}

theorem fetchBytes_length_le (s : State) (i n : Nat) : (fetchBytes s i n).1.length ≤ n := by
  induction n generalizing i with
  | zero => rfl
  | succ n ih =>
    unfold fetchBytes
    split
    · exact Nat.zero_le _
    · exact Nat.succ_le_succ (ih (i + 1))

/-- A step over the bytes `xs` of `isPrefixByte` and at least one byte more runs the bytes after them with `xs` latched. The fuel is enough,
because no more than 15 bytes are fetched, R101. -/
theorem step_of_prefixed {xs : List Instr} (hwindow : fetchWindow s = (xs.flatMap encode ++ bs, stop)) (hdb : s.segs.cs.attr.db = true)
    (hxs : ∀ x ∈ xs, x.isPrefixByte = true) (hbs : bs ≠ []) :
    ∃ n, step s = runBytes exec stop (n + 1) bs (s.withLatch xs) := by
  have hlen : (xs.flatMap encode ++ bs).length ≤ Config.maxInstrBytes := by
    have := fetchBytes_length_le s 0 Config.maxInstrBytes
    rwa [← fetchWindow, hwindow] at this
  rw [List.length_append, flatMap_encode_length xs hxs] at hlen
  obtain ⟨n, hn⟩ : ∃ n, Config.maxInstrBytes + 1 = n + 1 + xs.length := ⟨Config.maxInstrBytes - xs.length, by omega⟩
  exact ⟨n, by rw [step_of_bytes hwindow (by simp [hbs]) hdb, hn, runBytes_prefixBytes (n + 1) xs hxs]⟩

theorem runBytes_of_rejected {why : DecodeError} (n : Nat) (h : decode s.op32 s.addr32 bs = .error why)
    (hwhy : ∀ k, why ≠ .truncated k) : runBytes exec stop (n + 1) bs s = .refused (.undecodable why) := by
  cases why with
  | truncated k => exact absurd rfl (hwhy k)
  | _ => simp [runBytes, h]

/-- With D = 0 no byte that was fetched is decoded, R105. -/
theorem step_of_codeSegment16 {b : Byte} (hdb : s.segs.cs.attr.db = false) (hwindow : fetchWindow s = (b :: bs, stop)) :
    step s = .refused .codeSegment16 := by
  rw [step, runInstr, hwindow]
  exact if_neg (by simp [hdb])

/-- One byte more in the latch is one byte more of the instruction. -/
theorem nextPc_of_one_more {t : State} (hpc : t.pc = s.pc) (hcount : t.pfx.count = s.pfx.count + 1) (len : Nat) :
    t.nextPc len = s.nextPc (len + 1) := by
  rw [State.nextPc, State.nextPc, hpc, hcount, Nat.add_right_comm, Nat.add_assoc]

theorem readFarPtr_of_reads {m : Mem} {off sel : List Byte} (hoff : segRead s .operand (operandSeg s m) (effAddr s m) s.opBytes = .ok off)
    (hsel : segRead s .selector (operandSeg s m) (effAddr s m + BitVec.ofNat 32 s.opBytes) 2 = .ok sel) :
    readFarPtr s m = .ok ⟨le32 off, le16 sel⟩ := by
  rw [readFarPtr, hoff, ok_bind, hsel, ok_bind]

end PrefixedSteps

end Sys2Proof.Machine

namespace Sys2Proof.Proofs

open Sys2Proof Sys2Proof.Machine

/-- Settles O1, by the row of each instruction. -/
theorem decodeEncodeRoundTrip : Obligations.DecodeEncodeRoundTrip :=
  fun _ _ rest hwf => decode_encode hwf rest

/-- Settles O2, by the row of the opcode. -/
theorem decodedBytesAreTheEncoding : Obligations.DecodedBytesAreTheEncoding :=
  fun _ _ _ _ _ h => decode_sound h

/-- Settles O4: the ModRM byte of a memory operand is refused whatever the row. -/
theorem sixteenBitAddressesAreRefused : Obligations.SixteenBitAddressesAreRefused := by
  intro op32 m r sr rest i hi
  simp only [List.mem_cons, List.not_mem_nil, or_false] at hi
  rcases hi with rfl | rfl | rfl | rfl | rfl | rfl | rfl | rfl | rfl | rfl | rfl | rfl | rfl | rfl | rfl
  · exact withRM_refused16 movToSregOf
  · exact withRM_refused16 movFromSregOf
  · exact withMem_refused16 fun r m => .lds (Reg.ofBits r) m
  · exact withMem_refused16 fun r m => .les (Reg.ofBits r) m
  · exact withMem_refused16 fun r m => .lss (Reg.ofBits r) m
  · exact withMem_refused16 fun r m => .lfs (Reg.ofBits r) m
  · exact withMem_refused16 fun r m => .lgs (Reg.ofBits r) m
  · exact decodeFF_refused16 (.inl rfl)
  · exact decodeFF_refused16 (.inr rfl)
  · exact decode0F01_refused16 (.inl rfl)
  · exact decode0F01_refused16 (.inr (.inl rfl))
  · exact decode0F00_refused16 (.inl rfl)
  · exact decode0F00_refused16 (.inr (.inl rfl))
  · exact decode0F01_refused16 (.inr (.inr rfl))
  · exact decode0F00_refused16 (.inr (.inr rfl))

/-- Settles O6: the decoder accepts or rejects the bytes after `xs` with the sizes that `xs` latches. -/
theorem stepRunsAPrefixedInstruction : Obligations.StepRunsAPrefixedInstruction := by
  intro s xs bs stop hwindow hdb hxs
  rw [← withLatch_op32 hdb, ← withLatch_addr32 hdb]
  refine ⟨fun i rest hdec hi => ?accepted, fun why hdec hwhy => ?rejected⟩
  case accepted =>
    have hbs : bs ≠ [] := by rintro rfl; cases hdec
    obtain ⟨n, hstep⟩ := step_of_prefixed hwindow hdb hxs hbs
    rw [hstep, runBytes_of_decode n hdec hi]
    rfl
  case rejected =>
    have hbs : bs ≠ [] := by rintro rfl; cases hdec; exact hwhy 1 rfl
    obtain ⟨n, hstep⟩ := step_of_prefixed hwindow hdb hxs hbs
    rw [hstep, runBytes_of_rejected n hdec hwhy]

/-- Settles O3: each word is the encoding of its instruction, with nothing or the next instruction behind it. -/
theorem opcodeWordsDecode : Obligations.OpcodeWordsDecode :=
  ⟨decode_encode (i := .movToSreg .ds (.reg .eax)) rfl [], decode_encode (i := .movFromSreg (.reg .ebx) .ds) rfl [],
    decode_encode (i := .popFS) rfl [], decode_encode (i := .lss .esp (.base .eax)) rfl [],
    decode_encode (i := .jmpPtr (.off32 0x00100000) 0x0008) rfl [], decode_encode (i := .jmpMem (.sib 0 .esp .esp)) rfl [],
    decode_encode (i := .sgdt (.abs 0x00002002)) rfl [], decode_encode (i := .lldt (.reg .eax)) rfl [],
    decode_encode (i := .segOverrideByte .cs) rfl [0xC5, 0x33]⟩

/-- Settles O9: one byte that can be fetched is enough to see the D bit refuse it. -/
theorem sixteenBitCodeSegmentIsRefused : Obligations.SixteenBitCodeSegmentIsRefused := by
  intro s b hdb hbyte
  have hfetch : ∀ k c, [b][k]? = some c → fetchByte s k = .ok c := by
    intro k c hc
    cases k with
    | zero => cases hc; exact hbyte
    | succ k => cases hc
  obtain ⟨rest, stop, hwindow⟩ := fetchWindow_append (l := [b]) (by simp [Config.maxInstrBytes]) hfetch
  exact step_of_codeSegment16 hdb hwindow

/-- Settles O23: each row of R106's table is an equation of `effAddr` and one of `defSeg`. -/
theorem effectiveAddresses : Obligations.EffectiveAddresses := by
  intro s r x b sc d8 d32
  exact ⟨rfl, rfl, rfl, rfl, rfl, rfl, rfl, rfl, rfl, rfl, rfl, rfl, rfl, rfl, rfl, rfl⟩

/-- Settles O32: two reads through one segment register, the second OpSize/8 bytes on. -/
theorem farPointerLayout : Obligations.FarPointerLayout :=
  fun _ _ _ _ hoff hsel => readFarPtr_of_reads hoff hsel

/-- Settles O46: each of the three bytes writes its own field of the latch and the count. -/
theorem prefixBytesAreLatched : Obligations.PrefixBytesAreLatched := by
  intro s sr m
  exact ⟨⟨_, rfl, by simp [State.op32], rfl, nextPc_of_one_more rfl rfl, rfl⟩,
    ⟨_, rfl, by simp [State.addr32], rfl, nextPc_of_one_more rfl rfl, rfl⟩,
    ⟨_, rfl, rfl, rfl, rfl, nextPc_of_one_more rfl rfl, rfl⟩⟩

end Sys2Proof.Proofs

/-! ## Direct loads of segment registers that complete, R70, R72, R120 to R128 -/

namespace Sys2Proof.Machine

open Sys2Proof.Laws

section CompletedLoads
variable {s : State} {i : Instr} {sr : SReg} {sel : Sel} {a : Word} {d : BitVec 64} {ld : SegLoad}

/-- Where the accessed bit is set or its byte lies in RAM, its write is planned and sets the bit, R64, R72. -/
theorem accessedBitWrite_sets (h : AccessedBitCanBeSet s a d) :
    ∃ ws, accessedBitWrite s a d = .ok ws ∧ AccessedBitSet s s.mem (storeMem s.params s.mem ws) a d := by
  cases hacc : (descAttr d).accessed with
  | true =>
    refine ⟨[], accessedBitWrite_ok.mpr (.inl ⟨hacc, rfl⟩), fun _ => rfl, fun hclear => ?_⟩
    rw [hclear] at hacc; cases hacc
  | false =>
    obtain ⟨pa, hpa, hram⟩ := h.resolve_left (by simp [hacc])
    refine ⟨_, accessedBitWrite_ok.mpr (.inr ⟨hacc, pa, hpa, rfl, .inl hram⟩), fun hset => ?_, fun _ pa' hpa' => ?_⟩
    · rw [hset] at hacc; cases hacc
    · obtain rfl : pa = pa' := Except.ok.inj (hpa.symm.trans hpa')
      simp only [storeMem, if_pos hram]; rfl

/-- A load that passes every check and whose accessed bit can be set completes. -/
theorem exec_segLoadTo_of_segLoadable (hi : SegLoadTo s i sr sel) (hload : SegLoadable s sr sel a d) (hset : AccessedBitCanBeSet s a d) :
    ∃ t, exec i s = .next t ∧ t.seg sr = loadedReg sel d ∧ AccessedBitSet s s.mem t.mem a d ∧
      ((i, sr) ∈ popForms → t.reg .esp = espAfterPop s) ∧
      (∀ r m p, (i, sr) ∈ farLoadForms r m → readFarPtr s m = .ok p → t.reg r = regAfterFarLoad s r p.off) ∧
      t.pc = pcAfter s i := by
  obtain ⟨ws, hwrite, hmem⟩ := accessedBitWrite_sets hset
  have hld : loadSegReg s sr sel = .ok ⟨loadedReg sel d, ws⟩ := by rw [loadSegReg_of_segLoadable hload, hwrite]; rfl
  obtain ⟨t, hexec, hseg, htmem, hrest⟩ := exec_segLoadTo_of_load hi hld
  exact ⟨t, hexec, hseg, htmem ▸ hmem, hrest⟩

/-- The address to which the accessed bit of a selector's descriptor is written, or none where A is set. -/
theorem accessedBitWrite_keys {ws : List (Nat × Byte)} (hnull : isNull sel = false) (ha : descAddr s sel = .ok a)
    (hd : readDesc s a = .ok d) (h : accessedBitWrite s a d = .ok ws) : ws.map Prod.fst = accessedBitStored s sel := by
  rw [accessedBitStored, if_neg (by simp [hnull]), ha]
  simp only [hd]
  obtain ⟨hacc, rfl⟩ | ⟨hclear, pa, hpa, rfl, -⟩ := accessedBitWrite_ok.mp h
  · cases translate s (a + 5) .write with
    | error e => rfl
    | ok pa => exact (if_pos hacc).symm
  · rw [hpa]
    exact (if_neg (by simp [hclear])).symm

/-- The writes that `LoadSegReg` plans go to the accessed bit's byte, or nowhere. -/
theorem loadSegReg_keys (h : loadSegReg s sr sel = .ok ld) : ld.writes.map Prod.fst = accessedBitStored s sel := by
  obtain ⟨hnull, -, rfl⟩ | ⟨hnull, a, d, ws, ha, hd, -, -, -, hwrite, rfl⟩ := loadSegReg_ok.mp h
  · exact (if_pos hnull).symm
  · exact accessedBitWrite_keys hnull ha hd hwrite

end CompletedLoads

/-! ## Stores of a selector, R121, R162, R163 -/

section SelectorStores
variable {s t : State} {i : Instr} {v : Sel}

theorem exec_selStoreForm_next {dst : RM} (hi : (i, v) ∈ selStoreForms s dst) :
    exec i s = .next t ↔ ∃ u, storeRM16 s dst v = .ok u ∧ t = u.advance (instrSize i) := by
  simp [exec_selStoreForm hi, eq_comm (a := t)]

theorem exec_selStoreForm_reg {r : Reg} (hi : (i, v) ∈ selStoreForms s (.reg r)) :
    exec i s = .next ((s.setRegSel r v).advance (instrSize i)) :=
  (exec_selStoreForm_next hi).mpr ⟨_, rfl, rfl⟩

/-- A register holds the selector in its low half, and with OpSize 16 its old upper half. -/
theorem setRegSel_halves (s : State) (r : Reg) (v : Sel) :
    ((s.setRegSel r v).reg r).extractLsb' 0 16 = v ∧
      (s.op32 = false → ((s.setRegSel r v).reg r).extractLsb' 16 16 = (s.reg r).extractLsb' 16 16) := by
  rw [State.reg, (setRegSel_fields s r v).1, Gprs.get_set_self]
  refine ⟨BitVec.extractLsb'_append_eq_right, fun h16 => ?_⟩
  rw [h16, if_neg Bool.false_ne_true]
  exact BitVec.extractLsb'_append_eq_left

/-- The memory form is made at its two addresses, or hangs on a descriptor in ROM, R206. -/
theorem exec_selStoreForm_mem {m : Mem} {lo hi : Nat} (hform : (i, v) ∈ selStoreForms s (.mem m))
    (haddrs : storeAddrs s (operandSeg s m) (effAddr s m) 2 = .ok [lo, hi]) :
    exec i s = .next ((s.store [(lo, v.extractLsb' 0 8), (hi, v.extractLsb' 8 8)]).advance (instrSize i)) ∨
      exec i s = .fault .hang ∧ (s.romDescriptor lo = true ∨ s.romDescriptor hi = true) := by
  have hws : segWrite s (operandSeg s m) (effAddr s m) (put16 v) = .ok [(lo, v.extractLsb' 0 8), (hi, v.extractLsb' 8 8)] := by
    rw [segWrite_eq, show (put16 v).length = 2 from rfl, haddrs]; rfl
  rw [exec_selStoreForm hform, storeRM16, hws, ok_bind]
  rcases storeBySoftware_cases s [(lo, v.extractLsb' 0 8), (hi, v.extractLsb' 8 8)] with hstore | ⟨hhang, hrom⟩
  · rw [hstore]; exact .inl rfl
  · rw [hhang]; exact .inr ⟨rfl, by simpa using hrom⟩

end SelectorStores

/-! ## Frames, built update by update, R13 -/

section Frames
variable {s u : State} {regs : List Reg} {segs : List SReg} {stored : List Nat}

theorem KeepsExcept.refl (s : State) : KeepsExcept s s [] [] [] :=
  ⟨fun _ _ => rfl, fun _ _ => rfl, rfl, rfl, rfl, rfl, rfl, rfl, fun _ _ => rfl⟩

theorem KeepsExcept.setReg (h : KeepsExcept s u regs segs stored) (r : Reg) (v : Word) :
    KeepsExcept s (u.setReg r v) (r :: regs) segs stored := by
  obtain ⟨hregs, hrest⟩ := h
  refine ⟨fun q hq => ?_, hrest⟩
  obtain ⟨hqr, hq⟩ := not_or.mp (List.mem_cons.not.mp hq)
  exact (Gprs.get_set_other _ v hqr).trans (hregs q hq)

theorem KeepsExcept.setSeg (h : KeepsExcept s u regs segs stored) (sr : SReg) (v : SegReg) :
    KeepsExcept s (u.setSeg sr v) regs (sr :: segs) stored := by
  obtain ⟨hregs, hsegs, hrest⟩ := h
  refine ⟨hregs, fun q hq => ?_, hrest⟩
  obtain ⟨hqsr, hq⟩ := not_or.mp (List.mem_cons.not.mp hq)
  exact (SegFile.get_set_other _ v hqsr).trans (hsegs q hq)

theorem KeepsExcept.store (h : KeepsExcept s u regs segs stored) (ws : List (Nat × Byte)) :
    KeepsExcept s (u.store ws) regs segs (stored ++ ws.map Prod.fst) := by
  obtain ⟨hregs, hsegs, hgdtr, hldtr, hidtr, htr, hcpl, hparams, hmem⟩ := h
  refine ⟨hregs, hsegs, hgdtr, hldtr, hidtr, htr, hcpl, hparams, fun x hx => ?_⟩
  obtain ⟨hx, hws⟩ := not_or.mp (List.mem_append.not.mp hx)
  exact (storeMem_read_other _ _ ws hws).trans (hmem x hx)

/-- The pc, the latch and the clock, which the end of an instruction writes, are outside the frame. -/
theorem KeepsExcept.advance (h : KeepsExcept s u regs segs stored) (n : Nat) : KeepsExcept s (u.advance n) regs segs stored := h

theorem KeepsExcept.setStackPtr (h : KeepsExcept s u regs segs stored) (big : Bool) (sp : Word) :
    KeepsExcept s (u.setStackPtr big sp) (.esp :: regs) segs stored := by
  cases big with
  | true => exact h.setReg .esp sp
  | false => exact h.setReg .esp _

theorem KeepsExcept.setRegOff (h : KeepsExcept s u regs segs stored) (r : Reg) (off : Word) :
    KeepsExcept s (u.setRegOff r off) (r :: regs) segs stored := by
  unfold State.setRegOff
  split_ifs
  · exact h.setReg r off
  · exact h.setReg r _

theorem KeepsExcept.setRegSel (h : KeepsExcept s u regs segs stored) (r : Reg) (v : Sel) :
    KeepsExcept s (u.setRegSel r v) (r :: regs) segs stored := by
  unfold State.setRegSel
  split_ifs
  · exact h.setReg r _
  · exact h.setReg r _

/-- A load of a segment register changes that register and the accessed bit's byte alone. -/
theorem keepsExcept_applyLoad {sr : SReg} {sel : Sel} {ld : SegLoad} (h : loadSegReg s sr sel = .ok ld) :
    KeepsExcept s (s.applyLoad sr ld) [] [sr] (accessedBitStored s sel) := by
  rw [← loadSegReg_keys h]
  exact ((KeepsExcept.refl s).store ld.writes).setSeg sr ld.seg

/-- A store by software through a segment changes the bytes of that store alone. -/
theorem keepsExcept_softwareStore {sr : SReg} {off : Word} {bs : List Byte} {ws : List (Nat × Byte)} (hws : segWrite s sr off bs = .ok ws)
    (h : storeBySoftware s ws = .ok u) : KeepsExcept s u [] [] (bytesStored s sr off bs.length) := by
  obtain ⟨-, rfl⟩ := storeBySoftware_ok.mp h
  obtain ⟨la, hla, hmem⟩ := segWrite_ok.mp hws
  have haddrs : storeAddrs s sr off bs.length = .ok (ws.map Prod.fst) := storeAddrs_of_walk hla (memWrite_keys hmem)
  rw [bytesStored, haddrs]
  exact (KeepsExcept.refl s).store ws

end Frames

end Sys2Proof.Machine

namespace Sys2Proof.Proofs

open Sys2Proof Sys2Proof.Machine Sys2Proof.Laws

/-- Settles O29, as the MOV case of a direct load. -/
theorem movToSregLoadsTheSegment : Obligations.MovToSregLoadsTheSegment := by
  intro s sr src sel a d hsr hsel hload hset
  have hi : SegLoadTo s (.movToSreg sr src) sr sel := .inl ⟨src, rfl, hsr, hsel⟩
  obtain ⟨t, hexec, hseg, hmem, -, -, hpc⟩ := exec_segLoadTo_of_segLoadable hi hload hset
  exact ⟨t, hexec, hseg, hmem, hpc⟩

/-- Settles O30, as the POP case of a direct load. -/
theorem popSregLoadsAndAdvancesTheStack : Obligations.PopSregLoadsAndAdvancesTheStack := by
  intro s sr i v a d hform hv hload hset
  have hi : SegLoadTo s i sr (le16 (v.take 2)) := .inr (.inl ⟨v, hform, hv, rfl⟩)
  obtain ⟨t, hexec, hseg, hmem, hesp, -, hpc⟩ := exec_segLoadTo_of_segLoadable hi hload hset
  exact ⟨t, hexec, hseg, hmem, hesp hform, hpc⟩

/-- Settles O31, as the far-pointer case of a direct load. -/
theorem farPointerLoads : Obligations.FarPointerLoads := by
  intro s sr i r m p a d hform hp hload hset
  have hi : SegLoadTo s i sr p.sel := .inr (.inr ⟨r, m, p, hform, hp, rfl⟩)
  obtain ⟨t, hexec, hseg, hmem, -, hreg, hpc⟩ := exec_segLoadTo_of_segLoadable hi hload hset
  exact ⟨t, hexec, hseg, hmem, hreg r m p hform hp, hpc⟩

/-- Settles O35: the two halves of the register written. -/
theorem selectorStoredToRegister : Obligations.SelectorStoredToRegister := by
  intro s r i v hform
  obtain ⟨hlow, hhigh⟩ := setRegSel_halves s r v
  refine ⟨_, exec_selStoreForm_reg hform, hlow, hhigh, ?_⟩
  rw [← nextPc_instrSize]
  simp [State.nextPc]

/-- Settles O36: the store is made, or hangs, which takes a byte of a descriptor in ROM. -/
theorem selectorStoredToMemory : Obligations.SelectorStoredToMemory := by
  intro s m i v la lo hi hform hla hps done
  have hdone : done ((s.store [(lo, v.extractLsb' 0 8), (hi, v.extractLsb' 8 8)]).advance (instrSize i)) :=
    ⟨rfl, nextPc_instrSize s i⟩
  rcases exec_selStoreForm_mem hform (storeAddrs_of_walk hla hps) with hexec | ⟨hhang, hrom⟩
  · exact ⟨fun _ _ => ⟨_, hexec, hdone⟩, .inr ⟨_, hexec, hdone⟩⟩
  · exact ⟨fun hlo hhi => by simp [hlo, hhi] at hrom, .inl hhang⟩

/-- Settles O47: a load, then the pc. -/
theorem movToSregFrame : Obligations.MovToSregFrame := by
  intro s t sr src sel hsel h
  simp only [exec_movToSreg, hsel, ok_bind, outcome_next, bind_ok, Except.ok.injEq] at h
  obtain ⟨ld, hld, rfl⟩ := h
  exact (keepsExcept_applyLoad hld).advance _

/-- Settles O48: a load, then the stack pointer, then the pc. -/
theorem popSregFrame : Obligations.PopSregFrame := by
  intro s t sr i v hform hv h
  rw [exec_popForm hform, outcome_next, popSreg_ok] at h
  obtain ⟨v', ld, hv', hld, rfl⟩ := h
  obtain rfl : v = v' := Except.ok.inj (hv.symm.trans hv')
  exact ((keepsExcept_applyLoad hld).setStackPtr _ _).advance _

/-- Settles O49: a load, then the general register, then the pc. -/
theorem farPointerLoadFrame : Obligations.FarPointerLoadFrame := by
  intro s t sr i r m p hform hp h
  rw [exec_farLoadForm hform, outcome_next, loadFarPtr_ok] at h
  obtain ⟨p', ld, hp', hld, rfl⟩ := h
  obtain rfl : p = p' := Except.ok.inj (hp.symm.trans hp')
  exact ((keepsExcept_applyLoad hld).setRegOff r p.off).advance _

/-- Settles O50, by the two destinations: a register, or the two bytes of a store. -/
theorem selectorStoreFrame : Obligations.SelectorStoreFrame := by
  intro s t i v h
  refine ⟨fun r hform => ?reg, fun m hform => ?mem⟩
  case reg =>
    obtain ⟨u, hu, rfl⟩ := (exec_selStoreForm_next hform).mp h
    cases hu
    exact ((KeepsExcept.refl s).setRegSel r v).advance _
  case mem =>
    obtain ⟨u, hu, rfl⟩ := (exec_selStoreForm_next hform).mp h
    obtain ⟨ws, hws, hstore⟩ := bind_ok.mp hu
    exact (keepsExcept_softwareStore hws hstore).advance _

end Sys2Proof.Proofs

/-! ## Far transfers that complete, and what they leave unchanged, R71, R141, R142 -/

namespace Sys2Proof.Machine

section CompletedTransfers
variable {s u : State} {i : Instr} {p : FarPtr} {sel : Sel} {a : Word} {d : BitVec 64} {ps1 ps2 : List Nat}

/-- The write planned for the accessed bit sets it in whatever memory it is made, so after the pushes of a CALL too, R64, R141. -/
theorem accessedBitSet_of_write {ws : List (Nat × Byte)} (hset : AccessedBitCanBeSet s a d) (h : accessedBitWrite s a d = .ok ws)
    (m : Memory) : AccessedBitSet s m (storeMem s.params m ws) a d := by
  obtain ⟨hacc, rfl⟩ | ⟨hclear, pa, hpa, rfl, -⟩ := accessedBitWrite_ok.mp h
  · exact ⟨fun _ => rfl, fun hclear => absurd hacc (by simp [hclear])⟩
  · obtain ⟨pa', hpa', hram⟩ := hset.resolve_left (by simp [hclear])
    obtain rfl : pa = pa' := Except.ok.inj (hpa.symm.trans hpa')
    refine ⟨fun hacc => absurd hacc (by simp [hclear]), fun _ pa' hpa' => ?_⟩
    obtain rfl : pa = pa' := Except.ok.inj (hpa.symm.trans hpa')
    rw [storeMem, if_pos hram]; rfl

/-- Where the accessed bit can be set, steps 7 and 8 of `LoadCS` succeed, R71. -/
theorem loadCS_sets (sel : Sel) (hset : AccessedBitCanBeSet s a d) :
    ∃ ws, loadCS s sel ⟨a, d⟩ = .ok ⟨loadedReg (sel.extractLsb' 2 14 ++ s.cpl) d, ws⟩ ∧
      ∀ m, AccessedBitSet s m (storeMem s.params m ws) a d := by
  obtain ⟨ws, hwrite, -⟩ := accessedBitWrite_sets hset
  exact ⟨ws, by rw [loadCS_eq, hwrite]; rfl, accessedBitSet_of_write hset hwrite⟩

/-- The writes that a checked `LoadCS` plans go to the accessed bit's byte, or nowhere. -/
theorem loadCS_keys {c : CsTarget} {ld : SegLoad} (hc : checkCS s sel = .ok c) (h : loadCS s sel c = .ok ld) :
    ld.writes.map Prod.fst = accessedBitStored s sel := by
  obtain ⟨hnull, ha, hd, -⟩ := checkCS_ok.mp hc
  obtain ⟨ws, hwrite, rfl⟩ := loadCS_ok.mp h
  exact accessedBitWrite_keys hnull ha hd hwrite

/-- A store names the addresses its bytes go to, in order, R82. -/
theorem segWrite_keys {sr : SReg} {off : Word} {bs : List Byte} {ws : List (Nat × Byte)} (h : segWrite s sr off bs = .ok ws) :
    ws.map Prod.fst = bytesStored s sr off bs.length := by
  obtain ⟨la, hla, hmem⟩ := segWrite_ok.mp h
  rw [bytesStored, storeAddrs_of_walk hla (memWrite_keys hmem)]

/-- A push moves the stack pointer down by four and stores to the four bytes there, R141. -/
theorem push32_keys {sp v : Word} {q : Push} (h : push32 s sp v = .ok q) :
    q.sp = spAfterPush s sp ∧ q.writes.map Prod.fst = bytesStored s .ss (spAfterPush s sp) 4 := by
  obtain ⟨ws, hws, rfl⟩ := push32_ok.mp h
  have hkeys := segWrite_keys hws
  rw [stackAdd_neg_four, show (put32 v).length = 4 from rfl] at hkeys
  exact ⟨stackAdd_neg_four s sp, hkeys⟩

/-- A far transfer ends outside the frame as any instruction does: at the pc, the latch and the clock. -/
theorem KeepsExcept.finishAt {regs : List Reg} {segs : List SReg} {stored : List Nat} (h : KeepsExcept s u regs segs stored)
    (target : Word) : KeepsExcept s (u.finishAt target) regs segs stored := h

/-- What a load of a segment register adds to a frame, made on a state that may differ from the one it was checked on. -/
theorem KeepsExcept.applyLoad {regs : List Reg} {segs : List SReg} {stored : List Nat} (h : KeepsExcept s u regs segs stored)
    (sr : SReg) (ld : SegLoad) : KeepsExcept s (u.applyLoad sr ld) regs (sr :: segs) (stored ++ ld.writes.map Prod.fst) :=
  (h.store ld.writes).setSeg sr ld.seg

end CompletedTransfers

end Sys2Proof.Machine

namespace Sys2Proof.Proofs

open Sys2Proof Sys2Proof.Machine

/-- Settles O42: after the checks only the accessed bit is left to write, and it can be set. -/
theorem farJmpLoadsCs : Obligations.FarJmpLoadsCs := by
  intro s i p a d hjmp hload hset
  obtain ⟨ws, hld, hmem⟩ := loadCS_sets p.sel hset
  exact ⟨_, exec_jmpTo_of_load hjmp hload hld, rfl, hmem s.mem, rfl, rfl⟩

/-- Settles O43: the pushes are made and CS is loaded, or a push hangs, which takes a byte of a descriptor in ROM. -/
theorem farCallPushesAndLoadsCs : Obligations.FarCallPushesAndLoadsCs := by
  intro s i p a d la1 la2 ps1 ps2 sp0 sp1 sp2 hcall hload hset hla1 hps1 hla2 hps2 done
  have hpush : PushesAt s ps1 ps2 := ⟨storeAddrs_of_walk hla1 hps1, storeAddrs_of_walk hla2 hps2⟩
  obtain ⟨ws, hld, hmem⟩ := loadCS_sets p.sel hset
  rcases exec_callTo_of_load hcall hload hpush hld with ⟨hhang, q, hq, hrom⟩ | hexec
  · exact ⟨fun hnoRom => absurd hrom (by simp [hnoRom q hq]), .inl hhang⟩
  · suffices hnext : ∃ t, exec i s = .next t ∧ done t from ⟨fun _ => hnext, .inr hnext⟩
    refine ⟨_, hexec, by simp [SegFile.set], ?mem, esp_after_pushes (u := (s.store _).applyLoad .cs _) rfl _, by simp, by simp⟩
    rw [← storeMem_pushWrites]
    simp only [finishAt_fields, setStackPtr_fields, applyLoad_fields, store_fields]
    exact hmem _

/-- Settles O53: a JMP loads CS and ends; a CALL first makes two stores by software, and then writes the stack pointer too. -/
theorem farTransferFrame : Obligations.FarTransferFrame := by
  intro s t i p h
  refine ⟨fun hjmp => ?jmp, fun hcall => ?call⟩
  case jmp =>
    rw [exec_jmpTo hjmp, outcome_next, jmpFar_ok] at h
    obtain ⟨c, ld, hc, hld, rfl⟩ := h
    rw [← loadCS_keys hc hld]
    exact ((KeepsExcept.refl s).applyLoad .cs ld).finishAt p.off
  case call =>
    rw [exec_callTo hcall, outcome_next, callFar_ok] at h
    obtain ⟨c, q1, q2, ld, u, hc, hq1, hq2, hld, hstore, rfl⟩ := h
    obtain ⟨-, rfl⟩ := storeBySoftware_ok.mp hstore
    obtain ⟨hsp1, hkeys1⟩ := push32_keys hq1
    obtain ⟨-, hkeys2⟩ := push32_keys hq2
    rw [hsp1] at hkeys2
    rw [← loadCS_keys hc hld, ← hkeys1, ← hkeys2, ← List.map_append]
    exact ((((KeepsExcept.refl s).store _).applyLoad .cs ld).setStackPtr _ _).finishAt p.off

/-- Settles O45: the arm of each of the eight rows refuses in every state, with the name of its rule. -/
theorem undescribedTransfersAreRefused : Obligations.UndescribedTransfersAreRefused :=
  fun _ _ _ => ⟨rfl, rfl, rfl, rfl, rfl, rfl, rfl, rfl⟩

end Sys2Proof.Proofs

/-! ## The table registers: SGDT, SIDT, LGDT and LLDT, R160 to R165 -/

namespace Sys2Proof.Machine

open Sys2Proof.Laws

section TableStores
variable {s t : State} {i : Instr} {m : Mem} {v : TableReg}

theorem exec_tableStoreForm_next (hi : (i, v) ∈ tableStoreForms s m) :
    exec i s = .next t ↔ ∃ u, storeTableReg s m v = .ok u ∧ t = u.advance (instrSize i) := by
  simp [exec_tableStoreForm hi, eq_comm (a := t)]

/-- The six bytes are stored at their addresses, or the store hangs on a descriptor in ROM, R206. -/
theorem exec_tableStoreForm_addrs {ps : List Nat} (hi : (i, v) ∈ tableStoreForms s m)
    (haddrs : storeAddrs s (operandSeg s m) (effAddr s m) 6 = .ok ps) :
    exec i s = .next ((s.store (ps.zip (pseudoDesc v))).advance (instrSize i)) ∨
      exec i s = .fault .hang ∧ ∃ pa ∈ ps, s.romDescriptor pa = true := by
  have hws : segWrite s (operandSeg s m) (effAddr s m) (pseudoDesc v) = .ok (ps.zip (pseudoDesc v)) := by
    rw [segWrite_eq, show (pseudoDesc v).length = 6 from rfl, haddrs]; rfl
  rw [exec_tableStoreForm hi, storeTableReg, hws, ok_bind]
  rcases storeBySoftware_cases s (ps.zip (pseudoDesc v)) with hstore | ⟨hhang, w, hw, hrom⟩
  · rw [hstore]; exact .inl rfl
  · rw [hhang]; exact .inr ⟨rfl, w.1, (List.of_mem_zip hw).1, hrom⟩

end TableStores

/-! Bytes read, lowest first, as numbers, R40 -/

theorem toNat_append_byte {w : Nat} (hi : BitVec w) (lo : Byte) : (hi ++ lo).toNat = lo.toNat + 256 * hi.toNat := by
  rw [BitVec.toNat_append, ← Nat.shiftLeft_add_eq_or_of_lt lo.isLt, Nat.shiftLeft_eq, Nat.add_comm, Nat.mul_comm]

theorem le16_eq_append (b0 b1 : Byte) : le16 [b0, b1] = b1 ++ b0 := by
  apply BitVec.eq_of_toNat_eq
  rw [toNat_append_byte, le16, BitVec.toNat_ofNat]
  exact Nat.mod_eq_of_lt (by simp only [leNat]; omega)

theorem le32_eq_append (b0 b1 b2 b3 : Byte) : le32 [b0, b1, b2, b3] = b3 ++ b2 ++ b1 ++ b0 := by
  apply BitVec.eq_of_toNat_eq
  rw [toNat_append_byte, toNat_append_byte, toNat_append_byte, le32, BitVec.toNat_ofNat]
  exact Nat.mod_eq_of_lt (by simp only [leNat]; omega)

section TableLoads
variable {s : State} {src : RM} {sel : Sel} {a : Word} {d : BitVec 64} {e : Stop}

theorem raiseIf_of_true {c : Bool} (h : c = true) (s : State) (x : Exc) (info : ExcInfo) : raiseIf s c x info = raise s x info :=
  if_pos h

/-- The privilege check comes before any operand is read, R164. -/
theorem exec_lgdt_of_cpl_ne_zero (m : Mem) (h : s.cpl ≠ 0) : exec (.lgdt m) s = .fault (exceptionAt s .gp .zero) := by
  rw [exec, execLgdt, raiseIf_of_true (bne_iff_ne.mpr h)]; rfl

/-- The privilege check comes before any operand is read, R165. -/
theorem exec_lldt_of_cpl_ne_zero (src : RM) (h : s.cpl ≠ 0) : exec (.lldt src) s = .fault (exceptionAt s .gp .zero) := by
  rw [exec, execLldt, raiseIf_of_true (bne_iff_ne.mpr h)]; rfl

theorem exec_lldt_of_loadLdtr {v : SegReg} (hcpl : s.cpl = 0) (hsel : readRM16 s src = .ok sel) (hv : loadLdtr s sel = .ok v) :
    exec (.lldt src) s = .next ((s.setLdtr v).advance (instrSize (.lldt src))) :=
  exec_lldt_next.mpr ⟨hcpl, sel, v, hsel, hv, rfl⟩

theorem exec_lldt_of_loadLdtr_error (hcpl : s.cpl = 0) (hsel : readRM16 s src = .ok sel) (he : loadLdtr s sel = .error e) :
    exec (.lldt src) s = outcome (.error e) := by
  simp [exec, execLldt, raiseIf, hcpl, hsel, he]

/-- The type code of an LDT descriptor, R165. -/
theorem isLdt_iff {t : Attr} : t.isLdt = true ↔ t.s = false ∧ t.type = 2 := by
  rw [Attr.isLdt, Bool.and_eq_true, Bool.not_eq_true', beq_iff_eq]

/-- An LDT descriptor is sought in the GDT alone, R165. -/
theorem loadLdtr_of_ti (hnull : isNull sel = false) (hti : selTI sel = true) :
    loadLdtr s sel = raise s .gp (.selector sel) := by
  rw [loadLdtr, if_neg (by simp [hnull]), raiseIf_of_true hti]; rfl

theorem loadLdtr_of_selDesc_error (hnull : isNull sel = false) (hti : selTI sel = false) (h : selDesc s sel = .error e) :
    loadLdtr s sel = .error e := by
  rcases selDesc_error h with ha | ⟨a, ha, hd⟩
  · simp [loadLdtr, hnull, hti, raiseIf, ha]
  · simp [loadLdtr, hnull, hti, raiseIf, ha, hd]

/-- R165: the two checks on the descriptor that has been read. -/
theorem loadLdtr_of_desc (hnull : isNull sel = false) (hti : selTI sel = false) (ha : descAddr s sel = .ok a)
    (hd : readDesc s a = .ok d) :
    loadLdtr s sel =
      if (descAttr d).isLdt = false then raise s .gp (.selector sel)
      else if (descAttr d).p = false then raise s .np (.selector sel)
      else .ok (segFrom sel d) := by
  simp only [loadLdtr, hnull, Bool.false_eq_true, if_false, hti, ha, hd, ok_bind]
  cases (descAttr d).isLdt with
  | false => rfl
  | true =>
    cases (descAttr d).p with
    | false => rfl
    | true => rfl

end TableLoads

/-! ## What a step that completes has run, R101 to R104, R213 -/

/-- From `s` the instruction `i`, behind the bytes `xs` of `isPrefixByte`, completes in `t`. -/
structure CompletesBy (s : State) (xs : List Instr) (i : Instr) (t : State) : Prop where
  prefixBytes : ∀ x ∈ xs, x.isPrefixByte = true
  notPrefixByte : i.isPrefixByte = false
  wf : i.wf (s.withLatch xs).op32 = true
  completes : exec i (s.withLatch xs) = .next t

section CompletedSteps
variable {s t : State}

/-- Bytes that run to completion are further bytes of `isPrefixByte` and then one instruction. -/
theorem completesBy_of_runBytes {stop : Stop} {n : Nat} {bs : List Byte} {xs : List Instr}
    (hxs : ∀ x ∈ xs, x.isPrefixByte = true) (h : runBytes exec stop n bs (s.withLatch xs) = .next t) :
    ∃ ys i, CompletesBy s ys i t := by
  induction n generalizing bs xs with
  | zero => simp [runBytes] at h
  | succ n ih =>
    cases hdec : decode (s.withLatch xs).op32 (s.withLatch xs).addr32 bs with
    | error why =>
      cases why with
      | truncated k => rw [runBytes_of_truncated n hdec] at h; simp at h
      | _ => rw [runBytes_of_rejected n hdec (by simp)] at h; cases h
    | ok r =>
      obtain ⟨i, rest⟩ := r
      obtain ⟨hbs, hwf⟩ := decode_sound hdec
      cases hi : i.isPrefixByte with
      | false =>
        rw [runBytes_of_decode n hdec hi] at h
        exact ⟨xs, i, hxs, hi, hwf, h⟩
      | true =>
        rw [hbs, runBytes_of_prefixByte n hi (exec_prefixByte_withLatch hi s xs)] at h
        have hxsi : ∀ x ∈ xs ++ [i], x.isPrefixByte = true :=
          List.forall_mem_append.mpr ⟨hxs, List.forall_mem_singleton.mpr hi⟩
        exact ih hxsi h

/-- A step that completes has run one well-formed instruction behind its bytes of `isPrefixByte`. -/
theorem completesBy_of_step (h : step s = .next t) : ∃ xs i, CompletesBy s xs i t := by
  rcases hw : fetchWindow s with ⟨bs, stop⟩
  cases bs with
  | nil => rw [step_of_no_byte hw] at h; simp at h
  | cons b bs =>
    cases hdb : s.segs.cs.attr.db with
    | false => rw [step_of_codeSegment16 hdb hw] at h; cases h
    | true =>
      rw [step_of_bytes hw (List.cons_ne_nil b bs) hdb] at h
      exact completesBy_of_runBytes (xs := []) (by simp) h

end CompletedSteps

end Sys2Proof.Machine

namespace Sys2Proof.Proofs

open Sys2Proof Sys2Proof.Machine Sys2Proof.Laws

/-- Settles O37: the store is made, or hangs, which takes a byte of a descriptor in ROM. -/
theorem pseudoDescriptorStored : Obligations.PseudoDescriptorStored := by
  intro s m i v la ps hform hla hps done
  have hdone : done ((s.store (ps.zip (pseudoDesc v))).advance (instrSize i)) := ⟨rfl, nextPc_instrSize s i⟩
  rcases exec_tableStoreForm_addrs hform (storeAddrs_of_walk hla hps) with hexec | ⟨hhang, pa, hpa, hrom⟩
  · exact ⟨fun _ => ⟨_, hexec, hdone⟩, .inr ⟨_, hexec, hdone⟩⟩
  · exact ⟨fun hnoRom => absurd hrom (by simp [hnoRom pa hpa]), .inl hhang⟩

/-- Settles O38: both reads and the check between them succeed, and the bytes read are the two fields. -/
theorem lgdtLoadsGdtr : Obligations.LgdtLoadsGdtr := by
  intro s m la b0 b1 b2 b3 b4 b5 hcpl hla hlimit hbase
  have hread : readTableReg s m = .ok ⟨le32 [b2, b3, b4, b5], le16 [b0, b1]⟩ :=
    readTableReg_ok.mpr ⟨_, la, _, hlimit, hla, hbase, rfl⟩
  exact ⟨_, exec_lgdt_next.mpr ⟨hcpl, _, hread, rfl⟩, le16_eq_append b0 b1, le32_eq_append b2 b3 b4 b5, nextPc_instrSize s _⟩

/-- Settles O39, by the two ways `loadLdtr` succeeds. -/
theorem lldtLoadsLdtr : Obligations.LldtLoadsLdtr := by
  intro s src sel hcpl hsel
  refine ⟨fun hnull => ?null, fun a d hnull hti ha hd hs htype hp => ?desc⟩
  case null =>
    have hload : loadLdtr s sel = .ok (nullLoaded s sel) := loadLdtr_ok.mpr (.inl ⟨hnull, rfl⟩)
    exact ⟨_, exec_lldt_of_loadLdtr hcpl hsel hload, rfl, rfl, nextPc_instrSize s _⟩
  case desc =>
    have hload : loadLdtr s sel = .ok (segFrom sel d) :=
      loadLdtr_ok.mpr (.inr ⟨hnull, hti, a, d, ha, hd, isLdt_iff.mpr ⟨hs, htype⟩, hp, rfl⟩)
    exact ⟨_, exec_lldt_of_loadLdtr hcpl hsel hload, rfl, rfl, nextPc_instrSize s _⟩

/-- Settles O40, check by check in the order of R165. -/
theorem lldtChecksTheDescriptor : Obligations.LldtChecksTheDescriptor := by
  intro s src sel hcpl hsel hnull
  refine ⟨fun hti => ?ti, fun e hti he => ?desc, fun a d hti ha hd => ?checks⟩
  case ti => exact exec_lldt_of_loadLdtr_error hcpl hsel (loadLdtr_of_ti hnull hti)
  case desc => exact exec_lldt_of_loadLdtr_error hcpl hsel (loadLdtr_of_selDesc_error hnull hti he)
  case checks =>
    have hload := loadLdtr_of_desc hnull hti ha hd
    refine ⟨fun hbad => ?_, fun hs htype hp => ?_⟩
    · have hno : (descAttr d).isLdt = false := by
        rw [← Bool.not_eq_true, isLdt_iff, not_and_or, Bool.not_eq_false]
        exact hbad
      rw [if_pos hno] at hload
      exact exec_lldt_of_loadLdtr_error hcpl hsel hload
    · rw [if_neg (by simp [isLdt_iff.mpr ⟨hs, htype⟩]), if_pos hp] at hload
      exact exec_lldt_of_loadLdtr_error hcpl hsel hload

/-- Settles O41: either instruction begins with the privilege check. -/
theorem tableLoadsNeedLevelZero : Obligations.TableLoadsNeedLevelZero :=
  fun _ m src hcpl => ⟨exec_lgdt_of_cpl_ne_zero m hcpl, exec_lldt_of_cpl_ne_zero src hcpl⟩

/-- Settles O51: a store by software, then the pc. -/
theorem pseudoDescriptorStoreFrame : Obligations.PseudoDescriptorStoreFrame := by
  intro s t m i v hform h
  obtain ⟨u, hu, rfl⟩ := (exec_tableStoreForm_next hform).mp h
  obtain ⟨ws, hws, hstore⟩ := storeTableReg_ok.mp hu
  exact (keepsExcept_softwareStore hws hstore).advance _

/-- Settles O52: with the table register put back, only the end of the instruction is left. -/
theorem tableLoadFrame : Obligations.TableLoadFrame := by
  intro s t m src
  refine ⟨fun h => ?lgdt, fun h => ?lldt⟩
  case lgdt =>
    obtain ⟨-, v, -, rfl⟩ := exec_lgdt_next.mp h
    exact (KeepsExcept.refl s).advance _
  case lldt =>
    obtain ⟨-, sel, v, -, -, rfl⟩ := exec_lldt_next.mp h
    exact (KeepsExcept.refl s).advance _

/-- Settles O56: of the instructions a step can run only LGDT and LLDT write these registers, and neither completes outside level 0. -/
theorem tableRegistersArePrivileged : Obligations.TableRegistersArePrivileged := by
  intro s t hcpl h
  obtain ⟨xs, i, hrun⟩ := completesBy_of_step h
  obtain ⟨-, hgdtr, hldtr⟩ := onlyTheirInstructionsWriteCsGdtrLdtr (s.withLatch xs) t i _ hrun.wf hrun.completes
  have hexec := hrun.completes
  refine ⟨hgdtr.resolve_right ?gdtr, hldtr.resolve_right ?ldtr⟩
  case gdtr =>
    rintro ⟨m, rfl⟩
    exact hcpl (exec_lgdt_next.mp hexec).1
  case ldtr =>
    rintro ⟨src, rfl⟩
    exact hcpl (exec_lldt_next.mp hexec).1

end Sys2Proof.Proofs

/-! ## The pc an exception names, R179 -/

namespace Sys2Proof.Machine

/-- An exception that ends the step names `pc`. A hang and a refusal name none. -/
def Stop.NamesPc (pc : Word) (stop : Stop) : Prop := ∀ e info pc', stop = .fault (.exception e info pc') → pc' = pc

/-- Where the operation `x` stops, its exception names `pc`. -/
def NamesPc {α : Type} (pc : Word) (x : Res α) : Prop := ∀ stop, x = .error stop → stop.NamesPc pc

section Composition
variable {s : State} {α β : Type} {pc : Word}

theorem Stop.namesPc_hang : (Stop.fault .hang).NamesPc pc := fun _ _ _ h => by cases h

theorem Stop.namesPc_refused (r : Refusal) : (Stop.refused r).NamesPc pc := fun _ _ _ h => by cases h

theorem namesPc_ok (a : α) : NamesPc pc (.ok a) := fun _ h => by cases h

theorem namesPc_error {stop : Stop} (h : stop.NamesPc pc) : NamesPc pc (.error stop : Res α) := by
  rintro _ ⟨⟩
  exact h

/-- `raise` is the one source of exceptions, and it takes the pc of its state. -/
theorem namesPc_raise (s : State) (e : Exc) (info : ExcInfo) : NamesPc s.pc (raise s e info : Res α) :=
  namesPc_error fun _ _ _ h => by cases h; rfl

theorem NamesPc.bind {x : Res α} {f : α → Res β} (hx : NamesPc pc x) (hf : ∀ a, NamesPc pc (f a)) : NamesPc pc (x >>= f) := by
  cases x with
  | ok a => exact hf a
  | error stop => exact namesPc_error (hx stop rfl)

theorem NamesPc.ite {c : Prop} [Decidable c] {x y : Res α} (hx : NamesPc pc x) (hy : NamesPc pc y) :
    NamesPc pc (if c then x else y) := by
  split_ifs
  · exact hx
  · exact hy

theorem namesPc_raiseIf (s : State) (c : Bool) (e : Exc) (info : ExcInfo) : NamesPc s.pc (raiseIf s c e info) :=
  (namesPc_raise s e info).ite (namesPc_ok ())

theorem namesPc_refuseIf (c : Bool) (why : Refusal) : NamesPc pc (refuseIf c why) :=
  (namesPc_error (Stop.namesPc_refused why)).ite (namesPc_ok ())

/-- A check that raises, and what comes after it. -/
theorem NamesPc.after_raiseIf {f : Unit → Res α} {c : Bool} {e : Exc} {info : ExcInfo} (hf : NamesPc s.pc (f ())) :
    NamesPc s.pc (raiseIf s c e info >>= f) :=
  (namesPc_raiseIf s c e info).bind fun _ => hf

/-- The fault of a step is the stop of the operation it runs. -/
theorem NamesPc.outcome_fault {x : Res State} {f : Fault} (hx : NamesPc pc x) (h : outcome x = .fault f) : (Stop.fault f).NamesPc pc :=
  hx _ (Machine.outcome_fault.mp h)

end Composition

/-! Each shared operation, in the order of the model: it raises through `raise` and through the operations before it. -/

section Operations
variable (s : State)

theorem translate_namesPc (la : Word) (k : Access) : NamesPc s.pc (translate s la k) := by
  rcases translate_cases s la k with ⟨pa, h⟩ | h
  · rw [h]; exact namesPc_ok pa
  · rw [h]; exact namesPc_raise s _ _

theorem walk_namesPc (la : Word) (k : Access) (n : Nat) : NamesPc s.pc (walk s la k n) := by
  induction n generalizing la with
  | zero => exact namesPc_ok []
  | succ n ih => exact (translate_namesPc s la k).bind fun _ => (ih (la + 1)).bind fun _ => namesPc_ok _

theorem memRead_namesPc (tag : DrawTag) (la : Word) (n : Nat) : NamesPc s.pc (memRead s tag la n) :=
  (walk_namesPc s la .read n).bind fun _ => namesPc_ok _

theorem memWrite_namesPc (la : Word) (bs : List Byte) : NamesPc s.pc (memWrite s la bs) :=
  (walk_namesPc s la .write bs.length).bind fun _ => namesPc_ok _

theorem segAccess_namesPc (sr : SReg) (off : Word) (n : Nat) (k : Access) : NamesPc s.pc (segAccess s sr off n k) :=
  .after_raiseIf <| (namesPc_refuseIf _ _).bind fun _ => .after_raiseIf <| .after_raiseIf <| namesPc_ok _

theorem segRead_namesPc (tag : DrawTag) (sr : SReg) (off : Word) (n : Nat) : NamesPc s.pc (segRead s tag sr off n) :=
  (segAccess_namesPc s sr off n .read).bind fun la => memRead_namesPc s tag la n

theorem segWrite_namesPc (sr : SReg) (off : Word) (bs : List Byte) : NamesPc s.pc (segWrite s sr off bs) :=
  (segAccess_namesPc s sr off bs.length .write).bind fun la => memWrite_namesPc s la bs

theorem descAddr_namesPc (sel : Sel) : NamesPc s.pc (descAddr s sel) :=
  .ite (.after_raiseIf <| .after_raiseIf <| namesPc_ok _) (.after_raiseIf <| namesPc_ok _)

theorem readDesc_namesPc (a : Word) : NamesPc s.pc (readDesc s a) :=
  (memRead_namesPc s .descriptor a 8).bind fun _ => namesPc_ok _

theorem storeBySoftware_namesPc (ws : List (Nat × Byte)) : NamesPc s.pc (storeBySoftware s ws) :=
  .ite (namesPc_error Stop.namesPc_hang) (namesPc_ok _)

theorem accessedBitWrite_namesPc (a : Word) (d : BitVec 64) : NamesPc s.pc (accessedBitWrite s a d) :=
  .ite (namesPc_ok _) <| (translate_namesPc s (a + 5) .write).bind fun _ => .ite (namesPc_error Stop.namesPc_hang) (namesPc_ok _)

theorem loadSegReg_namesPc (sr : SReg) (sel : Sel) : NamesPc s.pc (loadSegReg s sr sel) :=
  .ite (.after_raiseIf <| namesPc_ok _) <|
    (descAddr_namesPc s sel).bind fun a => (readDesc_namesPc s a).bind fun d =>
      .after_raiseIf <| .after_raiseIf <| .after_raiseIf <| (accessedBitWrite_namesPc s a d).bind fun _ => namesPc_ok _

theorem checkCS_namesPc (sel : Sel) : NamesPc s.pc (checkCS s sel) :=
  .after_raiseIf <| (descAddr_namesPc s sel).bind fun a => (readDesc_namesPc s a).bind fun _ =>
    (namesPc_refuseIf _ _).bind fun _ => .after_raiseIf <| .after_raiseIf <| .after_raiseIf <| namesPc_ok _

theorem loadCS_namesPc (sel : Sel) (c : CsTarget) : NamesPc s.pc (loadCS s sel c) :=
  (accessedBitWrite_namesPc s c.addr c.desc).bind fun _ => namesPc_ok _

theorem push32_namesPc (sp v : Word) : NamesPc s.pc (push32 s sp v) :=
  (segWrite_namesPc s .ss _ (put32 v)).bind fun _ => namesPc_ok _

theorem readRM16_namesPc (src : RM) : NamesPc s.pc (readRM16 s src) := by
  cases src with
  | reg r => exact namesPc_ok _
  | mem m => exact (segRead_namesPc s _ _ _ 2).bind fun _ => namesPc_ok _

theorem storeRM16_namesPc (dst : RM) (v : Sel) : NamesPc s.pc (storeRM16 s dst v) := by
  cases dst with
  | reg r => exact namesPc_ok _
  | mem m => exact (segWrite_namesPc s _ _ (put16 v)).bind fun ws => storeBySoftware_namesPc s ws

theorem readFarPtr_namesPc (m : Mem) : NamesPc s.pc (readFarPtr s m) :=
  (segRead_namesPc s _ _ _ s.opBytes).bind fun _ => (segRead_namesPc s _ _ _ 2).bind fun _ => namesPc_ok _

theorem storeTableReg_namesPc (m : Mem) (v : TableReg) : NamesPc s.pc (storeTableReg s m v) :=
  (segWrite_namesPc s _ _ (pseudoDesc v)).bind fun ws => storeBySoftware_namesPc s ws

theorem readTableReg_namesPc (m : Mem) : NamesPc s.pc (readTableReg s m) :=
  (segRead_namesPc s _ _ _ 2).bind fun _ => (segAccess_namesPc s _ _ 6 .read).bind fun _ =>
    (segRead_namesPc s _ _ _ 4).bind fun _ => namesPc_ok _

theorem callFar_namesPc (p : FarPtr) (len : Nat) : NamesPc s.pc (callFar s p len) :=
  (checkCS_namesPc s p.sel).bind fun c => (push32_namesPc s _ _).bind fun q => (push32_namesPc s q.sp _).bind fun _ =>
    (loadCS_namesPc s p.sel c).bind fun _ => (storeBySoftware_namesPc s _).bind fun _ => namesPc_ok _

theorem jmpFar_namesPc (p : FarPtr) : NamesPc s.pc (jmpFar s p) :=
  (checkCS_namesPc s p.sel).bind fun c => (loadCS_namesPc s p.sel c).bind fun _ => namesPc_ok _

theorem popSreg_namesPc (sr : SReg) (len : Nat) : NamesPc s.pc (popSreg s sr len) :=
  (segRead_namesPc s .stack .ss s.stackPtr s.opBytes).bind fun _ => (loadSegReg_namesPc s sr _).bind fun _ => namesPc_ok _

theorem loadFarPtr_namesPc (sr : SReg) (r : Reg) (m : Mem) (len : Nat) : NamesPc s.pc (loadFarPtr s sr r m len) :=
  (readFarPtr_namesPc s m).bind fun p => (loadSegReg_namesPc s sr p.sel).bind fun _ => namesPc_ok _

theorem loadLdtr_namesPc (sel : Sel) : NamesPc s.pc (loadLdtr s sel) :=
  .ite (namesPc_ok _) <| .after_raiseIf <| (descAddr_namesPc s sel).bind fun a => (readDesc_namesPc s a).bind fun _ =>
    .after_raiseIf <| .after_raiseIf <| namesPc_ok _

end Operations

section Steps
variable {s : State} {f : Fault} {stop : Stop}

/-- An instruction raises through the operation it is made of. -/
theorem exec_fault_namesPc {i : Instr} (h : exec i s = .fault f) : (Stop.fault f).NamesPc s.pc := by
  cases i with
  | movToSreg sr src =>
    exact ((readRM16_namesPc s src).bind fun sel => (loadSegReg_namesPc s sr sel).bind fun _ => namesPc_ok _).outcome_fault h
  | popES | popSS | popDS | popFS | popGS => exact (popSreg_namesPc s _ _).outcome_fault h
  | lds r m | les r m | lss r m | lfs r m | lgs r m => exact (loadFarPtr_namesPc s _ r m _).outcome_fault h
  | movFromSreg dst _ | sldt dst | str dst => exact ((storeRM16_namesPc s dst _).bind fun _ => namesPc_ok _).outcome_fault h
  | sgdt m | sidt m => exact ((storeTableReg_namesPc s m _).bind fun _ => namesPc_ok _).outcome_fault h
  | lgdt m => exact (NamesPc.after_raiseIf <| (readTableReg_namesPc s m).bind fun _ => namesPc_ok _).outcome_fault h
  | lldt src =>
    exact (NamesPc.after_raiseIf <| (readRM16_namesPc s src).bind fun sel => (loadLdtr_namesPc s sel).bind fun _ =>
      namesPc_ok _).outcome_fault h
  | callPtr _ _ => exact (callFar_namesPc s _ _).outcome_fault h
  | callMem m => exact ((readFarPtr_namesPc s m).bind fun p => callFar_namesPc s p _).outcome_fault h
  | jmpPtr _ _ => exact (jmpFar_namesPc s _).outcome_fault h
  | jmpMem m => exact ((readFarPtr_namesPc s m).bind fun p => jmpFar_namesPc s p).outcome_fault h
  | retFar | retFarImm _ | sysenter | sysexit | iret | intN _ | into | int3 => cases h
  | opSizeByte | addrSizeByte | segOverrideByte _ => cases h

theorem fetchByte_namesPc (s : State) (i : Nat) : NamesPc s.pc (fetchByte s i) :=
  (segAccess_namesPc s .cs s.pc (i + 1) .execute).bind fun _ => (translate_namesPc s _ .read).bind fun _ => namesPc_ok _

/-- What ends a fetch is the stop of one of its bytes, or the refusal of a 16th byte, R101. -/
theorem fetchBytes_stop_namesPc (s : State) (i n : Nat) : (fetchBytes s i n).2.NamesPc s.pc := by
  induction n generalizing i with
  | zero => exact Stop.namesPc_refused _
  | succ n ih =>
    rw [fetchBytes]
    cases hb : fetchByte s i with
    | error e => exact fetchByte_namesPc s i e hb
    | ok b => exact ih (i + 1)

theorem fetchStop_namesPc (n : Nat) (hstop : stop.NamesPc s.pc) : (fetchStop s n stop).NamesPc s.pc := by
  rcases fetchStop_cases (s := s) (n := n) (stop := stop) with h | h
  · rwa [h]
  · exact segAccess_namesPc s _ _ _ _ _ h

/-- The bytes `xs` latched before an instruction leave the pc at the first of them, R101. -/
theorem runBytes_fault_namesPc {n : Nat} {bs : List Byte} {xs : List Instr} (hstop : stop.NamesPc s.pc)
    (h : runBytes exec stop n bs (s.withLatch xs) = .fault f) : (Stop.fault f).NamesPc s.pc := by
  induction n generalizing bs xs with
  | zero => exact (namesPc_error hstop).outcome_fault h
  | succ n ih =>
    cases hdec : decode (s.withLatch xs).op32 (s.withLatch xs).addr32 bs with
    | error why =>
      cases why with
      | truncated k =>
        rw [runBytes_of_truncated n hdec, fetchStop_withLatch] at h
        exact (namesPc_error (fetchStop_namesPc _ hstop)).outcome_fault h
      | _ => rw [runBytes_of_rejected n hdec (by simp)] at h; cases h
    | ok r =>
      obtain ⟨i, rest⟩ := r
      cases hi : i.isPrefixByte with
      | false =>
        rw [runBytes_of_decode n hdec hi] at h
        exact exec_fault_namesPc (s := s.withLatch xs) h
      | true =>
        rw [(decode_sound hdec).1, runBytes_of_prefixByte n hi (exec_prefixByte_withLatch hi s xs)] at h
        exact ih h

theorem step_fault_namesPc (h : step s = .fault f) : (Stop.fault f).NamesPc s.pc := by
  have hstop : (fetchWindow s).2.NamesPc s.pc := fetchBytes_stop_namesPc s 0 _
  rcases hw : fetchWindow s with ⟨bs, stop⟩
  rw [hw] at hstop
  cases bs with
  | nil =>
    rw [step_of_no_byte hw] at h
    exact (namesPc_error hstop).outcome_fault h
  | cons b bs =>
    cases hdb : s.segs.cs.attr.db with
    | false => rw [step_of_codeSegment16 hdb hw] at h; cases h
    | true =>
      rw [step_of_bytes hw (List.cons_ne_nil b bs) hdb] at h
      exact runBytes_fault_namesPc (xs := []) hstop h

end Steps

/-! ## What no instruction writes: CPL, the parameters, IDTR and TR, R31, R161, R163, R184 -/

/-- CPL, the parameters, IDTR and TR of `t` are those of `s`. -/
structure UnwrittenKept (s t : State) : Prop where
  cpl : t.cpl = s.cpl
  params : t.params = s.params
  idtr : t.idtr = s.idtr
  trSel : t.trSel = s.trSel

section Unwritten
variable {s t : State}

theorem popSreg_keeps_unwritten {sr : SReg} {len : Nat} (h : popSreg s sr len = .ok t) : UnwrittenKept s t := by
  obtain ⟨v, ld, -, -, rfl⟩ := popSreg_ok.mp h
  constructor <;> simp

theorem loadFarPtr_keeps_unwritten {sr : SReg} {r : Reg} {m : Mem} {len : Nat} (h : loadFarPtr s sr r m len = .ok t) :
    UnwrittenKept s t := by
  obtain ⟨p, ld, -, -, rfl⟩ := loadFarPtr_ok.mp h
  constructor <;> simp

theorem jmpFar_keeps_unwritten {p : FarPtr} (h : jmpFar s p = .ok t) : UnwrittenKept s t := by
  obtain ⟨c, ld, -, -, rfl⟩ := jmpFar_ok.mp h
  constructor <;> simp

theorem callFar_keeps_unwritten {p : FarPtr} {len : Nat} (h : callFar s p len = .ok t) : UnwrittenKept s t := by
  obtain ⟨c, q1, q2, ld, u, -, -, -, -, hstore, rfl⟩ := callFar_ok.mp h
  obtain ⟨-, rfl⟩ := storeBySoftware_ok.mp hstore
  constructor <;> simp

/-- An instruction that completes has made the updates of its operation, none of which writes these fields. -/
theorem exec_keeps_unwritten {i : Instr} (h : exec i s = .next t) : UnwrittenKept s t := by
  cases i with
  | movToSreg sr src =>
    simp only [exec_movToSreg, outcome_next, bind_ok, Except.ok.injEq] at h
    obtain ⟨sel, -, ld, -, rfl⟩ := h
    constructor <;> simp
  | popES | popSS | popDS | popFS | popGS => exact popSreg_keeps_unwritten (outcome_next.mp h)
  | lds _ _ | les _ _ | lss _ _ | lfs _ _ | lgs _ _ => exact loadFarPtr_keeps_unwritten (outcome_next.mp h)
  | movFromSreg _ _ | sldt _ | str _ =>
    obtain ⟨u, hu, h⟩ := bind_ok.mp (outcome_next.mp h)
    cases h
    rw [storeRM16_frame hu]
    exact ⟨rfl, rfl, rfl, rfl⟩
  | sgdt _ | sidt _ =>
    obtain ⟨u, hu, h⟩ := bind_ok.mp (outcome_next.mp h)
    cases h
    rw [storeTableReg_frame hu]
    exact ⟨rfl, rfl, rfl, rfl⟩
  | lgdt _ =>
    obtain ⟨-, v, -, rfl⟩ := exec_lgdt_next.mp h
    constructor <;> simp
  | lldt _ =>
    obtain ⟨-, sel, v, -, -, rfl⟩ := exec_lldt_next.mp h
    constructor <;> simp
  | callPtr _ _ => exact callFar_keeps_unwritten (outcome_next.mp h)
  | callMem _ =>
    obtain ⟨p, -, h⟩ := bind_ok.mp (outcome_next.mp h)
    exact callFar_keeps_unwritten h
  | jmpPtr _ _ => exact jmpFar_keeps_unwritten (outcome_next.mp h)
  | jmpMem _ =>
    obtain ⟨p, -, h⟩ := bind_ok.mp (outcome_next.mp h)
    exact jmpFar_keeps_unwritten h
  | opSizeByte | addrSizeByte | segOverrideByte _ =>
    rw [exec_prefixByte_frame rfl h]
    exact ⟨rfl, rfl, rfl, rfl⟩
  | retFar | retFarImm _ | sysenter | sysexit | iret | intN _ | into | int3 => cases h

end Unwritten

end Sys2Proof.Machine

namespace Sys2Proof.Proofs

open Sys2Proof Sys2Proof.Machine

/-- Settles O10: every exception of the fetch and of the instruction is raised in a state whose pc is still that of its first byte. -/
theorem exceptionNamesTheInstructionPc : Obligations.ExceptionNamesTheInstructionPc :=
  fun _ e info pc h => step_fault_namesPc h e info pc rfl

/-- Settles O55: a step that completes has run one instruction, and the latch set before it is none of these fields. -/
theorem stepKeepsCplParametersIdtrTr : Obligations.StepKeepsCplParametersIdtrTr := by
  intro s t h
  obtain ⟨xs, i, hrun⟩ := completesBy_of_step h
  obtain ⟨hcpl, hparams, hidtr, htr⟩ := exec_keeps_unwritten hrun.completes
  exact ⟨hcpl, hparams, hidtr, htr⟩

end Sys2Proof.Proofs

/-! ## The invariant of a run, R28, R70, R71, R165, R203 -/

namespace Sys2Proof.Machine

/-- What the invariant asks of the segment register `sr`, R203 (b) to (d). -/
def SegRegOk (cpl : BitVec 2) (sr : SReg) (r : SegReg) : Prop :=
  match sr with
  | .cs => CodeSegOk cpl r
  | .ss => SegLoaded cpl .ss r
  | sr => DataSegOk cpl sr r

/-- The invariant, but for `pfx`: the latch is empty between steps and may not be before an instruction (log 14). -/
structure InvUpToLatch (s : State) : Prop where
  memWf : s.mem.wf
  physBits : 32 ≤ s.params.physBits
  memInRange : MemInRange s.params s.mem
  segs : ∀ sr, SegRegOk s.cpl sr (s.seg sr)
  ldtr : LdtrOk s.ldtr

section Invariant
variable {s t u : State} {i : Instr} {sr : SReg} {sel : Sel} {ld : SegLoad}

theorem inv_iff : s.Inv ↔ InvUpToLatch s ∧ s.pfx = PfxLatch.empty := by
  constructor
  · rintro ⟨hwf, hbits, hrange, hcs, hss, hds, hes, hfs, hgs, hldtr, hpfx⟩
    refine ⟨⟨hwf, hbits, hrange, fun sr => ?_, hldtr⟩, hpfx⟩
    cases sr with
    | es => exact hes
    | cs => exact hcs
    | ss => exact hss
    | ds => exact hds
    | fs => exact hfs
    | gs => exact hgs
  · rintro ⟨⟨hwf, hbits, hrange, hsegs, hldtr⟩, hpfx⟩
    exact ⟨hwf, hbits, hrange, hsegs .cs, hsegs .ss, hsegs .ds, hsegs .es, hsegs .fs, hsegs .gs, hldtr, hpfx⟩

/-! What each update of the state keeps of it -/

theorem InvUpToLatch.withLatch (h : InvUpToLatch s) (xs : List Instr) : InvUpToLatch (s.withLatch xs) :=
  ⟨h.memWf, h.physBits, h.memInRange, h.segs, h.ldtr⟩

/-- The end of an instruction empties the latch, which completes the invariant. -/
theorem InvUpToLatch.finishAt (h : InvUpToLatch s) (target : Word) : (s.finishAt target).Inv :=
  inv_iff.mpr ⟨⟨h.memWf, h.physBits, h.memInRange, h.segs, h.ldtr⟩, rfl⟩

theorem InvUpToLatch.advance (h : InvUpToLatch s) (n : Nat) : (s.advance n).Inv := h.finishAt (s.nextPc n)

theorem InvUpToLatch.setReg (h : InvUpToLatch s) (r : Reg) (v : Word) : InvUpToLatch (s.setReg r v) :=
  ⟨h.memWf, h.physBits, h.memInRange, h.segs, h.ldtr⟩

theorem InvUpToLatch.setStackPtr (h : InvUpToLatch s) (big : Bool) (sp : Word) : InvUpToLatch (s.setStackPtr big sp) := by
  cases big with
  | true => exact h.setReg .esp sp
  | false => exact h.setReg .esp _

theorem InvUpToLatch.setRegOff (h : InvUpToLatch s) (r : Reg) (off : Word) : InvUpToLatch (s.setRegOff r off) := by
  unfold State.setRegOff
  split_ifs
  · exact h.setReg r off
  · exact h.setReg r _

theorem InvUpToLatch.setRegSel (h : InvUpToLatch s) (r : Reg) (v : Sel) : InvUpToLatch (s.setRegSel r v) := by
  unfold State.setRegSel
  split_ifs
  · exact h.setReg r _
  · exact h.setReg r _

theorem InvUpToLatch.setGdtr (h : InvUpToLatch s) (v : TableReg) : InvUpToLatch (s.setGdtr v) :=
  ⟨h.memWf, h.physBits, h.memInRange, h.segs, h.ldtr⟩

theorem InvUpToLatch.setLdtr (h : InvUpToLatch s) {v : SegReg} (hv : LdtrOk v) : InvUpToLatch (s.setLdtr v) :=
  ⟨h.memWf, h.physBits, h.memInRange, h.segs, hv⟩

theorem InvUpToLatch.setSeg (h : InvUpToLatch s) {v : SegReg} (hv : SegRegOk s.cpl sr v) : InvUpToLatch (s.setSeg sr v) := by
  refine ⟨h.memWf, h.physBits, h.memInRange, fun q => ?_, h.ldtr⟩
  change SegRegOk s.cpl q ((s.segs.set sr v).get q)
  by_cases hq : q = sr
  · subst hq
    rwa [SegFile.get_set_self]
  · rw [SegFile.get_set_other s.segs v hq]
    exact h.segs q

/-- Every byte write of `ws` goes to a physical address of PHYS_BITS bits. -/
def WritesInRange (p : Params) (ws : List (Nat × Byte)) : Prop := ∀ a ∈ ws.map Prod.fst, a < 2 ^ p.physBits

theorem InvUpToLatch.store (h : InvUpToLatch s) {ws : List (Nat × Byte)} (hws : WritesInRange s.params ws) :
    InvUpToLatch (s.store ws) := by
  refine ⟨storeMem_wf h.memWf ws, h.physBits, fun c hc => ?_, h.segs, h.ldtr⟩
  rcases storeMem_mem hc with hnew | hold
  · exact hws c.1 hnew
  · exact h.memInRange c hold

/-- A load asks for CPL and the parameters alone, so it may have been checked on an earlier state, as CALL checks it before its pushes. -/
theorem InvUpToLatch.applyLoad (h : InvUpToLatch s) (hws : WritesInRange s.params ld.writes) (hseg : SegRegOk s.cpl sr ld.seg) :
    InvUpToLatch (s.applyLoad sr ld) :=
  (h.store hws).setSeg hseg

/-! The addresses that an operation plans to write to, R28, R82 -/

theorem segWrite_inRange (hb : 32 ≤ s.params.physBits) {off : Word} {bs : List Byte} {ws : List (Nat × Byte)}
    (h : segWrite s sr off bs = .ok ws) : WritesInRange s.params ws := by
  obtain ⟨la, -, hmem⟩ := segWrite_ok.mp h
  exact walk_lt (memWrite_keys hmem) hb

theorem push32_inRange (hb : 32 ≤ s.params.physBits) {sp v : Word} {q : Push} (h : push32 s sp v = .ok q) :
    WritesInRange s.params q.writes := by
  obtain ⟨ws, hws, rfl⟩ := push32_ok.mp h
  exact segWrite_inRange hb hws

theorem WritesInRange.append {p : Params} {ws xs : List (Nat × Byte)} (hws : WritesInRange p ws) (hxs : WritesInRange p xs) :
    WritesInRange p (ws ++ xs) := by
  rw [WritesInRange, List.map_append]
  exact List.forall_mem_append.mpr ⟨hws, hxs⟩

theorem accessedBitWrite_inRange (hb : 32 ≤ s.params.physBits) {a : Word} {d : BitVec 64} {ws : List (Nat × Byte)}
    (h : accessedBitWrite s a d = .ok ws) : WritesInRange s.params ws := by
  obtain ⟨-, rfl⟩ | ⟨-, pa, hpa, rfl, -⟩ := accessedBitWrite_ok.mp h
  · exact List.forall_mem_nil _
  · exact List.forall_mem_singleton.mpr (translate_lt hpa hb)

theorem loadSegReg_inRange (hb : 32 ≤ s.params.physBits) (h : loadSegReg s sr sel = .ok ld) : WritesInRange s.params ld.writes := by
  obtain ⟨-, -, rfl⟩ | ⟨-, a, d, ws, -, -, -, -, -, hwrite, rfl⟩ := loadSegReg_ok.mp h
  · exact List.forall_mem_nil _
  · exact accessedBitWrite_inRange hb hwrite

theorem loadCS_inRange (hb : 32 ≤ s.params.physBits) {c : CsTarget} (h : loadCS s sel c = .ok ld) :
    WritesInRange s.params ld.writes := by
  obtain ⟨ws, hwrite, rfl⟩ := loadCS_ok.mp h
  exact accessedBitWrite_inRange hb hwrite

/-! Setting A changes no check, R64 -/

/-- The access information with A set. -/
abbrev Attr.withAccessed (a : Attr) : Attr := { a with type := a.type ||| 1 }

@[simp] theorem withAccessed_isCode (a : Attr) : a.withAccessed.isCode = a.isCode := getLsbD_type_or_one a.type (by decide)

@[simp] theorem withAccessed_conforming (a : Attr) : a.withAccessed.conforming = a.conforming :=
  getLsbD_type_or_one a.type (by decide)

@[simp] theorem withAccessed_writable (a : Attr) : a.withAccessed.writable = a.writable := getLsbD_type_or_one a.type (by decide)

@[simp] theorem withAccessed_readable (a : Attr) : a.withAccessed.readable = a.readable := getLsbD_type_or_one a.type (by decide)

@[simp] theorem withAccessed_accessed (a : Attr) : a.withAccessed.accessed = true := by
  simp [Attr.accessed]

@[simp] theorem loadTypeOk_withAccessed (sr : SReg) (a : Attr) : loadTypeOk sr a.withAccessed = loadTypeOk sr a := by
  simp only [loadTypeOk, withAccessed_isCode, withAccessed_writable, withAccessed_readable]

@[simp] theorem loadPrivOk_withAccessed (cpl : BitVec 2) (sr : SReg) (sel : Sel) (a : Attr) :
    loadPrivOk cpl sr sel a.withAccessed = loadPrivOk cpl sr sel a := by
  simp only [loadPrivOk, withAccessed_isCode, withAccessed_conforming]

@[simp] theorem csPrivOk_withAccessed (cpl : BitVec 2) (sel : Sel) (a : Attr) :
    csPrivOk cpl sel a.withAccessed = csPrivOk cpl sel a := by
  simp only [csPrivOk, withAccessed_conforming]

/-! CPL in the RPL field, R71 step 8 -/

@[simp] theorem selRPL_selWithRPL (sel : Sel) (cpl : BitVec 2) : selRPL (selWithRPL sel cpl) = cpl :=
  BitVec.extractLsb'_append_eq_right

@[simp] theorem isNull_selWithRPL (sel : Sel) (cpl : BitVec 2) : isNull (selWithRPL sel cpl) = isNull sel :=
  congrArg (· == 0) BitVec.extractLsb'_append_eq_left

/-- A target that CPL may run through `sel` it may run with CPL as the RPL too. -/
theorem csPrivOk_selWithRPL {cpl : BitVec 2} {a : Attr} (h : csPrivOk cpl sel a = true) :
    csPrivOk cpl (selWithRPL sel cpl) a = true := by
  unfold csPrivOk at h ⊢
  split_ifs at h ⊢ with hconf
  · exact h
  · obtain ⟨hdpl, -⟩ := Bool.and_eq_true_iff.mp h
    simp [hdpl]

/-! The registers that a load gives -/

theorem segRegOk_of_segLoaded {cpl : BitVec 2} {r : SegReg} (hcs : sr ≠ .cs) (h : SegLoaded cpl sr r) : SegRegOk cpl sr r := by
  cases sr with
  | cs => exact absurd rfl hcs
  | ss => exact h
  | es | ds | fs | gs => exact .inr h

theorem segRegOk_of_null {cpl : BitVec 2} {r : SegReg} (hcs : sr ≠ .cs) (hss : sr ≠ .ss) (h : isNull r.sel = true) :
    SegRegOk cpl sr r := by
  cases sr with
  | cs => exact absurd rfl hcs
  | ss => exact absurd rfl hss
  | es | ds | fs | gs => exact .inl h

/-- R70: `LoadSegReg` leaves a null register, but not in SS, or one that has passed its checks. -/
theorem loadSegReg_segRegOk (hcs : sr ≠ .cs) (h : loadSegReg s sr sel = .ok ld) : SegRegOk s.cpl sr ld.seg := by
  obtain ⟨hnull, hss, rfl⟩ | ⟨hnull, a, d, ws, -, -, htype, hpriv, hp, -, rfl⟩ := loadSegReg_ok.mp h
  · exact segRegOk_of_null hcs hss hnull
  · exact segRegOk_of_segLoaded hcs ⟨hnull, (loadTypeOk_withAccessed sr _).trans htype,
      (loadPrivOk_withAccessed s.cpl sr sel _).trans hpriv, hp, withAccessed_accessed _⟩

/-- R71: a checked `LoadCS` leaves a code segment that CPL may run, with CPL in its RPL field. -/
theorem loadCS_segRegOk {c : CsTarget} (hc : checkCS s sel = .ok c) (h : loadCS s sel c = .ok ld) : SegRegOk s.cpl .cs ld.seg := by
  obtain ⟨hnull, -, -, hs, hcode, hpriv, hp⟩ := checkCS_ok.mp hc
  obtain ⟨ws, -, rfl⟩ := loadCS_ok.mp h
  exact ⟨(isNull_selWithRPL sel s.cpl).trans hnull, hs, (withAccessed_isCode _).trans hcode,
    (csPrivOk_withAccessed s.cpl _ _).trans (csPrivOk_selWithRPL hpriv), hp, withAccessed_accessed _, selRPL_selWithRPL sel s.cpl⟩

/-- R165: LLDT leaves a null LDTR or a present LDT of the GDT in it. -/
theorem loadLdtr_ldtrOk {v : SegReg} (h : loadLdtr s sel = .ok v) : LdtrOk v := by
  obtain ⟨hnull, rfl⟩ | ⟨-, hti, a, d, -, -, hldt, hp, rfl⟩ := loadLdtr_ok.mp h
  · exact .inl hnull
  · exact .inr ⟨hti, hldt, hp⟩

/-! What each kind of instruction keeps of it -/

theorem InvUpToLatch.loadSegReg (h : InvUpToLatch s) (hcs : sr ≠ .cs) (hld : loadSegReg s sr sel = .ok ld) :
    InvUpToLatch (s.applyLoad sr ld) :=
  h.applyLoad (loadSegReg_inRange h.physBits hld) (loadSegReg_segRegOk hcs hld)

theorem InvUpToLatch.storeBySoftware (h : InvUpToLatch s) {ws : List (Nat × Byte)} (hws : WritesInRange s.params ws)
    (hst : storeBySoftware s ws = .ok u) : InvUpToLatch u := by
  obtain ⟨-, rfl⟩ := storeBySoftware_ok.mp hst
  exact h.store hws

theorem InvUpToLatch.popSreg (h : InvUpToLatch s) (hcs : sr ≠ .cs) {len : Nat} (hpop : popSreg s sr len = .ok t) : t.Inv := by
  obtain ⟨v, ld, -, hld, rfl⟩ := popSreg_ok.mp hpop
  exact ((h.loadSegReg hcs hld).setStackPtr _ _).advance len

theorem InvUpToLatch.loadFarPtr (h : InvUpToLatch s) (hcs : sr ≠ .cs) {r : Reg} {m : Mem} {len : Nat}
    (hfar : loadFarPtr s sr r m len = .ok t) : t.Inv := by
  obtain ⟨p, ld, -, hld, rfl⟩ := loadFarPtr_ok.mp hfar
  exact ((h.loadSegReg hcs hld).setRegOff r p.off).advance len

theorem InvUpToLatch.storeRM16 (h : InvUpToLatch s) {dst : RM} {v : Sel} (hst : storeRM16 s dst v = .ok u) : InvUpToLatch u := by
  obtain ⟨r, -, rfl⟩ | ⟨m, ws, -, hws, hst⟩ := storeRM16_ok.mp hst
  · exact h.setRegSel r v
  · exact h.storeBySoftware (segWrite_inRange h.physBits hws) hst

theorem InvUpToLatch.storeTableReg (h : InvUpToLatch s) {m : Mem} {v : TableReg} (hst : storeTableReg s m v = .ok u) :
    InvUpToLatch u := by
  obtain ⟨ws, hws, hst⟩ := storeTableReg_ok.mp hst
  exact h.storeBySoftware (segWrite_inRange h.physBits hws) hst

theorem InvUpToLatch.jmpFar (h : InvUpToLatch s) {p : FarPtr} (hjmp : jmpFar s p = .ok t) : t.Inv := by
  obtain ⟨c, ld, hc, hld, rfl⟩ := jmpFar_ok.mp hjmp
  exact (h.applyLoad (loadCS_inRange h.physBits hld) (loadCS_segRegOk hc hld)).finishAt p.off

theorem InvUpToLatch.callFar (h : InvUpToLatch s) {p : FarPtr} {len : Nat} (hcall : callFar s p len = .ok t) : t.Inv := by
  obtain ⟨c, q1, q2, ld, u, hc, hq1, hq2, hld, hst, rfl⟩ := callFar_ok.mp hcall
  obtain ⟨-, rfl⟩ := storeBySoftware_ok.mp hst
  have hpushes := h.store ((push32_inRange h.physBits hq1).append (push32_inRange h.physBits hq2))
  have hload := hpushes.applyLoad (loadCS_inRange (s := s) h.physBits hld) (loadCS_segRegOk (s := s) hc hld)
  exact (hload.setStackPtr _ q2.sp).finishAt p.off

/-- A well-formed instruction that completes leaves the invariant; that it is none of `isPrefixByte` is what empties the latch. -/
theorem exec_inv {op32 : Bool} (hwf : i.wf op32 = true) (hi : i.isPrefixByte = false) (h : InvUpToLatch s)
    (hexec : exec i s = .next t) : t.Inv := by
  cases i with
  | movToSreg sr src =>
    have hcs : sr ≠ .cs := by simpa using (Bool.and_eq_true_iff.mp hwf).1
    simp only [exec_movToSreg, outcome_next, bind_ok, Except.ok.injEq] at hexec
    obtain ⟨sel, -, ld, hld, rfl⟩ := hexec
    exact (h.loadSegReg hcs hld).advance _
  | popES | popSS | popDS | popFS | popGS => exact h.popSreg (by decide) (outcome_next.mp hexec)
  | lds _ _ | les _ _ | lss _ _ | lfs _ _ | lgs _ _ => exact h.loadFarPtr (by decide) (outcome_next.mp hexec)
  | movFromSreg _ _ | sldt _ | str _ =>
    obtain ⟨u, hu, hend⟩ := bind_ok.mp (outcome_next.mp hexec)
    cases hend
    exact (h.storeRM16 hu).advance _
  | sgdt _ | sidt _ =>
    obtain ⟨u, hu, hend⟩ := bind_ok.mp (outcome_next.mp hexec)
    cases hend
    exact (h.storeTableReg hu).advance _
  | lgdt _ =>
    obtain ⟨-, v, -, rfl⟩ := exec_lgdt_next.mp hexec
    exact (h.setGdtr v).advance _
  | lldt _ =>
    obtain ⟨-, sel, v, -, hv, rfl⟩ := exec_lldt_next.mp hexec
    exact (h.setLdtr (loadLdtr_ldtrOk hv)).advance _
  | callPtr _ _ => exact h.callFar (outcome_next.mp hexec)
  | callMem _ =>
    obtain ⟨p, -, hcall⟩ := bind_ok.mp (outcome_next.mp hexec)
    exact h.callFar hcall
  | jmpPtr _ _ => exact h.jmpFar (outcome_next.mp hexec)
  | jmpMem _ =>
    obtain ⟨p, -, hjmp⟩ := bind_ok.mp (outcome_next.mp hexec)
    exact h.jmpFar hjmp
  | opSizeByte | addrSizeByte | segOverrideByte _ => cases hi
  | retFar | retFarImm _ | sysenter | sysexit | iret | intN _ | into | int3 => cases hexec

end Invariant

/-! ## The end of a run, R214 -/

section Runs
variable {s : State}

theorem atEnd_iff : atEnd s = true ↔ s.segs.cs.base + s.pc = s.params.endAddr := beq_iff_eq

theorem runToEnd_of_atEnd (h : atEnd s = true) (n : Nat) : runToEnd n s = .next s := by
  cases n with
  | zero => rfl
  | succ n => exact if_pos h

end Runs

end Sys2Proof.Machine

namespace Sys2Proof.Proofs

open Sys2Proof Sys2Proof.Machine

/-- Settles O57: a step that completes has run one well-formed instruction, which keeps the invariant whatever is latched. -/
theorem stepKeepsTheInvariant : Obligations.StepKeepsTheInvariant := by
  intro s t hinv hstep
  obtain ⟨hs, -⟩ := inv_iff.mp hinv
  obtain ⟨xs, i, hrun⟩ := completesBy_of_step hstep
  exact exec_inv hrun.wf hrun.notPrefixByte (hs.withLatch xs) hrun.completes

/-- Settles O5: in a 32-bit code segment with nothing latched both sizes are 32. -/
theorem stepRunsTheDecodedInstruction : Obligations.StepRunsTheDecodedInstruction := by
  intro s bs rest stop i hwindow hdb hdec _ hi
  have hbs : bs ≠ [] := by rintro rfl; cases hdec
  obtain ⟨n, hstep⟩ := step_of_prefixed (xs := []) hwindow hdb (by simp) hbs
  rw [hstep]
  refine runBytes_of_decode (rest := rest) n ?_ hi
  rw [withLatch_op32 hdb, withLatch_addr32 hdb]
  exact hdec

/-- Settles O58: memory is empty, CS, SS and DS are loaded at level 0, the other registers are null. -/
theorem resetIsALaunchState : Obligations.ResetIsALaunchState := by
  have hds : isNull State.reset.segs.ds.sel = false := by decide
  have hsegs : ∀ sr, SegRegOk State.reset.cpl sr (State.reset.seg sr) := by
    intro sr
    cases sr with
    | cs => exact ⟨by decide, rfl, rfl, by decide, rfl, rfl, by decide⟩
    | ss => exact segRegOk_of_segLoaded (by decide) ⟨by decide, by decide, by decide, rfl, rfl⟩
    | ds => exact segRegOk_of_segLoaded (by decide) ⟨hds, by decide, by decide, rfl, rfl⟩
    | es | fs | gs => exact segRegOk_of_null (by decide) (by decide) (by decide)
  have hinv : InvUpToLatch State.reset :=
    { memWf := ⟨.nil, List.forall_mem_nil _⟩
      physBits := le_refl 32
      memInRange := List.forall_mem_nil _
      segs := hsegs
      ldtr := .inl (by decide) }
  exact ⟨inv_iff.mpr ⟨hinv, rfl⟩, hds⟩

/-- Settles O59: paging is off at reset, so the linear address is the physical one. -/
theorem resetVectorAndDsBase : Obligations.ResetVectorAndDsBase :=
  ⟨rfl, translate_off rfl _ _, rfl⟩

/-- Settles O60, by whether the run is over. -/
theorem runEndsAtEndAddr : Obligations.RunEndsAtEndAddr := by
  intro s n
  refine ⟨fun hend => runToEnd_of_atEnd (atEnd_iff.mpr hend) n, fun hend => ?_⟩
  rw [runToEnd, if_neg (atEnd_iff.not.mpr hend)]
  exact ⟨fun t h => by rw [h], fun f h => by rw [h], fun r h => by rw [h]⟩

end Sys2Proof.Proofs
